-- ==== Sys2Proof/Word.lean ====
section
/-! DEFINITION. The word types of the COBS core: a byte of data memory and a 32-bit register
(spec/00_scope.md R8, R10). Addresses and lengths are computed as unbounded naturals (R9). -/

namespace Sys2Proof

/-- A byte of data memory, 0 to 255 (00_scope.md R10). -/
abbrev Byte := BitVec 8

/-- A register of the window, an address or a length: 32 bits (00_scope.md R8). -/
abbrev Word := BitVec 32

end Sys2Proof
end

