-- ==== Sys2Proof/Config.lean ====
section
/-! DEFINITION. What is fixed for one block (spec/00_scope.md R8), the platform the block is attached
to (R8 `MemAdmits`, 20_memory.md R48), and the free values: bytes and words the spec leaves open, as
constants without a body, so that no claim can rest on a number (log 3, log 4, log 5). -/

namespace Sys2Proof

/-- The size of data memory: `ADDR_WIDTH` is 32 bits, so addresses are 0 to 2^32 - 1 (R8, R39). -/
def Config.addressSpace : Nat := 2 ^ 32

/-- The most data bytes one encoded block holds (R8). -/
def Config.maxBlockData : Nat := 254

/-- The code byte of a full block, "chain continues with no implicit zero" (R8). -/
def Config.chainCode : Byte := 0xFF

/-- The delimiter and the sentinel (R8). -/
def Config.delimiter : Byte := 0x00

/-- The `n`-th byte the spec leaves unspecified (93_implementation_defined.md U5 to U9, U11): any
value. DESIGN CHOICE of form, safe (log 4). -/
opaque Config.freeByte : Nat → BitVec 8

/-- The `n`-th word the spec gives no value for (log 5, log 11). DESIGN CHOICE of form, safe. -/
opaque Config.freeWord : Nat → BitVec 32

/-- What the byte at an address holds before anything is written there: any value
(93_implementation_defined.md U12; 10_state.md R38). DESIGN CHOICE of form, safe (log 3). -/
opaque Config.unwrittenByte : Nat → BitVec 8

namespace Machine

/-- A region of data memory: a pair of 32-bit values (20_memory.md R41). -/
structure Region where
  base : Word
  len : Word
deriving DecidableEq, Repr

/-- What the spec leaves to the platform, as data: the addresses whose byte accesses the memory does
not complete (`MemAdmits` false, R8, D36), and those with read or write side effects (R48). Every set
of addresses is a finite union of regions, so every `MemAdmits` is some list (log 2). -/
structure Platform where
  holes : List Region
  devices : List Region
deriving DecidableEq, Repr

end Machine

end Sys2Proof
end

