-- ==== Sys2Proof/Machine/Bus.lean ====
section
/-! DEFINITION. What the outside world does to the block: the register names and their offsets
(spec/10_state.md R22) and the host's transactions (30_encoding.md R56, R63; 70_reset_and_hazards.md
R145, R147; 20_memory.md R52). The transactions are held in State as a list (log 1). -/

namespace Sys2Proof.Machine

/-- The twelve registers of the window (10_state.md R22). -/
inductive RegName where
  | cmd | status | srcAddr | srcLen | dstAddr | dstCap
  | resLen | remAddr | remLen | accBase | accCap | accIdx
deriving DecidableEq, Repr

/-- The offset of each register (10_state.md R22). -/
def RegName.offset : RegName → BitVec 8
  | .cmd => 0x00
  | .status => 0x04
  | .srcAddr => 0x08
  | .srcLen => 0x0C
  | .dstAddr => 0x10
  | .dstCap => 0x14
  | .resLen => 0x18
  | .remAddr => 0x1C
  | .remLen => 0x20
  | .accBase => 0x24
  | .accCap => 0x28
  | .accIdx => 0x2C

/-- A value the host writes (30_encoding.md R63): a number, or `(NAME)`, "the value the host last
read from NAME". -/
inductive HostVal where
  | lit (v : Word)
  | lastRead (r : RegName)
deriving DecidableEq, Repr

/-- One transaction of the host or the platform. Offsets are 8 bits because the window is 0x100 bytes
(10_state.md R22); `width` counts the bytes of the access. -/
inductive HostOp where
  /-- A write of the register window (30_encoding.md R56, R63 `WR`). -/
  | write (width : Nat) (off : BitVec 8) (v : HostVal)
  /-- A read of the register window (30_encoding.md R56, R63 `RD`). -/
  | read (width : Nat) (off : BitVec 8)
  /-- A host store to data memory (30_encoding.md R63 `MEM`; 20_memory.md R54). -/
  | store (addr : Word) (bytes : List Byte)
  /-- A host read of data memory (30_encoding.md R63 `MEMRD`). -/
  | load (addr : Word) (n : Nat)
  /-- Hardware reset between commands (70_reset_and_hazards.md R145). -/
  | reset
  /-- A 32-bit write of CMD during which hardware reset is asserted (70_reset_and_hazards.md R147). -/
  | cmdReset (v : HostVal)
  /-- A 32-bit write of CMD during which another agent touches the command's regions (20_memory.md R52). -/
  | cmdRaced (v : HostVal)
deriving DecidableEq, Repr

/-- What the host has read: a register, by its offset, or bytes of data memory. -/
inductive Seen where
  | reg (off : BitVec 8) (v : Word)
  | mem (addr : Word) (bytes : List Byte)
deriving DecidableEq, Repr

end Sys2Proof.Machine
end

