-- ==== Sys2Proof/Syntax.lean ====
section
/-! DEFINITION. The five commands of the block (spec/30_encoding.md R59; opcode_table.json), one
constructor a row. A command has no operand field: every operand is a whole register of the window,
read when the command runs (R58, R61). -/

namespace Sys2Proof

/-- The commands a CMD write can select (R59). -/
inductive Instr where
  /-- ENCODE, word 0x00000001 (40_encoder.md R66). -/
  | encode
  /-- DECODE_RAW, word 0x00000002 (41_decoder.md R85). -/
  | decodeRaw
  /-- ACC_INIT, word 0x00000003 (42_accumulator.md R100). -/
  | accInit
  /-- ACC_RESET, word 0x00000004 (42_accumulator.md R101). -/
  | accReset
  /-- ACC_APPEND, word 0x00000005 (42_accumulator.md R102). -/
  | accAppend
deriving DecidableEq, Repr

end Sys2Proof
end

