-- ==== Sys2Proof/WellFormed.lean ====
section
/-! DEFINITION. The checks on a command and on a host transaction before the block acts on it
(spec/30_encoding.md R56, R58; 20_memory.md R39). -/

namespace Sys2Proof

/-- A command has no immediate, register or modifier field (30_encoding.md R58), so there is nothing
in it to check: every command is well-formed. Which WORDS are commands is decoding (R59, R60). -/
def Instr.wellFormed : Instr → Bool
  | .encode => true
  | .decodeRaw => true
  | .accInit => true
  | .accReset => true
  | .accAppend => true

namespace Machine

/-- A register access the block defines: 32 bits wide, at a multiple of 4 (30_encoding.md R56). -/
def accessDefined (width : Nat) (off : BitVec 8) : Bool :=
  width == 4 && off.toNat % 4 == 0

/-- `n` bytes from `addr` lie in data memory, addresses 0 to 2^32 - 1 (20_memory.md R39). -/
def rangeInMemory (addr : Word) (n : Nat) : Bool :=
  addr.toNat + n ≤ Config.addressSpace

/-- A host transaction the spec gives a meaning: aligned 32-bit register accesses (30_encoding.md R56)
and data accesses inside the address space (20_memory.md R39). -/
def HostOp.wellFormed : HostOp → Bool
  | .write width off _ => accessDefined width off
  | .read width off => accessDefined width off
  | .store addr bytes => rangeInMemory addr bytes.length
  | .load addr n => rangeInMemory addr n
  | .reset => true
  | .cmdReset _ => true
  | .cmdRaced _ => true

end Machine

end Sys2Proof
end

