-- ==== Sys2Proof/Decode.lean ====
section
/-! DEFINITION. From the bytes of a CMD word to a command, total and rejecting by name, and the
encoder beside it (spec/30_encoding.md R58, R59, R60). On the bus a register is little-endian
(20_memory.md R46): bits 7:0 are the byte at the register's offset. -/

namespace Sys2Proof

/-- Why a CMD word is no command (30_encoding.md R60): all of them report ILLEGAL_CMD. -/
inductive DecodeError where
  /-- Not four bytes: every command word is 32 bits (30_encoding.md R58). -/
  | wrongLength
  /-- A bit of RES, bits 31:4, is set (30_encoding.md R58, R60). -/
  | reservedBitsSet
  /-- OP is 0x0 or 0x6 to 0xF (30_encoding.md R59, R60). -/
  | illegalOpcode
deriving DecidableEq, Repr

/-- What decoding gives. -/
inductive Decoded where
  | instr (i : Instr)
  | rejected (e : DecodeError)
deriving DecidableEq, Repr

/-- The four bytes of a register on the bus, lowest address first (20_memory.md R46). -/
def wordBytes (w : Word) : List Byte :=
  [w.extractLsb' 0 8, w.extractLsb' 8 8, w.extractLsb' 16 8, w.extractLsb' 24 8]

/-- The register whose bytes on the bus, lowest address first, are the four given (20_memory.md R46). -/
def wordOfBytes (b0 b1 b2 b3 : Byte) : Word :=
  b3 ++ b2 ++ b1 ++ b0

/-- Field OP, bits 3:0 of a command word (30_encoding.md R58). -/
def fieldOp (w : Word) : BitVec 4 := w.extractLsb' 0 4

/-- Field RES, bits 31:4 of a command word (30_encoding.md R58). -/
def fieldRes (w : Word) : BitVec 28 := w.extractLsb' 4 28

/-- The opcode map (30_encoding.md R59). -/
def decodeOp (op : BitVec 4) : Decoded :=
  match op.toNat with
  | 1 => .instr .encode
  | 2 => .instr .decodeRaw
  | 3 => .instr .accInit
  | 4 => .instr .accReset
  | 5 => .instr .accAppend
  | _ => .rejected .illegalOpcode

/-- Decoding a command word: RES must be 0, OP selects (30_encoding.md R58, R59, R60). -/
def decodeWord (w : Word) : Decoded :=
  if fieldRes w = 0 then decodeOp (fieldOp w) else .rejected .reservedBitsSet

/-- Decoding the bytes of a command as they stand on the bus, lowest address first. -/
def decode : List Byte → Decoded
  | [b0, b1, b2, b3] => decodeWord (wordOfBytes b0 b1 b2 b3)
  | _ => .rejected .wrongLength

/-- Field OP of each command (30_encoding.md R59). -/
def encodeOp : Instr → BitVec 4
  | .encode => 0x1
  | .decodeRaw => 0x2
  | .accInit => 0x3
  | .accReset => 0x4
  | .accAppend => 0x5

/-- The CMD word of a command: RES, bits 31:4, is 0 and OP is in bits 3:0 (30_encoding.md R58, R59). -/
def encode (i : Instr) : Word := (0 : BitVec 28) ++ encodeOp i

/-- The bytes of a command's word as they stand on the bus, lowest address first. -/
def encodeBytes (i : Instr) : List Byte := wordBytes (encode i)

/-- The command a table row's bits decode to: bit 0 is the least significant bit of the word, and the
bits at `nbits` and above are 0. A value that does not fit in the 32 bits of a command word is none. -/
def decodeTableWord (nbits w : Nat) : Option Instr :=
  if w % 2 ^ nbits < 2 ^ 32 then
    match decode (wordBytes (BitVec.ofNat 32 (w % 2 ^ nbits))) with
    | .instr i => some i
    | .rejected _ => none
  else none

end Sys2Proof
end

