-- ==== Sys2Proof/Machine/State.lean ====
section
/-! DEFINITION. The state of the block, its host and its data memory, as plain data, and the state
after reset (spec/10_state.md R19 to R38; 20_memory.md R39; 70_reset_and_hazards.md R145). -/

namespace Sys2Proof.Machine

/-- STATUS.ERR (10_state.md R24). The codes 6 to 15 are "never produced", so they are no value here. -/
inductive ErrCode where
  | none | illegalCmd | notInit | region | overlap | dstFull
deriving DecidableEq, Repr

/-- STATUS.OUTCOME (10_state.md R24). The codes 6 to 15 are "never produced". -/
inductive OutCode where
  | ok | malformedEncoding | consumed | frameReady | overflow | decodeFailed
deriving DecidableEq, Repr

/-- The register STATUS by its fields (10_state.md R24). Its reserved bits read 0 and are never
written, so nothing is stored for them (log 16); `Status.word` gives the 32 bits. -/
structure Status where
  err : ErrCode
  outcome : OutCode
  accValid : Bool
deriving DecidableEq, Repr

/-- The registers of the window that hold a value (10_state.md R22 to R31). CMD holds none (R23). -/
structure Regs where
  status : Status
  srcAddr : Word
  srcLen : Word
  dstAddr : Word
  dstCap : Word
  resLen : Word
  remAddr : Word
  remLen : Word
  accBase : Word
  accCap : Word
  accIdx : Word
deriving DecidableEq, Repr

/-- The bus-master port and what lies behind it: the bytes of data memory written so far (20_memory.md
R39), the platform (00_scope.md R8), the number of free values drawn (log 4), and whether another agent
is touching the running command's regions (20_memory.md R52). -/
structure DataPort where
  mem : List Host.Cell
  platform : Platform
  draws : Nat
  raced : Bool
deriving DecidableEq, Repr

/-- The state of the machine: the register window, the data port, the host's transactions still to be
performed (oldest first) and what the host has read (newest first) (log 1). -/
structure State where
  regs : Regs
  port : DataPort
  pending : List HostOp
  seen : List Seen
deriving DecidableEq, Repr

/-- Why the machine stops. -/
inductive Fault where
  /-- Raised by a byte access the platform's memory does not complete (`MemAdmits a` false): "the block
  is stuck and so is the host's CMD write" (20_memory.md R43, R44; D36). Safe (log 6). -/
  | stuck (addr : Nat)
  /-- Raised by an access to an address outside the 2^32 bytes of data memory (20_memory.md R39): by a
  host transaction that names such bytes, and by ACC_APPEND only in a state no run reaches. Safe
  (log 13). -/
  | outsideMemory (addr : Nat)
deriving DecidableEq, Repr

/-- What the model gives no meaning. -/
inductive Refusal where
  /-- Raised by an arm of `exec` for an instruction without a meaning; no arm raises it. Safe. -/
  | notModelled (mnemonic : String)
  /-- Raised by a host register access that is not 32 bits wide at a multiple of 4: "a model refuses a
  host program that makes one" (30_encoding.md R56). Safe (log 8). -/
  | unsupportedAccess
  /-- Raised by a command that names memory with side effects, or a host access to it (20_memory.md
  R48; 93_implementation_defined.md U4 `refuse`). Safe (log 7). -/
  | sideEffectRegion
deriving DecidableEq, Repr

/-- Every register after hardware reset: "every register of the window holds 0x00000000"
(10_state.md R38). -/
def Regs.reset : Regs :=
  { status := { err := .none, outcome := .ok, accValid := false }
    srcAddr := 0, srcLen := 0, dstAddr := 0, dstCap := 0
    resLen := 0, remAddr := 0, remLen := 0
    accBase := 0, accCap := 0, accIdx := 0 }

/-- The platform the reset state stands on: every access completes and no address is a device.
DESIGN CHOICE: the spec leaves it OPEN (log 2). No statement rests on it. -/
def resetPlatform : Platform := { holes := [], devices := [] }

/-- The data port after reset: nothing has been written, so every byte is unspecified (10_state.md
R38); no free value has been drawn (DESIGN CHOICE, log 4). -/
def DataPort.reset : DataPort :=
  { mem := [], platform := resetPlatform, draws := 0, raced := false }

/-- The machine right after reset: registers as 10_state.md R38 gives them, the block idle
(70_reset_and_hazards.md R145), no host transaction pending (DESIGN CHOICE, log 1). -/
def State.reset : State :=
  { regs := Regs.reset, port := DataPort.reset, pending := [], seen := [] }

end Sys2Proof.Machine
end

