-- ==== Sys2Proof/Machine/Ops.lean ====
section
/-! DEFINITION. The operations every command shares: data memory as a finite map over free bytes,
regions (spec/20_memory.md R41, R42), the access primitives MemRead and MemWrite (R43, R44), the
checked write `Out` (40_encoder.md R74, 41_decoder.md R93), unspecified bytes
(93_implementation_defined.md), and the ends of a command, `finish` and `raise`
(60_exceptions.md R124, R125). -/

namespace Sys2Proof.Machine

/-! ### Data memory -/

/-- The byte last written at an address, if one has been. -/
def Memory.lookup : List Host.Cell → Nat → Option Byte
  | [], _ => none
  | c :: m, a => if c.1 = a then some c.2 else Memory.lookup m a

/-- Write one byte, keeping the addresses strictly rising. -/
def Memory.write : List Host.Cell → Nat → Byte → List Host.Cell
  | [], a, v => [(a, v)]
  | c :: m, a, v =>
    if a < c.1 then (a, v) :: c :: m
    else if a = c.1 then (a, v) :: m
    else c :: Memory.write m a v

/-- Write a sequence of bytes from an address up: byte `k` of the sequence at `a + k` (20_memory.md R46). -/
def Memory.writeBytes : List Host.Cell → Nat → List Byte → List Host.Cell
  | m, _, [] => m
  | m, a, b :: bs => Memory.writeBytes (Memory.write m a b) (a + 1) bs

/-- The canonical form: addresses strictly rising and inside data memory (20_memory.md R39). An
unlisted address holds no value (`lookup` gives none), so no entry equals it. -/
abbrev Memory.wf (m : List Host.Cell) : Prop :=
  m.Pairwise (fun c c' => c.1 < c'.1) ∧ ∀ c ∈ m, c.1 < Config.addressSpace

/-- What a byte that nothing has written reads as: unspecified (93_implementation_defined.md U12), a
free value of its address (log 3). -/
def Memory.unlisted (a : Nat) : Byte := Config.unwrittenByte a

/-- The byte data memory holds at an address. -/
def DataPort.byteAt (p : DataPort) (a : Nat) : Byte :=
  (Memory.lookup p.mem a).getD (Memory.unlisted a)

/-- The `n` bytes data memory holds from an address up (20_memory.md R46). -/
def DataPort.bytesAt (p : DataPort) : Nat → Nat → List Byte
  | _, 0 => []
  | a, n + 1 => p.byteAt a :: p.bytesAt (a + 1) n

/-- Put one byte into data memory. -/
def DataPort.putByte (p : DataPort) (a : Nat) (v : Byte) : DataPort :=
  { p with mem := Memory.write p.mem a v }

/-- Put a sequence of bytes into data memory from an address up. -/
def DataPort.putBytes (p : DataPort) (a : Nat) (bs : List Byte) : DataPort :=
  { p with mem := Memory.writeBytes p.mem a bs }

/-! ### Regions -/

/-- "A region is well-formed when `base + len ≤ 2^32` (computed without wrap)" (20_memory.md R41). -/
def Region.wellFormed (r : Region) : Bool :=
  r.base.toNat + r.len.toNat ≤ Config.addressSpace

/-- The bytes a region names, `base` to `base + len - 1` (20_memory.md R41). -/
def Region.contains (r : Region) (a : Nat) : Bool :=
  r.base.toNat ≤ a && a < r.base.toNat + r.len.toNat

/-- "Two regions overlap when `m > 0`, `n > 0`, `a < b + n` and `b < a + m`" (20_memory.md R42). -/
def Region.overlaps (r q : Region) : Bool :=
  0 < r.len.toNat && 0 < q.len.toNat &&
    r.base.toNat < q.base.toNat + q.len.toNat && q.base.toNat < r.base.toNat + r.len.toNat

/-! ### The platform -/

/-- `MemAdmits(a)`: the platform's data memory completes a byte access at `a` (00_scope.md R8). -/
def Platform.admits (pl : Platform) (a : Nat) : Bool :=
  pl.holes.all fun h => !(h.contains a)

/-- One of the `n` addresses from `a` has read or write side effects (20_memory.md R48). -/
def Platform.deviceIn (pl : Platform) (a n : Nat) : Bool :=
  pl.devices.any fun d => 0 < n && 0 < d.len.toNat && a < d.base.toNat + d.len.toNat && d.base.toNat < a + n

/-- One of the regions holds an address with read or write side effects (20_memory.md R48). -/
def Platform.namesDevice (pl : Platform) (rs : List Region) : Bool :=
  rs.any fun r => pl.deviceIn r.base.toNat r.len.toNat

/-! ### The access primitives -/

/-- How a piece of a command ends: with a value, at a failed destination check (40_encoder.md R74,
41_decoder.md R93), or stuck (20_memory.md R43). Only the data port can change on the way. `φ` is `Unit`
where the writes are checked and `Empty` where no check can fail (ACC_APPEND, 60_exceptions.md R130). -/
inductive Run (φ α : Type) where
  | ok (a : α) (p : DataPort)
  | full (x : φ) (p : DataPort)
  | stop (f : Fault)
deriving DecidableEq, Repr

/-- Go on with the rest of a command. -/
def Run.bind {φ α β : Type} (x : Run φ α) (f : α → DataPort → Run φ β) : Run φ β :=
  match x with
  | .ok a p => f a p
  | .full x p => .full x p
  | .stop e => .stop e

/-- Draw the next unspecified byte (log 4). -/
def DataPort.drawByte (p : DataPort) : Byte × DataPort :=
  (Config.freeByte p.draws, { p with draws := p.draws + 1 })

/-- Draw the next word the spec gives no value for (log 5, log 11). -/
def DataPort.drawWord (p : DataPort) : Word × DataPort :=
  (Config.freeWord p.draws, { p with draws := p.draws + 1 })

/-- `MemRead(a, 1)` (20_memory.md R43). While another agent touches the command's regions, "a read by
the block may return any byte" (R52). -/
def memRead {φ : Type} (a : Nat) (p : DataPort) : Run φ Byte :=
  if a < Config.addressSpace then
    if p.platform.admits a then
      if p.raced then .ok p.drawByte.1 p.drawByte.2 else .ok (p.byteAt a) p
    else .stop (.stuck a)
  else .stop (.outsideMemory a)

/-- `MemWrite(a, 1, v)` (20_memory.md R44). -/
def memWrite {φ : Type} (a : Nat) (v : Byte) (p : DataPort) : Run φ Unit :=
  if a < Config.addressSpace then
    if p.platform.admits a then .ok () (p.putByte a v) else .stop (.stuck a)
  else .stop (.outsideMemory a)

/-- `Out(k, v)`: the checked write at offset `k` of the destination region (40_encoder.md R74,
41_decoder.md R93). -/
def outByte (dst : Region) (k : Nat) (v : Byte) (p : DataPort) : Run Unit Unit :=
  if k < dst.len.toNat then memWrite (dst.base.toNat + k) v p else .full () p

/-- `len` free bytes in data memory from `a` up, the `n`-th draw first. -/
def freeBytesFrom : List Host.Cell → Nat → Nat → Nat → List Host.Cell
  | m, _, 0, _ => m
  | m, a, len + 1, n => freeBytesFrom (Memory.write m a (Config.freeByte n)) (a + 1) len (n + 1)

/-- `unspecified([a, a + len))`: the bytes hold values the spec does not fix (00_scope.md R11). Each is
a free value of its own (log 4). -/
def DataPort.unspecified (p : DataPort) (a len : Nat) : DataPort :=
  { p with mem := freeBytesFrom p.mem a len p.draws, draws := p.draws + len }

/-- Every byte of a region becomes unspecified. -/
def DataPort.unspecifiedRegion (p : DataPort) (r : Region) : DataPort :=
  p.unspecified r.base.toNat r.len.toNat

/-! ### Registers -/

/-- `finish(err, outcome)` on the registers: it "writes STATUS.ERR and STATUS.OUTCOME"; ACC_VALID is
not written (60_exceptions.md R124). -/
def Regs.finish (r : Regs) (e : ErrCode) (o : OutCode) : Regs :=
  { r with status := { r.status with err := e, outcome := o } }

/-- `reg[RES_LEN] <- zext_32(n)` (00_scope.md R11). -/
def Regs.setResLen (r : Regs) (n : Nat) : Regs :=
  { r with resLen := BitVec.ofNat 32 n }

/-- `reg[REM_ADDR] <- a; reg[REM_LEN] <- n` (42_accumulator.md R115). -/
def Regs.setRem (r : Regs) (a : Word) (n : Nat) : Regs :=
  { r with remAddr := a, remLen := BitVec.ofNat 32 n }

/-- `reg[ACC_IDX] <- n` (10_state.md R31). -/
def Regs.setIdx (r : Regs) (n : Nat) : Regs :=
  { r with accIdx := BitVec.ofNat 32 n }

/-- ACC_INIT's binding of a working buffer (42_accumulator.md R100). -/
def Regs.bindBuffer (r : Regs) (base cap : Word) : Regs :=
  { r with status := { r.status with accValid := true }, accBase := base, accCap := cap, accIdx := 0 }

/-- A register address as REM_ADDR takes it. `s + L` can be 2^32, which no 32-bit register holds and no
rule truncates (00_scope.md R11): REM_ADDR then holds a free value (DESIGN CHOICE, safe, log 5). -/
def remAddrOf (v : Nat) (p : DataPort) : Word × DataPort :=
  if v < 2 ^ 32 then (BitVec.ofNat 32 v, p) else p.drawWord

/-- The registers take their reset values and data memory is not touched (70_reset_and_hazards.md
R145). The host's own record of transactions is not the block's to reset. -/
def State.hardReset (s : State) : State := { s with regs := Regs.reset }

/-! ### The end of a command -/

/-- `finish(err, outcome)`: the command ends (60_exceptions.md R124). -/
def State.finish (s : State) (e : ErrCode) (o : OutCode) : State :=
  { s with regs := s.regs.finish e o }

/-- `raise E`: the command is refused by the interface. This is all the error entry the block has: no
state is saved, no mode changes and control goes nowhere (60_exceptions.md R125, R135), so there is no
return from it either (R136). -/
def State.raise (s : State) (e : ErrCode) : State := s.finish e .ok

/-- ILLEGAL_CMD: a CMD write whose word is no command (60_exceptions.md R126). -/
def State.illegalCommand (s : State) : State := s.raise .illegalCmd

end Sys2Proof.Machine
end

