-- ==== Sys2Proof/Machine/Flags.lean ====
section
/-! DEFINITION. The codes of STATUS and its 32 bits (spec/10_state.md R24). The block has no other flag
or condition code (R37). -/

namespace Sys2Proof.Machine

/-- The codes of STATUS.ERR (10_state.md R24; 60_exceptions.md R126 to R130). -/
def ErrCode.code : ErrCode → BitVec 4
  | .none => 0
  | .illegalCmd => 1
  | .notInit => 2
  | .region => 3
  | .overlap => 4
  | .dstFull => 5

/-- The codes of STATUS.OUTCOME (10_state.md R24; 60_exceptions.md R131, R132). -/
def OutCode.code : OutCode → BitVec 4
  | .ok => 0
  | .malformedEncoding => 1
  | .consumed => 2
  | .frameReady => 3
  | .overflow => 4
  | .decodeFailed => 5

/-- STATUS as the host reads it: ERR in 3:0, OUTCOME in 11:8, ACC_VALID in 16, the rest 0
(10_state.md R24). -/
def Status.word (s : Status) : Word :=
  (0 : BitVec 15) ++ BitVec.ofBool s.accValid ++ (0 : BitVec 4) ++ s.outcome.code ++ (0 : BitVec 4) ++ s.err.code

end Sys2Proof.Machine
end

