-- ==== Sys2Proof/Machine/Operands.lean ====
section
/-! DEFINITION. The operands of the commands (spec/30_encoding.md R61), the checks made before any
memory access, in their order (60_exceptions.md R134), and the memory each command may touch
(20_memory.md R45). -/

namespace Sys2Proof.Machine

/-- `[SRC_ADDR, SRC_ADDR + SRC_LEN)`: payload, encoded input or chunk (10_state.md R25). -/
def Regs.srcRegion (r : Regs) : Region := { base := r.srcAddr, len := r.srcLen }

/-- `[DST_ADDR, DST_ADDR + DST_CAP)`: destination, or the buffer ACC_INIT binds (10_state.md R26). -/
def Regs.dstRegion (r : Regs) : Region := { base := r.dstAddr, len := r.dstCap }

/-- `[ACC_BASE, ACC_BASE + ACC_CAP)`: the working buffer (10_state.md R29, R30). -/
def Regs.bufRegion (r : Regs) : Region := { base := r.accBase, len := r.accCap }

/-- REGION, then OVERLAP, for ENCODE and DECODE_RAW (40_encoder.md R67, 41_decoder.md R86). -/
def transformCheck (r : Regs) : Option ErrCode :=
  if !(r.srcRegion.wellFormed && r.dstRegion.wellFormed) then some .region
  else if r.srcRegion.overlaps r.dstRegion then some .overlap
  else none

/-- REGION for ACC_INIT (42_accumulator.md R100). -/
def initCheck (r : Regs) : Option ErrCode :=
  if r.dstRegion.wellFormed then none else some .region

/-- NOT_INIT for ACC_RESET (42_accumulator.md R101). -/
def resetCheck (r : Regs) : Option ErrCode :=
  if r.status.accValid then none else some .notInit

/-- NOT_INIT, REGION, OVERLAP for ACC_APPEND (42_accumulator.md R103). "The working buffer's own region
was checked by ACC_INIT." -/
def appendCheck (r : Regs) : Option ErrCode :=
  if !r.status.accValid then some .notInit
  else if !r.srcRegion.wellFormed then some .region
  else if r.srcRegion.overlaps r.bufRegion then some .overlap
  else none

/-- The check each command makes before its first memory access. -/
def commandCheck (i : Instr) (r : Regs) : Option ErrCode :=
  match i with
  | .encode => transformCheck r
  | .decodeRaw => transformCheck r
  | .accInit => initCheck r
  | .accReset => resetCheck r
  | .accAppend => appendCheck r

/-- The regions each command may touch once its checks have passed: source and destination, chunk and
working buffer, or nothing (20_memory.md R45). An ACC_APPEND of an empty chunk makes "no memory access"
(42_accumulator.md R104; log 7). -/
def accessRegions (i : Instr) (r : Regs) : List Region :=
  match i with
  | .encode => [r.srcRegion, r.dstRegion]
  | .decodeRaw => [r.srcRegion, r.dstRegion]
  | .accInit => []
  | .accReset => []
  | .accAppend => if r.srcLen.toNat = 0 then [] else [r.srcRegion, r.bufRegion]

/-- The write footprint of each command (20_memory.md R45). "A command that ends with ERR ∈
(ILLEGAL_CMD, NOT_INIT, REGION, OVERLAP) touches no memory", so a refused command has none. -/
def writeFootprint (i : Instr) (r : Regs) : Option Region :=
  match commandCheck i r with
  | some _ => none
  | none =>
    match i with
    | .encode => some r.dstRegion
    | .decodeRaw => some r.dstRegion
    | .accInit => none
    | .accReset => none
    | .accAppend => some r.bufRegion

end Sys2Proof.Machine
end

