-- ==== Sys2Proof/Machine/Transforms.lean ====
section
/-! DEFINITION. The pure functions that carry the transform semantics (spec/00_scope.md R12): `Stuff` and
`Encode` (40_encoder.md R77, R78), `DecodeRaw` (41_decoder.md R95), `Append` (42_accumulator.md R118), and
the accumulator fed chunk by chunk (R120). The spec's recursions remove at least one byte a call; here they
run on fuel, one unit more than the length, so that they are structural. The commands do not use them:
they are state machines of their own, and the statements say the two agree. -/

namespace Sys2Proof.Cobs

/-- "The longest prefix of `P` containing no 0x00 byte, cut to at most 254 bytes" (40_encoder.md R77). -/
def blockData (P : List Byte) : List Byte :=
  (P.takeWhile fun b => b != 0x00).take 254

/-- `Stuff(P)` on fuel (40_encoder.md R77). -/
def stuffFuel : Nat → List Byte → List Byte
  | 0, _ => []
  | fuel + 1, P =>
    let D := blockData P
    let k := D.length
    let R := P.drop k
    if k = 254 then
      if R = [] then [0xFF] ++ D else [0xFF] ++ D ++ stuffFuel fuel R
    else
      if R = [] then [BitVec.ofNat 8 (k + 1)] ++ D
      else [BitVec.ofNat 8 (k + 1)] ++ D ++ stuffFuel fuel (R.drop 1)

/-- `Stuff(P)`, the zero-free encoding of a payload (40_encoder.md R77). -/
def stuff (P : List Byte) : List Byte := stuffFuel (P.length + 1) P

/-- `Encode(P) = Stuff(P) ++ [00]` (40_encoder.md R78). -/
def encodeOut (P : List Byte) : List Byte := stuff P ++ [0x00]

/-- The number of blocks of a payload closed by code 0xFF that are followed by at least one more payload
byte, `B` of 40_encoder.md R80, on fuel. -/
def chainedFuel : Nat → List Byte → Nat
  | 0, _ => 0
  | fuel + 1, P =>
    let k := (blockData P).length
    let R := P.drop k
    if R = [] then 0
    else if k = 254 then 1 + chainedFuel fuel R
    else chainedFuel fuel (R.drop 1)

/-- `B` of 40_encoder.md R80. -/
def chainedBlocks (P : List Byte) : Nat := chainedFuel (P.length + 1) P

/-- The decoder's status (41_decoder.md R87). -/
inductive DecStatus where
  | ok | malformed
deriving DecidableEq, Repr

/-- `Blocks(B, prev)` on fuel (41_decoder.md R95). -/
def blocksFuel : Nat → List Byte → Option Byte → DecStatus × List Byte
  | 0, _, _ => (.malformed, [])
  | _ + 1, [], _ => (.malformed, [])
  | fuel + 1, c :: T, prev =>
    let Z : List Byte := if prev ≠ none ∧ prev ≠ some 0xFF then [0x00] else []
    if T.length < c.toNat - 1 then (.malformed, Z ++ T)
    else
      let D := T.take (c.toNat - 1)
      let R := T.drop (c.toNat - 1)
      if R = [] ∨ R.head? = some 0x00 then (.ok, Z ++ D)
      else
        let rest := blocksFuel fuel R (some c)
        (rest.1, Z ++ D ++ rest.2)

/-- `Blocks(B, prev)` (41_decoder.md R95). -/
def blocks (B : List Byte) (prev : Option Byte) : DecStatus × List Byte := blocksFuel (B.length + 1) B prev

/-- `DecodeRaw(B)` (41_decoder.md R95). -/
def decodeRaw (B : List Byte) : DecStatus × List Byte :=
  match B with
  | [] => (.ok, [])
  | b :: _ => if b = 0x00 then (.malformed, []) else blocks B none

/-- What `Append` gives (42_accumulator.md R118): the buffered bytes after it, the outcome, the frame and
the remainder. -/
structure Appended where
  buffered : List Byte
  outcome : Machine.OutCode
  frame : List Byte
  remainder : List Byte
deriving DecidableEq, Repr

/-- "The least k with c[k] == 0x00", if there is one (42_accumulator.md R105, R118). -/
def delimiterOffset (c : List Byte) : Option Nat := c.findIdx? fun b => b == 0x00

/-- `Append(W, cap, c)` (42_accumulator.md R118). -/
def appendStep (W : List Byte) (cap : Nat) (c : List Byte) : Appended :=
  if c = [] then { buffered := W, outcome := .consumed, frame := [], remainder := [] }
  else
    match delimiterOffset c with
    | none =>
      if W.length + c.length < cap then
        { buffered := W ++ c, outcome := .consumed, frame := [], remainder := [] }
      else { buffered := [], outcome := .overflow, frame := [], remainder := c }
    | some d =>
      let rem := c.drop (d + 1)
      if W.length + d < cap then
        let out := decodeRaw (W ++ c.take d)
        match out.1 with
        | .ok => { buffered := [], outcome := .frameReady, frame := out.2, remainder := rem }
        | .malformed => { buffered := [], outcome := .decodeFailed, frame := [], remainder := rem }
      else { buffered := [], outcome := .overflow, frame := [], remainder := rem }

/-- Chunks appended one after the other (42_accumulator.md R120): what each `Append` gave, in order, with
the buffered bytes carried from one to the next. -/
def appendAll (cap : Nat) : List Byte → List (List Byte) → List Appended
  | _, [] => []
  | W, c :: cs =>
    let r := appendStep W cap c
    r :: appendAll cap r.buffered cs

end Sys2Proof.Cobs
end

