-- ==== Sys2Proof/Machine/Decoder.lean ====
section
/-! DEFINITION. DECODE_RAW: the decoder unit's state machine as spec/41_decoder.md R87 gives it, over the
data port, and the command's meaning. ACC_APPEND runs the same unit (42_accumulator.md R111). -/

namespace Sys2Proof.Machine

/-- The decoder unit's internal registers (10_state.md R35): the code of the block in progress, the data
bytes it still owes, and the next output offset. The input cursor `i` is the loop's own argument. -/
structure DecRegs where
  code : Byte
  block : Byte
  o : Nat
deriving DecidableEq, Repr

/-- "The decoder starts with `code = 0xFF`, `block = 0`, `o = 0`" (41_decoder.md R88). -/
def DecRegs.start : DecRegs := { code := 0xFF, block := 0, o := 0 }

/-- The implicit zero before a new block, unless the previous code was 255 (41_decoder.md R91). -/
def decImplicitZero {φ : Type} (out : Nat → Byte → DataPort → Run φ Unit) (b : Byte) (r : DecRegs) (p : DataPort) :
    Run φ Nat :=
  if b ≠ 0x00 ∧ r.code ≠ Config.chainCode then
    (out r.o 0x00 p).bind fun _ p => .ok (r.o + 1) p
  else .ok r.o p

/-- The scan: `left` input bytes remain, the next at offset `i`. A data byte is copied verbatim (R90), a
code byte opens a block or stops the decoder (R91), and a block still owed at the end is MALFORMED (R92)
(41_decoder.md). -/
def decLoop {φ : Type} (inp : Nat → DataPort → Run φ Byte) (out : Nat → Byte → DataPort → Run φ Unit) :
    (left i : Nat) → DecRegs → DataPort → Run φ (Cobs.DecStatus × Nat)
  | 0, _, r, p => .ok (if r.block ≠ 0 then .malformed else .ok, r.o) p
  | left + 1, i, r, p =>
    (inp i p).bind fun b p =>
      if r.block ≠ 0 then
        (out r.o b p).bind fun _ p =>
          decLoop inp out left (i + 1) { r with block := r.block - 1, o := r.o + 1 } p
      else
        (decImplicitZero out b r p).bind fun o p =>
          if b = 0x00 then .ok (.ok, o) p
          else decLoop inp out left (i + 1) { code := b, block := b - 1, o := o } p

/-- `L > 0 and In(0) == 0x00`: the check of 41_decoder.md R89, which may read `In(0)` a first time. -/
def decLeadingZero {φ : Type} (inp : Nat → DataPort → Run φ Byte) (len : Nat) (p : DataPort) : Run φ Bool :=
  if 0 < len then (inp 0 p).bind fun b p => .ok (decide (b = 0x00)) p else .ok false p

/-- `RunDecoder(L, In, Out)` (41_decoder.md R87). -/
def runDecoder {φ : Type} (len : Nat) (inp : Nat → DataPort → Run φ Byte) (out : Nat → Byte → DataPort → Run φ Unit)
    (p : DataPort) : Run φ (Cobs.DecStatus × Nat) :=
  (decLeadingZero inp len p).bind fun zero p =>
    if zero then .ok (.malformed, 0) p else decLoop inp out len 0 DecRegs.start p

/-- The decoder unit from a source region to a destination region (41_decoder.md R85). -/
def runDecodeRaw (src dst : Region) (p : DataPort) : Run Unit (Cobs.DecStatus × Nat) :=
  runDecoder src.len.toNat (fun k => memRead (src.base.toNat + k)) (outByte dst) p

/-- DECODE_RAW (41_decoder.md R85). -/
def execDecodeRaw (s : State) : Host.Outcome State Fault Refusal :=
  match transformCheck s.regs with
  | some e => .next (s.raise e)
  | none =>
    if s.port.platform.namesDevice (accessRegions .decodeRaw s.regs) then .refused .sideEffectRegion
    else
      match runDecodeRaw s.regs.srcRegion s.regs.dstRegion s.port with
      | .ok (.ok, o) p => .next { s with port := p, regs := (s.regs.setResLen o).finish .none .ok }
      | .ok (.malformed, _) p =>
        .next { s with port := p.unspecifiedRegion s.regs.dstRegion
                       regs := (s.regs.setResLen 0).finish .none .malformedEncoding }
      | .full _ p =>
        .next { s with port := p.unspecifiedRegion s.regs.dstRegion
                       regs := (s.regs.setResLen 0).finish .dstFull .ok }
      | .stop f => .fault f

end Sys2Proof.Machine
end

