-- ==== Sys2Proof/Machine/Accumulator.lean ====
section
/-! DEFINITION. ACC_INIT, ACC_RESET and ACC_APPEND (spec/42_accumulator.md R100 to R117). -/

namespace Sys2Proof.Machine

/-- ACC_INIT (42_accumulator.md R100). It touches no memory. -/
def execAccInit (s : State) : Host.Outcome State Fault Refusal :=
  match initCheck s.regs with
  | some e => .next (s.raise e)
  | none => .next { s with regs := (s.regs.bindBuffer s.regs.dstAddr s.regs.dstCap).finish .none .ok }

/-- ACC_RESET (42_accumulator.md R101). It touches no memory. -/
def execAccReset (s : State) : Host.Outcome State Fault Refusal :=
  match resetCheck s.regs with
  | some e => .next (s.raise e)
  | none => .next { s with regs := (s.regs.setIdx 0).finish .none .ok }

/-- The offset of the first delimiter of the chunk, reading in ascending order and no further
(42_accumulator.md R105). `left` chunk bytes remain, the next at offset `k`. -/
def findDelimiter (src : Region) : (left k : Nat) → DataPort → Run Empty (Option Nat)
  | 0, _, p => .ok none p
  | left + 1, k, p =>
    (memRead (src.base.toNat + k) p).bind fun b p =>
      if b = Config.delimiter then .ok (some k) p else findDelimiter src left (k + 1) p

/-- The copy of chunk bytes to the working buffer at address `target` up, in ascending order
(42_accumulator.md R107). `left` bytes remain, the next at offset `k`. -/
def copyChunk (src : Region) (target : Nat) : (left k : Nat) → DataPort → Run Empty Unit
  | 0, _, p => .ok () p
  | left + 1, k, p =>
    (memRead (src.base.toNat + k) p).bind fun b p =>
      (memWrite (target + k) b p).bind fun _ p => copyChunk src target left (k + 1) p

/-- The decoder unit over the working buffer, its output written over its input (42_accumulator.md
R111). -/
def decodeInPlace (base m : Nat) (p : DataPort) : Run Empty (Cobs.DecStatus × Nat) :=
  runDecoder m (fun k => memRead (base + k)) (fun k v => memWrite (base + k) v) p

/-- How ACC_APPEND ends without a delimiter, or with the bytes before it not fitting: registers and
remainder (42_accumulator.md R108, R109, R110). -/
def State.endAppend (s : State) (p : DataPort) (idx res remAddr remLen : Nat) (o : OutCode) : State :=
  { s with port := (remAddrOf remAddr p).2
           regs := (((s.regs.setIdx idx).setResLen res).setRem (remAddrOf remAddr p).1 remLen).finish .none o }

/-- ACC_APPEND on a chunk without a delimiter (42_accumulator.md R106 to R109). -/
def appendWhole (s : State) (p : DataPort) : Host.Outcome State Fault Refusal :=
  let src := s.regs.srcRegion
  let a := src.base.toNat
  let len := src.len.toNat
  let idx := s.regs.accIdx.toNat
  if idx + len < s.regs.accCap.toNat then
    match copyChunk src (s.regs.accBase.toNat + idx) len 0 p with
    | .ok _ p => .next (s.endAppend p (idx + len) 0 (a + len) 0 .consumed)
    | .stop f => .fault f
  else .next (s.endAppend p 0 0 a len .overflow)

/-- The buffered block of `m` bytes is decoded in place and the accumulator emptied
(42_accumulator.md R111, R112, R113). -/
def appendDecode (s : State) (m remAddr remLen : Nat) (p : DataPort) : Host.Outcome State Fault Refusal :=
  let base := s.regs.accBase.toNat
  match decodeInPlace base m p with
  | .ok (.ok, o) p => .next (s.endAppend (p.unspecified (base + o) (m - o)) 0 o remAddr remLen .frameReady)
  | .ok (.malformed, _) p => .next (s.endAppend (p.unspecified base m) 0 0 remAddr remLen .decodeFailed)
  | .stop f => .fault f

/-- ACC_APPEND on a chunk with its first delimiter at offset `d` (42_accumulator.md R106, R107, R110 to
R113, R115). -/
def appendDelimited (s : State) (d : Nat) (p : DataPort) : Host.Outcome State Fault Refusal :=
  let src := s.regs.srcRegion
  let remAddr := src.base.toNat + d + 1
  let remLen := src.len.toNat - d - 1
  let idx := s.regs.accIdx.toNat
  if idx + d < s.regs.accCap.toNat then
    match copyChunk src (s.regs.accBase.toNat + idx) d 0 p with
    | .ok _ p => appendDecode s (idx + d) remAddr remLen p
    | .stop f => .fault f
  else .next (s.endAppend p 0 0 remAddr remLen .overflow)

/-- ACC_APPEND (42_accumulator.md R102). An empty chunk is CONSUMED with no state change (R104). -/
def execAccAppend (s : State) : Host.Outcome State Fault Refusal :=
  match appendCheck s.regs with
  | some e => .next (s.raise e)
  | none =>
    let src := s.regs.srcRegion
    if src.len.toNat = 0 then
      .next (s.endAppend s.port s.regs.accIdx.toNat 0 src.base.toNat 0 .consumed)
    else if s.port.platform.namesDevice (accessRegions .accAppend s.regs) then .refused .sideEffectRegion
    else
      match findDelimiter src src.len.toNat 0 s.port with
      | .ok none p => appendWhole s p
      | .ok (some d) p => appendDelimited s d p
      | .stop f => .fault f

end Sys2Proof.Machine
end

