-- ==== Sys2Proof/Machine/Encoder.lean ====
section
/-! DEFINITION. ENCODE: the encoder unit's state machine as spec/40_encoder.md R66 gives it, over the
data port, and the command's meaning. -/

namespace Sys2Proof.Machine

/-- The encoder unit's internal registers (10_state.md R34): the code counter, the offset of the pending
code byte and the next free output offset. The payload cursor `i` is the loop's own argument. -/
structure EncRegs where
  code : Byte
  cp : Nat
  o : Nat
deriving DecidableEq, Repr

/-- "The encoder starts with `code = 1`, `cp = 0`, `o = 1`" (40_encoder.md R68). -/
def EncRegs.start : EncRegs := { code := 1, cp := 0, o := 1 }

/-- A non-zero payload byte is copied and counted; a zero byte is not written (40_encoder.md R70). -/
def encCopy (dst : Region) (b : Byte) (r : EncRegs) (p : DataPort) : Run Unit EncRegs :=
  if b ≠ 0x00 then
    (outByte dst r.o b p).bind fun _ p => .ok { r with o := r.o + 1, code := r.code + 1 } p
  else .ok r p

/-- A zero byte, or the code reaching 255, closes the block: the code is written at the reserved offset,
and the next one is reserved "only if `b = 0x00` or at least one payload byte remains"
(40_encoder.md R71). -/
def encClose (dst : Region) (b : Byte) (more : Bool) (r : EncRegs) (p : DataPort) : Run Unit EncRegs :=
  if b = 0x00 ∨ r.code = 255 then
    (outByte dst r.cp r.code p).bind fun _ p =>
      .ok { code := 1, cp := r.o, o := if b = 0x00 ∨ more then r.o + 1 else r.o } p
  else .ok r p

/-- The scan: `left` payload bytes remain, the next at offset `i`; each is read once, in ascending
order (40_encoder.md R69). -/
def encLoop (src dst : Region) : (left i : Nat) → EncRegs → DataPort → Run Unit EncRegs
  | 0, _, r, p => .ok r p
  | left + 1, i, r, p =>
    (memRead (src.base.toNat + i) p).bind fun b p =>
      (encCopy dst b r p).bind fun r p =>
        (encClose dst b (decide (0 < left)) r p).bind fun r p =>
          encLoop src dst left (i + 1) r p

/-- The final code, written only where a slot is reserved (40_encoder.md R72). -/
def encFinalCode (dst : Region) (r : EncRegs) (p : DataPort) : Run Unit Unit :=
  if r.cp < r.o then outByte dst r.cp r.code p else .ok () p

/-- The whole state machine; it gives the number of bytes written, sentinel included
(40_encoder.md R66, R73, R75). -/
def runEncoder (src dst : Region) (p : DataPort) : Run Unit Nat :=
  (encLoop src dst src.len.toNat 0 EncRegs.start p).bind fun r p =>
    (encFinalCode dst r p).bind fun _ p =>
      (outByte dst r.o Config.delimiter p).bind fun _ p => .ok (r.o + 1) p

/-- ENCODE (40_encoder.md R66). Operands are read at the start, registers written at the end
(30_encoding.md R61). -/
def execEncode (s : State) : Host.Outcome State Fault Refusal :=
  match transformCheck s.regs with
  | some e => .next (s.raise e)
  | none =>
    if s.port.platform.namesDevice (accessRegions .encode s.regs) then .refused .sideEffectRegion
    else
      match runEncoder s.regs.srcRegion s.regs.dstRegion s.port with
      | .ok n p => .next { s with port := p, regs := (s.regs.setResLen n).finish .none .ok }
      | .full _ p =>
        .next { s with port := p.unspecifiedRegion s.regs.dstRegion
                       regs := (s.regs.setResLen 0).finish .dstFull .ok }
      | .stop f => .fault f

end Sys2Proof.Machine
end

