-- ==== Sys2Proof/Machine/Dispatch.lean ====
section
/-! DEFINITION. One arm per command: the meaning each CMD word selects (spec/30_encoding.md R59). -/

namespace Sys2Proof.Machine

def exec (i : Instr) (s : State) : Host.Outcome State Fault Refusal :=
  match i with
  | .encode => Sys2Proof.Machine.execEncode s
  | .decodeRaw => Sys2Proof.Machine.execDecodeRaw s
  | .accInit => Sys2Proof.Machine.execAccInit s
  | .accReset => Sys2Proof.Machine.execAccReset s
  | .accAppend => Sys2Proof.Machine.execAccAppend s

end Sys2Proof.Machine
end

