-- ==== Sys2Proof/Machine/Window.lean ====
section
/-! DEFINITION. The register window as the host sees it (spec/10_state.md R22 to R31; 30_encoding.md R56,
R57), and what a write of CMD does (10_state.md R23): the command runs to completion, an illegal word is
reported (30_encoding.md R60). With it, the two disturbed forms of a CMD write: hardware reset asserted
during the command (70_reset_and_hazards.md R147) and another agent in the command's regions
(20_memory.md R52). -/

namespace Sys2Proof.Machine

/-- The register at an offset (10_state.md R22); none at a reserved offset, 0x30 to 0xFC. -/
def RegName.ofOffset (off : BitVec 8) : Option RegName :=
  match off.toNat with
  | 0x00 => some .cmd
  | 0x04 => some .status
  | 0x08 => some .srcAddr
  | 0x0C => some .srcLen
  | 0x10 => some .dstAddr
  | 0x14 => some .dstCap
  | 0x18 => some .resLen
  | 0x1C => some .remAddr
  | 0x20 => some .remLen
  | 0x24 => some .accBase
  | 0x28 => some .accCap
  | 0x2C => some .accIdx
  | _ => none

/-- What a register reads as; "A read of CMD returns 0x00000000" (30_encoding.md R57; 10_state.md R23). -/
def Regs.read (r : Regs) : RegName → Word
  | .cmd => 0
  | .status => r.status.word
  | .srcAddr => r.srcAddr
  | .srcLen => r.srcLen
  | .dstAddr => r.dstAddr
  | .dstCap => r.dstCap
  | .resLen => r.resLen
  | .remAddr => r.remAddr
  | .remLen => r.remLen
  | .accBase => r.accBase
  | .accCap => r.accCap
  | .accIdx => r.accIdx

/-- A 32-bit read at an offset: "A host read of a reserved offset returns 0x00000000" (30_encoding.md
R57). -/
def Regs.readOffset (r : Regs) (off : BitVec 8) : Word :=
  match RegName.ofOffset off with
  | some n => r.read n
  | none => 0

/-- A 32-bit write of a register other than CMD: the four operand registers take all 32 bits
(10_state.md R25, R26); a write of a read-only register is ignored (30_encoding.md R57). CMD holds no
value (10_state.md R23). -/
def Regs.write (r : Regs) (n : RegName) (v : Word) : Regs :=
  match n with
  | .srcAddr => { r with srcAddr := v }
  | .srcLen => { r with srcLen := v }
  | .dstAddr => { r with dstAddr := v }
  | .dstCap => { r with dstCap := v }
  | .cmd => r
  | .status => r
  | .resLen => r
  | .remAddr => r
  | .remLen => r
  | .accBase => r
  | .accCap => r
  | .accIdx => r

/-- A write of CMD executes the command the word selects, to completion (10_state.md R23); any other
word ends with ILLEGAL_CMD (30_encoding.md R60; 60_exceptions.md R126). -/
def writeCmd (w : Word) (s : State) : Host.Outcome State Fault Refusal :=
  match decode (wordBytes w) with
  | .instr i => exec i s
  | .rejected _ => .next s.illegalCommand

/-- The bytes of a command's write footprint become unspecified (20_memory.md R52;
70_reset_and_hazards.md R147). -/
def State.clobberFootprint (s : State) (f : Option Region) : State :=
  match f with
  | some r => { s with port := s.port.unspecifiedRegion r }
  | none => s

/-- Begin and end the time in which another agent touches the command's regions (log 9). -/
def State.setRaced (s : State) (b : Bool) : State := { s with port := { s.port with raced := b } }

/-- A CMD write during which another agent touches the command's regions (20_memory.md R52): the command
runs on reads that may return any byte, and its write footprint is unspecified at the end (log 9). -/
def writeCmdRaced (w : Word) (s : State) : Host.Outcome State Fault Refusal :=
  match decode (wordBytes w) with
  | .instr i =>
    match exec i (s.setRaced true) with
    | .next t => .next ((t.clobberFootprint (writeFootprint i s.regs)).setRaced false)
    | .fault f => .fault f
    | .refused e => .refused e
  | .rejected _ => .next s.illegalCommand

/-- A CMD write during which hardware reset is asserted: "the command is abandoned: the registers take
their reset values, and every byte of the command's write footprint holds an unspecified value"
(70_reset_and_hazards.md R147). A command that its checks refuse touches no memory (20_memory.md R45;
log 10). -/
def writeCmdReset (w : Word) (s : State) : Host.Outcome State Fault Refusal :=
  match decode (wordBytes w) with
  | .instr i =>
    if (commandCheck i s.regs).isNone && s.port.platform.namesDevice (accessRegions i s.regs) then
      .refused .sideEffectRegion
    else .next (s.clobberFootprint (writeFootprint i s.regs)).hardReset
  | .rejected _ => .next s.hardReset

/-- A 32-bit write at an offset of the window (30_encoding.md R57): CMD executes, a register is written,
a reserved offset ignores it. -/
def writeOffset (off : BitVec 8) (v : Word) (s : State) : Host.Outcome State Fault Refusal :=
  match RegName.ofOffset off with
  | some .cmd => writeCmd v s
  | some n => .next { s with regs := s.regs.write n v }
  | none => .next s

end Sys2Proof.Machine
end

