-- ==== Sys2Proof/Machine/HostBus.lean ====
section
/-! DEFINITION. The host's transactions, one at a time (spec/30_encoding.md R56, R57, R63;
20_memory.md R39, R51, R54; 70_reset_and_hazards.md R145). The host performs none while its CMD write is in
progress (00_scope.md R5), so each is one step (log 1). -/

namespace Sys2Proof.Machine

/-- The value the host last read from the register at an offset, newest first (30_encoding.md R63). -/
def lastReadOf (off : BitVec 8) : List Seen → Option Word
  | [] => none
  | .reg o v :: rest => if o = off then some v else lastReadOf off rest
  | .mem _ _ :: rest => lastReadOf off rest

/-- The number a host value stands for (30_encoding.md R63). The spec gives none to `(NAME)` before any
read of NAME: it is then a free value (DESIGN CHOICE, safe, log 11). -/
def HostVal.resolve (v : HostVal) (s : State) : Word × State :=
  match v with
  | .lit w => (w, s)
  | .lastRead n =>
    match lastReadOf n.offset s.seen with
    | some w => (w, s)
    | none => (s.port.drawWord.1, { s with port := s.port.drawWord.2 })

/-- The first of `n` addresses from `a` whose access the platform does not complete. -/
def firstHole (pl : Platform) (a : Nat) : Nat → Option Nat
  | 0 => none
  | n + 1 => if pl.admits a then firstHole pl (a + 1) n else some a

/-- A host access to `n` bytes of data memory from `a` up, before it is performed: outside the address
space it faults, at an address the memory does not complete it is stuck (00_scope.md R8; log 6), and in
side-effect memory the spec does not say what it does (20_memory.md R48; log 7). -/
def hostAccess (a : Word) (n : Nat) (s : State) (done : State) : Host.Outcome State Fault Refusal :=
  if rangeInMemory a n then
    match firstHole s.port.platform a.toNat n with
    | some h => .fault (.stuck h)
    | none =>
      if s.port.platform.deviceIn a.toNat n then .refused .sideEffectRegion else .next done
  else .fault (.outsideMemory a.toNat)

/-- A host write of the register window (30_encoding.md R56, R57). -/
def hostWrite (width : Nat) (off : BitVec 8) (v : HostVal) (s : State) : Host.Outcome State Fault Refusal :=
  if accessDefined width off then writeOffset off (v.resolve s).1 (v.resolve s).2
  else .refused .unsupportedAccess

/-- A host read of the register window: the value is recorded and nothing else changes
(30_encoding.md R56, R57). -/
def hostRead (width : Nat) (off : BitVec 8) (s : State) : Host.Outcome State Fault Refusal :=
  if accessDefined width off then .next { s with seen := .reg off (s.regs.readOffset off) :: s.seen }
  else .refused .unsupportedAccess

/-- A host store to data memory (20_memory.md R39, R54; 30_encoding.md R63 `MEM`). -/
def hostStore (a : Word) (bytes : List Byte) (s : State) : Host.Outcome State Fault Refusal :=
  hostAccess a bytes.length s { s with port := s.port.putBytes a.toNat bytes }

/-- A host read of data memory; "It is not an access to the block" (30_encoding.md R63 `MEMRD`). -/
def hostLoad (a : Word) (n : Nat) (s : State) : Host.Outcome State Fault Refusal :=
  hostAccess a n s { s with seen := .mem a (s.port.bytesAt a.toNat n) :: s.seen }

/-- One transaction. -/
def runHost (op : HostOp) (s : State) : Host.Outcome State Fault Refusal :=
  match op with
  | .write width off v => hostWrite width off v s
  | .read width off => hostRead width off s
  | .store a bytes => hostStore a bytes s
  | .load a n => hostLoad a n s
  | .reset => .next s.hardReset
  | .cmdReset v => writeCmdReset (v.resolve s).1 (v.resolve s).2
  | .cmdRaced v => writeCmdRaced (v.resolve s).1 (v.resolve s).2

/-- The block's next event: the oldest pending transaction; with none, "it is idle and holds its
registers" (60_exceptions.md R144). -/
def nextEvent (s : State) : Host.Outcome State Fault Refusal :=
  match s.pending with
  | [] => .next s
  | op :: rest => runHost op { s with pending := rest }

/-- The transaction that writes a command word to CMD (30_encoding.md R63 `CMD`). -/
def cmdWrite (w : Word) : HostOp := .write 4 RegName.cmd.offset (.lit w)

end Sys2Proof.Machine
end

