-- ==== Sys2Proof/Machine/Step.lean ====
section
/-! DEFINITION. One step of the machine: one transaction of the host (spec/00_scope.md R5, R16), a whole
command when it writes CMD (10_state.md R23). The block has no program counter and fetches no
instructions (R21): a command word comes from the head of the pending transactions. -/

namespace Sys2Proof.Machine

/-- One step: the host's next transaction, or idle. -/
def step (s : State) : Host.Outcome State Fault Refusal := nextEvent s

/-- The state with a CMD write of the word given as the host's next transaction (log 1). -/
def State.withFetchWord (s : State) (nbits w : Nat) : State :=
  { s with pending := cmdWrite (BitVec.ofNat 32 (w % 2 ^ nbits)) :: s.pending }

end Sys2Proof.Machine
end

