-- ==== Sys2Proof/Machine/HostAsm.lean ====
section
/-! DEFINITION. The host assembler of spec/30_encoding.md R63 and its pseudo-instructions (R64), as the
transactions they stand for. The host's control flow between them (R65) is not the block's. -/

namespace Sys2Proof.Machine

/-- A statement of a host program (30_encoding.md R63). -/
inductive Stmt where
  | wr (r : RegName) (v : HostVal)
  | rd (r : RegName)
  | cmd (i : Instr)
  | mem (addr : Word) (bytes : List Byte)
  | memrd (addr : Word) (n : Nat)
deriving DecidableEq, Repr

/-- A pseudo-instruction (30_encoding.md R64). -/
inductive Pseudo where
  | encode (s l d c : HostVal)
  | decodeRaw (s l d c : HostVal)
  | accInit (b c : HostVal)
  | accReset
  | append (s l : HostVal)
  | resubmit
deriving DecidableEq, Repr

/-- The transaction a statement stands for: `WR NAME, v` is (offset of NAME, `v`), `CMD MNEMONIC` is
`WR CMD, w` with MNEMONIC's word (30_encoding.md R63). -/
def Stmt.assemble : Stmt → HostOp
  | .wr r v => .write 4 r.offset v
  | .rd r => .read 4 r.offset
  | .cmd i => cmdWrite (Sys2Proof.encode i)
  | .mem a bytes => .store a bytes
  | .memrd a n => .load a n

/-- "Pseudo-instructions and their expansions, in order" (30_encoding.md R64). -/
def Pseudo.expand : Pseudo → List Stmt
  | .encode s l d c => [.wr .srcAddr s, .wr .srcLen l, .wr .dstAddr d, .wr .dstCap c, .cmd .encode]
  | .decodeRaw s l d c => [.wr .srcAddr s, .wr .srcLen l, .wr .dstAddr d, .wr .dstCap c, .cmd .decodeRaw]
  | .accInit b c => [.wr .dstAddr b, .wr .dstCap c, .cmd .accInit]
  | .accReset => [.cmd .accReset]
  | .append s l => [.wr .srcAddr s, .wr .srcLen l, .cmd .accAppend]
  | .resubmit =>
    [.rd .remAddr, .rd .remLen, .wr .srcAddr (.lastRead .remAddr), .wr .srcLen (.lastRead .remLen),
      .cmd .accAppend]

/-- The transactions of a pseudo-instruction. -/
def Pseudo.assemble (p : Pseudo) : List HostOp := p.expand.map Stmt.assemble

end Sys2Proof.Machine
end

