-- ==== Sys2Proof/Safety.lean ====
section
/-! DEFINITION. The terms claims about the block are stated in: the invariant of every state a run reaches,
when a command can run to its end, what a command can end with (spec/30_encoding.md R62), which registers it
writes (R61), and which host transactions start a command (10_state.md R23). -/

namespace Sys2Proof.Machine

/-! ### The invariant -/

/-- The accumulator's registers: the working buffer lies in data memory (42_accumulator.md R100), the
cursor stays below the capacity (10_state.md R32), and before ACC_INIT all three are 0 (R38). -/
abbrev Regs.BufferInv (r : Regs) : Prop :=
  r.accBase.toNat + r.accCap.toNat ≤ Config.addressSpace ∧
    (1 ≤ r.accCap.toNat → r.accIdx.toNat ≤ r.accCap.toNat - 1) ∧
    (r.accCap.toNat = 0 → r.accIdx.toNat = 0) ∧
    (r.status.accValid = false → r.accBase = 0 ∧ r.accCap = 0 ∧ r.accIdx = 0)

/-- What holds of every state between transactions: canonical memory, the accumulator's registers in
order, and no other agent in a command's regions. -/
abbrev State.Inv (s : State) : Prop :=
  Memory.wf s.port.mem ∧ s.regs.BufferInv ∧ s.port.raced = false

/-! ### When a command can run to its end -/

/-- The platform completes every access to the `n` bytes from `a` up (00_scope.md R8). -/
abbrev DataPort.AdmitsRange (p : DataPort) (a n : Nat) : Prop :=
  ∀ k, k < n → p.platform.admits (a + k) = true

/-- ENCODE and DECODE_RAW pass their checks (40_encoder.md R67, 41_decoder.md R86) and their regions are
plain memory that answers (20_memory.md R43, R44, R48), with no other agent in them (R52). -/
abbrev State.TransformReady (s : State) : Prop :=
  s.regs.srcRegion.wellFormed = true ∧ s.regs.dstRegion.wellFormed = true ∧
    s.regs.srcRegion.overlaps s.regs.dstRegion = false ∧
    s.port.platform.namesDevice [s.regs.srcRegion, s.regs.dstRegion] = false ∧
    s.port.AdmitsRange s.regs.srcAddr.toNat s.regs.srcLen.toNat ∧
    s.port.AdmitsRange s.regs.dstAddr.toNat s.regs.dstCap.toNat ∧
    s.port.raced = false

/-- ACC_APPEND passes its checks (42_accumulator.md R103) and its regions are plain memory that answers
(20_memory.md R43, R44, R48), with no other agent in them (R52). That the working buffer is well-formed is
an invariant of the machine (`Regs.BufferInv`). -/
abbrev State.AppendReady (s : State) : Prop :=
  s.regs.status.accValid = true ∧ s.regs.srcRegion.wellFormed = true ∧
    s.regs.srcRegion.overlaps s.regs.bufRegion = false ∧
    s.regs.bufRegion.wellFormed = true ∧
    s.port.platform.namesDevice [s.regs.srcRegion, s.regs.bufRegion] = false ∧
    s.port.AdmitsRange s.regs.srcAddr.toNat s.regs.srcLen.toNat ∧
    s.port.AdmitsRange s.regs.accBase.toNat s.regs.accCap.toNat ∧
    s.port.raced = false

/-- The bytes of the source region: payload, encoded input or chunk (10_state.md R25). -/
def State.sourceBytes (s : State) : List Byte :=
  s.port.bytesAt s.regs.srcAddr.toNat s.regs.srcLen.toNat

/-- The bytes buffered so far, `[ACC_BASE, ACC_BASE + ACC_IDX)` (42_accumulator.md R117, R118). -/
def State.bufferedBytes (s : State) : List Byte :=
  s.port.bytesAt s.regs.accBase.toNat s.regs.accIdx.toNat

/-! ### What a command leaves alone -/

/-- Only registers, bytes of data memory and the count of free values drawn differ: the platform, the
host's pending transactions and what it has read are as before. -/
def State.OnlyBlockChanged (s t : State) : Prop :=
  t = { s with regs := t.regs, port := { s.port with mem := t.port.mem, draws := t.port.draws } }

/-- Every byte of data memory outside `[a, a + n)` reads as before. -/
def State.SameOutside (s t : State) (a n : Nat) : Prop :=
  ∀ b, b < a ∨ a + n ≤ b → t.port.byteAt b = s.port.byteAt b

/-- Every byte of data memory reads as before. -/
def State.SameMemory (s t : State) : Prop :=
  ∀ b, t.port.byteAt b = s.port.byteAt b

/-- Every byte outside a write footprint reads as before; with no footprint, every byte. -/
def State.SameOutsideFootprint (s t : State) (f : Option Region) : Prop :=
  ∀ b, (∀ r, f = some r → r.contains b = false) → t.port.byteAt b = s.port.byteAt b

/-- REM_ADDR holds `v`, where a 32-bit register can hold it (log 5). -/
def Regs.RemAddrIs (r : Regs) (v : Nat) : Prop :=
  v < 2 ^ 32 → r.remAddr.toNat = v

/-! ### Tables of the spec -/

/-- The (ERR, OUTCOME) pairs each command can end with (30_encoding.md R62). -/
def commandEnds : Instr → List (ErrCode × OutCode)
  | .encode => [(.none, .ok), (.region, .ok), (.overlap, .ok), (.dstFull, .ok)]
  | .decodeRaw =>
    [(.none, .ok), (.none, .malformedEncoding), (.region, .ok), (.overlap, .ok), (.dstFull, .ok)]
  | .accInit => [(.none, .ok), (.region, .ok)]
  | .accReset => [(.none, .ok), (.notInit, .ok)]
  | .accAppend =>
    [(.none, .consumed), (.none, .frameReady), (.none, .overflow), (.none, .decodeFailed),
      (.notInit, .ok), (.region, .ok), (.overlap, .ok)]

/-- The registers each command writes (30_encoding.md R61). -/
def commandWrites : Instr → List RegName
  | .encode => [.status, .resLen]
  | .decodeRaw => [.status, .resLen]
  | .accInit => [.status, .accBase, .accCap, .accIdx]
  | .accReset => [.status, .accIdx]
  | .accAppend => [.status, .resLen, .remAddr, .remLen, .accIdx]

/-- The errors a command is refused with before its first memory access (60_exceptions.md R125). -/
def refusalCodes : List ErrCode := [.illegalCmd, .notInit, .region, .overlap]

/-- The regions each command may read (20_memory.md R45). -/
def commandReads : Instr → Regs → List Region
  | .encode, r => [r.srcRegion]
  | .decodeRaw, r => [r.srcRegion]
  | .accInit, _ => []
  | .accReset, _ => []
  | .accAppend, r => [r.srcRegion, r.bufRegion]

/-! ### Host transactions -/

/-- The transaction writes CMD, in one of its three forms. -/
def HostOp.writesCmd : HostOp → Option HostVal
  | .write 4 0x00 v => some v
  | .cmdReset v => some v
  | .cmdRaced v => some v
  | _ => none

/-- The transaction resets the block (70_reset_and_hazards.md R145, R147). -/
def HostOp.resets : HostOp → Bool
  | .reset => true
  | .cmdReset _ => true
  | _ => false

/-- The same state with another record of the host's transactions. -/
def State.withHost (s : State) (pending : List HostOp) (seen : List Seen) : State :=
  { s with pending := pending, seen := seen }

end Sys2Proof.Machine
end

