-- ==== Sys2Proof/Certificates/Slice0/Obligations.lean ====
section
/-! DEFINITION. The statements about the COBS core, family by family: reset and idling, the register
window, decoding, the shared errors, ENCODE, DECODE_RAW, the accumulator, the pure functions, and the rules
about the whole machine. Each docstring names the rule of spec/ it formalises. -/

open Sys2Proof Sys2Proof.Machine

/-! ### Reset, idling, the invariant -/

/-- 10_state.md R38: after reset every register of the window reads 0x00000000, and STATUS's fields are
NONE, OK and 0. -/
def Obligations.ResetRegistersReadZero : Prop :=
  (∀ n : RegName, State.reset.regs.read n = 0) ∧
    State.reset.regs.status = { err := .none, outcome := .ok, accValid := false }

/-- 70_reset_and_hazards.md R145: hardware reset gives every register its reset value and makes no memory
access; the block then stands as after power-on, with its data port untouched. -/
def Obligations.HardwareResetClearsRegistersOnly : Prop :=
  ∀ (s : State) (rest : List HostOp), s.pending = .reset :: rest →
    ∃ t, step s = .next t ∧ (∀ n : RegName, t.regs.read n = 0) ∧ t.regs = State.reset.regs ∧
      t.port = s.port ∧ t.pending = rest ∧ t.seen = s.seen

/-- 60_exceptions.md R144: between commands the block is idle and holds its registers. -/
def Obligations.IdleBlockHoldsItsState : Prop :=
  ∀ s : State, s.pending = [] → step s = .next s

/-- The reset state meets the invariant (10_state.md R32, R38). -/
def Obligations.ResetMeetsInvariant : Prop := State.reset.Inv

/-- 10_state.md R32 and the canonical form of memory, from every state: whatever transaction comes next,
a step from a state that meets the invariant gives one that meets it. -/
def Obligations.StepKeepsInvariant : Prop :=
  ∀ s t : State, s.Inv → step s = .next t → t.Inv

/-! ### The register window -/

/-- 10_state.md R24: STATUS reads as ERR in 3:0, OUTCOME in 11:8, ACC_VALID in 16, and 0 in the reserved
bits, with the codes of the table. -/
def Obligations.StatusWordLayout : Prop :=
  (∀ st : Status,
    st.word.extractLsb' 0 4 = st.err.code ∧ st.word.extractLsb' 4 4 = 0 ∧
      st.word.extractLsb' 8 4 = st.outcome.code ∧ st.word.extractLsb' 12 4 = 0 ∧
      st.word.getLsbD 16 = st.accValid ∧ st.word.extractLsb' 17 15 = 0) ∧
    [ErrCode.none, .illegalCmd, .notInit, .region, .overlap, .dstFull].map (fun e => e.code.toNat)
      = [0, 1, 2, 3, 4, 5] ∧
    [OutCode.ok, .malformedEncoding, .consumed, .frameReady, .overflow, .decodeFailed].map
      (fun o => o.code.toNat) = [0, 1, 2, 3, 4, 5]

/-- 10_state.md R25, R26: the four operand registers take all 32 bits of a host write and read back as
written, and nothing else of the block changes; a host read of any register gives the host what the register
reads as and changes nothing of the block. -/
def Obligations.OperandRegistersReadBackAsWritten : Prop :=
  (∀ (s : State) (rest : List HostOp) (n : RegName) (v : Word),
    n ∈ [RegName.srcAddr, .srcLen, .dstAddr, .dstCap] →
    s.pending = .write 4 n.offset (.lit v) :: rest →
    ∃ t, step s = .next t ∧ t.regs.read n = v ∧ (∀ m, m ≠ n → t.regs.read m = s.regs.read m) ∧
      t.port = s.port ∧ t.pending = rest ∧ t.seen = s.seen) ∧
  (∀ (s : State) (rest : List HostOp) (n : RegName), s.pending = .read 4 n.offset :: rest →
    step s = .next { s with pending := rest, seen := .reg n.offset (s.regs.read n) :: s.seen })

/-- 30_encoding.md R57: a write of a read-only register or of a reserved offset is ignored, and a read of
CMD or of a reserved offset returns 0. -/
def Obligations.ReadOnlyAndReservedOffsets : Prop :=
  (∀ (s : State) (rest : List HostOp) (n : RegName) (v : HostVal),
    n ∈ [RegName.status, .resLen, .remAddr, .remLen, .accBase, .accCap, .accIdx] →
    s.pending = .write 4 n.offset v :: rest →
    ∃ t, step s = .next t ∧ t.regs = s.regs ∧ t.port.mem = s.port.mem ∧ t.pending = rest) ∧
  (∀ (s : State) (rest : List HostOp) (off : BitVec 8) (v : HostVal),
    0x30 ≤ off.toNat → off.toNat % 4 = 0 → s.pending = .write 4 off v :: rest →
    ∃ t, step s = .next t ∧ t.regs = s.regs ∧ t.port.mem = s.port.mem ∧ t.pending = rest) ∧
  (∀ (s : State) (rest : List HostOp) (off : BitVec 8),
    0x30 ≤ off.toNat ∨ off = RegName.cmd.offset → off.toNat % 4 = 0 → s.pending = .read 4 off :: rest →
    step s = .next { s with pending := rest, seen := .reg off 0 :: s.seen })

/-- 30_encoding.md R56: a register access of another width, or at an offset that is no multiple of 4, is
given no meaning: the model refuses the host program there. -/
def Obligations.OnlyAlignedWordAccessesHaveMeaning : Prop :=
  ∀ (s : State) (rest : List HostOp) (width : Nat) (off : BitVec 8) (v : HostVal),
    (width ≠ 4 ∨ off.toNat % 4 ≠ 0) →
    (s.pending = .write width off v :: rest ∨ s.pending = .read width off :: rest) →
    step s = .refused .unsupportedAccess

/-- 30_encoding.md R64: `resubmit` reads the remainder's registers, writes them into the source operands
and leaves ACC_APPEND as the next transaction; nothing else of the registers changes. -/
def Obligations.ResubmitLoadsTheRemainder : Prop :=
  ∀ (s : State) (rest : List HostOp), s.pending = Pseudo.resubmit.assemble ++ rest →
    ∃ t : State, Sys2Proof.core.run 4 s = .next t ∧
      t.regs = { s.regs with srcAddr := s.regs.remAddr, srcLen := s.regs.remLen } ∧
      t.port = s.port ∧ t.pending = cmdWrite 0x00000005 :: rest

/-! ### Decoding -/

/-- 30_encoding.md R59, R60: the five command words, byte by byte as they stand on the bus, and the illegal
words of test vector X1. -/
def Obligations.CommandWordsDecode : Prop :=
  decode [0x01, 0x00, 0x00, 0x00] = .instr .encode ∧
    decode [0x02, 0x00, 0x00, 0x00] = .instr .decodeRaw ∧
    decode [0x03, 0x00, 0x00, 0x00] = .instr .accInit ∧
    decode [0x04, 0x00, 0x00, 0x00] = .instr .accReset ∧
    decode [0x05, 0x00, 0x00, 0x00] = .instr .accAppend ∧
    decode [0x00, 0x00, 0x00, 0x00] = .rejected .illegalOpcode ∧
    decode [0x06, 0x00, 0x00, 0x00] = .rejected .illegalOpcode ∧
    decode [0x0F, 0x00, 0x00, 0x00] = .rejected .illegalOpcode ∧
    decode [0x10, 0x00, 0x00, 0x00] = .rejected .reservedBitsSet ∧
    decode [0x11, 0x00, 0x00, 0x00] = .rejected .reservedBitsSet ∧
    decode [0x01, 0x00, 0x00, 0x80] = .rejected .reservedBitsSet

/-- 30_encoding.md R59: a byte sequence decodes to a command exactly when it is that command's word: "A
decoder of CMD words selects a command only when the whole 32-bit word equals one of the five words", so no
bit of a word is dropped and every command decodes back from its encoding. -/
def Obligations.DecodeIsExactlyTheFiveWords : Prop :=
  (∀ (bs : List Byte) (i : Instr), decode bs = .instr i ↔ bs = encodeBytes i) ∧
    [encode .encode, encode .decodeRaw, encode .accInit, encode .accReset, encode .accAppend]
      = [0x00000001, 0x00000002, 0x00000003, 0x00000004, 0x00000005]

/-- 10_state.md R23: a host write of CMD whose bytes decode to a command runs that command, in that one
step, on the state with the transaction taken off the queue (and the written value resolved). -/
def Obligations.StepRunsTheDecodedCommand : Prop :=
  (∀ (s : State) (rest : List HostOp) (v : HostVal) (i : Instr),
    s.pending = .write 4 RegName.cmd.offset v :: rest →
    decode (wordBytes (v.resolve { s with pending := rest }).1) = .instr i →
    step s = exec i (v.resolve { s with pending := rest }).2) ∧
  (∀ (s : State) (w : Nat) (i : Instr), decodeTableWord 32 w = some i →
    step (s.withFetchWord 32 w) = exec i s)

/-- 30_encoding.md R60, 60_exceptions.md R126: a CMD word other than 0x00000001 to 0x00000005 ends with
ERR = ILLEGAL_CMD and OUTCOME = OK and changes no other register and no memory. -/
def Obligations.IllegalWordOnlyReports : Prop :=
  ∀ (s : State) (rest : List HostOp) (w : Word), w.toNat = 0 ∨ 5 < w.toNat →
    s.pending = cmdWrite w :: rest →
    ∃ t, step s = .next t ∧
      t = { s with pending := rest
                   regs := { s.regs with status := { s.regs.status with err := .illegalCmd, outcome := .ok } } }

/-! ### Errors and their order -/

/-- 60_exceptions.md R125: a command that ends with ILLEGAL_CMD, NOT_INIT, REGION or OVERLAP has written
nothing but STATUS.ERR and STATUS.OUTCOME (to OK): no memory, no other register, and no free value was
drawn. -/
def Obligations.RefusedCommandWritesOnlyStatus : Prop :=
  ∀ (w : Word) (s t : State), writeCmd w s = .next t → t.regs.status.err ∈ refusalCodes →
    t = { s with regs := { s.regs with status := { s.regs.status with err := t.regs.status.err, outcome := .ok } } }

/-- 40_encoder.md R67, 41_decoder.md R86: ENCODE and DECODE_RAW check that both regions are well-formed,
else REGION; then that they do not overlap, else OVERLAP; nothing but STATUS changes. -/
def Obligations.TransformChecksInOrder : Prop :=
  ∀ (s : State) (i : Instr), i = .encode ∨ i = .decodeRaw →
    ((s.regs.srcRegion.wellFormed = false ∨ s.regs.dstRegion.wellFormed = false) →
      exec i s = .next { s with regs := s.regs.finish .region .ok }) ∧
    (s.regs.srcRegion.wellFormed = true → s.regs.dstRegion.wellFormed = true →
      s.regs.srcRegion.overlaps s.regs.dstRegion = true →
      exec i s = .next { s with regs := s.regs.finish .overlap .ok })

/-- 42_accumulator.md R103: ACC_APPEND checks ACC_VALID, else NOT_INIT; then the chunk region, else REGION;
then overlap with the working buffer, else OVERLAP; a failed check changes only STATUS. -/
def Obligations.AppendChecksInOrder : Prop :=
  ∀ s : State,
    (s.regs.status.accValid = false →
      exec .accAppend s = .next { s with regs := s.regs.finish .notInit .ok }) ∧
    (s.regs.status.accValid = true → s.regs.srcRegion.wellFormed = false →
      exec .accAppend s = .next { s with regs := s.regs.finish .region .ok }) ∧
    (s.regs.status.accValid = true → s.regs.srcRegion.wellFormed = true →
      s.regs.srcRegion.overlaps s.regs.bufRegion = true →
      exec .accAppend s = .next { s with regs := s.regs.finish .overlap .ok })

/-- 30_encoding.md R62: whatever a CMD write ends with is a pair of the table: (ILLEGAL_CMD, OK) for an
illegal word, and one of the command's own pairs for a command. -/
def Obligations.EveryEndIsOfTheTable : Prop :=
  ∀ (w : Word) (s t : State), writeCmd w s = .next t →
    match decode (wordBytes w) with
    | .instr i => (t.regs.status.err, t.regs.status.outcome) ∈ commandEnds i
    | .rejected _ => (t.regs.status.err, t.regs.status.outcome) = (ErrCode.illegalCmd, OutCode.ok)

/-- 20_memory.md R43, D36: the first access of a command at an address whose access the platform does not
complete leaves the command, and the host's CMD write, stuck: ENCODE, DECODE_RAW and ACC_APPEND at the first
byte of their source. -/
def Obligations.UnansweredReadIsStuck : Prop :=
  ∀ (s : State) (i : Instr), i = .encode ∨ i = .decodeRaw ∨ i = .accAppend →
    commandCheck i s.regs = none → s.port.platform.namesDevice (accessRegions i s.regs) = false →
    0 < s.regs.srcLen.toNat → s.port.platform.admits s.regs.srcAddr.toNat = false →
    exec i s = .fault (.stuck s.regs.srcAddr.toNat)

/-! ### ENCODE -/

/-- 40_encoder.md R75, R78: with room for it, ENCODE writes `Encode(P)` at the destination and its length,
sentinel included, in RES_LEN, and ends (NONE, OK); every other byte of memory and every other register is
unchanged. -/
def Obligations.EncodeWritesEncodedPayload : Prop :=
  ∀ s : State, s.TransformReady → (Cobs.encodeOut s.sourceBytes).length ≤ s.regs.dstCap.toNat →
    ∃ t, exec .encode s = .next t ∧ s.OnlyBlockChanged t ∧ t.port.draws = s.port.draws ∧
      t.regs = { s.regs with
        resLen := BitVec.ofNat 32 (Cobs.encodeOut s.sourceBytes).length
        status := { s.regs.status with err := .none, outcome := .ok } } ∧
      t.regs.resLen.toNat = (Cobs.encodeOut s.sourceBytes).length ∧
      t.port.bytesAt s.regs.dstAddr.toNat (Cobs.encodeOut s.sourceBytes).length
        = Cobs.encodeOut s.sourceBytes ∧
      s.SameOutside t s.regs.dstAddr.toNat (Cobs.encodeOut s.sourceBytes).length

/-- 40_encoder.md R74: one byte short, ENCODE ends with DST_FULL and OUTCOME = OK, RES_LEN is 0, and no byte
outside the destination region is ever written. -/
def Obligations.EncodeDestinationFull : Prop :=
  ∀ s : State, s.TransformReady → s.regs.dstCap.toNat < (Cobs.encodeOut s.sourceBytes).length →
    ∃ t, exec .encode s = .next t ∧ s.OnlyBlockChanged t ∧
      t.regs = { s.regs with
        resLen := 0, status := { s.regs.status with err := .dstFull, outcome := .ok } } ∧
      s.SameOutside t s.regs.dstAddr.toNat s.regs.dstCap.toNat

/-! ### DECODE_RAW -/

/-- 41_decoder.md R94: where the output fits, DECODE_RAW ends as `DecodeRaw` says. OK: the payload is at the
destination, RES_LEN its length, the rest of memory unchanged. MALFORMED: RES_LEN is 0, OUTCOME is
MALFORMED_ENCODING, and no byte outside the destination region changes. -/
def Obligations.DecodeRawGivesDecodedPayload : Prop :=
  ∀ (s : State) (st : Cobs.DecStatus) (out : List Byte), s.TransformReady →
    Cobs.decodeRaw s.sourceBytes = (st, out) → out.length ≤ s.regs.dstCap.toNat →
    ∃ t, exec .decodeRaw s = .next t ∧ s.OnlyBlockChanged t ∧
      (st = .ok →
        t.regs = { s.regs with
          resLen := BitVec.ofNat 32 out.length
          status := { s.regs.status with err := .none, outcome := .ok } } ∧
        t.regs.resLen.toNat = out.length ∧
        t.port.bytesAt s.regs.dstAddr.toNat out.length = out ∧
        s.SameOutside t s.regs.dstAddr.toNat out.length) ∧
      (st = .malformed →
        t.regs = { s.regs with
          resLen := 0, status := { s.regs.status with err := .none, outcome := .malformedEncoding } } ∧
        s.SameOutside t s.regs.dstAddr.toNat s.regs.dstCap.toNat)

/-- 41_decoder.md R93, R95: DECODE_RAW ends with DST_FULL, OUTCOME = OK and RES_LEN = 0 when the output
would pass the capacity, also for a truncated input (60_exceptions.md R134), and writes no byte outside the
destination region. -/
def Obligations.DecodeRawDestinationFull : Prop :=
  ∀ s : State, s.TransformReady → s.regs.dstCap.toNat < (Cobs.decodeRaw s.sourceBytes).2.length →
    ∃ t, exec .decodeRaw s = .next t ∧ s.OnlyBlockChanged t ∧
      t.regs = { s.regs with
        resLen := 0, status := { s.regs.status with err := .dstFull, outcome := .ok } } ∧
      s.SameOutside t s.regs.dstAddr.toNat s.regs.dstCap.toNat

/-- The model's form of "unspecified" (log 4; 93_implementation_defined.md U5, U6): after DST_FULL or
MALFORMED_ENCODING byte `k` of the destination is a free value of its own, the `k`-th draw. -/
def Obligations.FailedTransformLeavesFreeBytes : Prop :=
  ∀ (s t : State) (i : Instr), i = .encode ∨ i = .decodeRaw → s.port.raced = false →
    exec i s = .next t →
    t.regs.status.err = .dstFull ∨
      (t.regs.status.err = .none ∧ t.regs.status.outcome = .malformedEncoding) →
    ∀ k, k < s.regs.dstCap.toNat →
      t.port.byteAt (s.regs.dstAddr.toNat + k) = Config.freeByte (s.port.draws + k)

/-! ### The accumulator commands -/

/-- 42_accumulator.md R100: ACC_INIT binds the buffer DST_ADDR, DST_CAP, empties it and sets ACC_VALID, or
ends with REGION and changes nothing else; it touches no memory. -/
def Obligations.AccInitBindsTheBuffer : Prop :=
  ∀ s : State,
    (s.regs.dstAddr.toNat + s.regs.dstCap.toNat ≤ 2 ^ 32 →
      exec .accInit s = .next { s with regs := { s.regs with
        accBase := s.regs.dstAddr, accCap := s.regs.dstCap, accIdx := 0
        status := { err := .none, outcome := .ok, accValid := true } } }) ∧
    (2 ^ 32 < s.regs.dstAddr.toNat + s.regs.dstCap.toNat →
      exec .accInit s = .next { s with regs := { s.regs with
        status := { s.regs.status with err := .region, outcome := .ok } } })

/-- 42_accumulator.md R101: ACC_RESET sets the cursor to 0, or ends with NOT_INIT before any ACC_INIT; it
touches no memory and no other register. -/
def Obligations.AccResetEmptiesTheAccumulator : Prop :=
  ∀ s : State,
    (s.regs.status.accValid = true →
      exec .accReset s = .next { s with regs := { s.regs with
        accIdx := 0, status := { s.regs.status with err := .none, outcome := .ok } } }) ∧
    (s.regs.status.accValid = false →
      exec .accReset s = .next { s with regs := { s.regs with
        status := { s.regs.status with err := .notInit, outcome := .ok } } })

/-- 42_accumulator.md R104: an empty chunk, past the checks, is CONSUMED with an empty remainder at the
chunk, ACC_IDX unchanged, RES_LEN 0 and no memory access. -/
def Obligations.AppendOfEmptyChunk : Prop :=
  ∀ s : State, s.regs.status.accValid = true → s.regs.srcLen = 0 →
    exec .accAppend s = .next { s with regs := { s.regs with
      resLen := 0, remAddr := s.regs.srcAddr, remLen := 0
      status := { s.regs.status with err := .none, outcome := .consumed } } }

/-- 42_accumulator.md R108: a chunk without a delimiter that fits is CONSUMED: its bytes are appended,
ACC_IDX advances by its length, RES_LEN is 0, and the remainder is empty, at the chunk's end. -/
def Obligations.AppendConsumesFittingChunk : Prop :=
  ∀ s : State, s.AppendReady → 0 < s.regs.srcLen.toNat →
    Cobs.delimiterOffset s.sourceBytes = none →
    s.regs.accIdx.toNat + s.regs.srcLen.toNat < s.regs.accCap.toNat →
    ∃ t, exec .accAppend s = .next t ∧ s.OnlyBlockChanged t ∧
      t.regs = { s.regs with
        accIdx := s.regs.accIdx + s.regs.srcLen, resLen := 0, remAddr := t.regs.remAddr, remLen := 0
        status := { s.regs.status with err := .none, outcome := .consumed } } ∧
      t.regs.accIdx.toNat = s.regs.accIdx.toNat + s.regs.srcLen.toNat ∧
      t.regs.RemAddrIs (s.regs.srcAddr.toNat + s.regs.srcLen.toNat) ∧
      t.port.bytesAt (s.regs.accBase.toNat + s.regs.accIdx.toNat) s.regs.srcLen.toNat = s.sourceBytes ∧
      s.SameOutside t (s.regs.accBase.toNat + s.regs.accIdx.toNat) s.regs.srcLen.toNat

/-- 42_accumulator.md R109: a chunk without a delimiter that does not fit is OVERFLOW: nothing is copied,
ACC_IDX and RES_LEN become 0, and the remainder is the whole chunk. -/
def Obligations.AppendOverflowsWithoutDelimiter : Prop :=
  ∀ s : State, s.AppendReady → 0 < s.regs.srcLen.toNat →
    Cobs.delimiterOffset s.sourceBytes = none →
    s.regs.accCap.toNat ≤ s.regs.accIdx.toNat + s.regs.srcLen.toNat →
    exec .accAppend s = .next { s with regs := { s.regs with
      accIdx := 0, resLen := 0, remAddr := s.regs.srcAddr, remLen := s.regs.srcLen
      status := { s.regs.status with err := .none, outcome := .overflow } } }

/-- 42_accumulator.md R110: a delimiter whose preceding bytes do not fit is OVERFLOW, never FRAME_READY:
nothing is copied, ACC_IDX and RES_LEN become 0, and the remainder is the bytes after the delimiter. -/
def Obligations.AppendOverflowsAtDelimiter : Prop :=
  ∀ (s : State) (d : Nat), s.AppendReady → Cobs.delimiterOffset s.sourceBytes = some d →
    s.regs.accCap.toNat ≤ s.regs.accIdx.toNat + d →
    ∃ t, exec .accAppend s = .next t ∧ s.OnlyBlockChanged t ∧ t.port.mem = s.port.mem ∧
      t.regs = { s.regs with
        accIdx := 0, resLen := 0, remAddr := t.regs.remAddr, remLen := t.regs.remLen
        status := { s.regs.status with err := .none, outcome := .overflow } } ∧
      t.regs.RemAddrIs (s.regs.srcAddr.toNat + d + 1) ∧
      t.regs.remLen.toNat + d + 1 = s.regs.srcLen.toNat

/-- 42_accumulator.md R112: where the buffered block decodes, ACC_APPEND ends FRAME_READY: the frame is at
the start of the working buffer, RES_LEN is its length, the cursor is 0, the bytes of the buffer past the
block are unchanged and the remainder is the bytes after the delimiter. -/
def Obligations.AppendDeliversFrame : Prop :=
  ∀ (s : State) (d : Nat) (out : List Byte), s.AppendReady →
    Cobs.delimiterOffset s.sourceBytes = some d →
    s.regs.accIdx.toNat + d < s.regs.accCap.toNat →
    Cobs.decodeRaw (s.bufferedBytes ++ s.sourceBytes.take d) = (.ok, out) →
    ∃ t, exec .accAppend s = .next t ∧ s.OnlyBlockChanged t ∧
      t.regs = { s.regs with
        accIdx := 0, resLen := BitVec.ofNat 32 out.length
        remAddr := t.regs.remAddr, remLen := t.regs.remLen
        status := { s.regs.status with err := .none, outcome := .frameReady } } ∧
      t.regs.resLen.toNat = out.length ∧
      t.regs.RemAddrIs (s.regs.srcAddr.toNat + d + 1) ∧
      t.regs.remLen.toNat + d + 1 = s.regs.srcLen.toNat ∧
      t.port.bytesAt s.regs.accBase.toNat out.length = out ∧
      s.SameOutside t s.regs.accBase.toNat (s.regs.accIdx.toNat + d)

/-- 42_accumulator.md R113: where the buffered block does not decode, ACC_APPEND ends DECODE_FAILED:
RES_LEN and the cursor are 0, no byte outside the block changes, and the remainder is the bytes after the
delimiter. -/
def Obligations.AppendReportsDecodeFailure : Prop :=
  ∀ (s : State) (d : Nat), s.AppendReady → Cobs.delimiterOffset s.sourceBytes = some d →
    s.regs.accIdx.toNat + d < s.regs.accCap.toNat →
    (Cobs.decodeRaw (s.bufferedBytes ++ s.sourceBytes.take d)).1 = .malformed →
    ∃ t, exec .accAppend s = .next t ∧ s.OnlyBlockChanged t ∧
      t.regs = { s.regs with
        accIdx := 0, resLen := 0, remAddr := t.regs.remAddr, remLen := t.regs.remLen
        status := { s.regs.status with err := .none, outcome := .decodeFailed } } ∧
      t.regs.RemAddrIs (s.regs.srcAddr.toNat + d + 1) ∧
      t.regs.remLen.toNat + d + 1 = s.regs.srcLen.toNat ∧
      s.SameOutside t s.regs.accBase.toNat (s.regs.accIdx.toNat + d)

/-- 42_accumulator.md R118: with its checks passed, ACC_APPEND computes `Append` of the buffered bytes, the
capacity and the chunk: the outcome, the buffered bytes after it and the cursor, the frame and RES_LEN, and
the remainder as the tail of the chunk. -/
def Obligations.AppendComputesAppendFunction : Prop :=
  ∀ s : State, s.AppendReady →
    ∃ t, exec .accAppend s = .next t ∧
      let r := Cobs.appendStep s.bufferedBytes s.regs.accCap.toNat s.sourceBytes
      t.regs.status = { err := .none, outcome := r.outcome, accValid := true } ∧
      t.regs.accBase = s.regs.accBase ∧ t.regs.accCap = s.regs.accCap ∧
      t.bufferedBytes = r.buffered ∧
      t.port.bytesAt s.regs.accBase.toNat t.regs.resLen.toNat = r.frame ∧
      t.regs.remLen.toNat ≤ s.regs.srcLen.toNat ∧
      t.regs.RemAddrIs (s.regs.srcAddr.toNat + (s.regs.srcLen.toNat - t.regs.remLen.toNat)) ∧
      t.port.bytesAt (s.regs.srcAddr.toNat + (s.regs.srcLen.toNat - t.regs.remLen.toNat))
        t.regs.remLen.toNat = r.remainder

/-- The model's form of "unspecified" in the working buffer (log 4; 93_implementation_defined.md U7, U8):
after FRAME_READY the bytes of the buffered block past the frame, and after DECODE_FAILED all of its bytes,
are free values of their own, one draw each. -/
def Obligations.AppendLeavesFreeBytes : Prop :=
  ∀ (s t : State) (d : Nat), s.port.raced = false → Cobs.delimiterOffset s.sourceBytes = some d →
    exec .accAppend s = .next t →
    (t.regs.status.err = .none → t.regs.status.outcome = .frameReady →
      ∀ k, t.regs.resLen.toNat + k < s.regs.accIdx.toNat + d →
        t.port.byteAt (s.regs.accBase.toNat + t.regs.resLen.toNat + k) = Config.freeByte (s.port.draws + k)) ∧
    (t.regs.status.err = .none → t.regs.status.outcome = .decodeFailed →
      ∀ k, k < s.regs.accIdx.toNat + d →
        t.port.byteAt (s.regs.accBase.toNat + k) = Config.freeByte (s.port.draws + k))

/-- 42_accumulator.md R114: a delimiter with nothing buffered before it gives FRAME_READY with an empty
frame whenever the capacity is at least 1. -/
def Obligations.BareDelimiterGivesEmptyFrame : Prop :=
  ∀ s : State, s.AppendReady → s.regs.accIdx = 0 → 1 ≤ s.regs.accCap.toNat →
    0 < s.regs.srcLen.toNat → s.port.byteAt s.regs.srcAddr.toNat = 0x00 →
    ∃ t, exec .accAppend s = .next t ∧ t.regs.status.err = .none ∧ t.regs.status.outcome = .frameReady ∧
      t.regs.resLen = 0 ∧ t.regs.accIdx = 0 ∧ s.SameMemory t

/-- The model's choice where the remainder starts at 2^32, which no 32-bit register holds and no rule
truncates (log 5): REM_ADDR is then a free value; here for a chunk whose only delimiter is the last byte of
memory. -/
def Obligations.RemainderPastTopOfMemoryIsFree : Prop :=
  ∀ s t : State, s.AppendReady → exec .accAppend s = .next t → t.regs.remLen = 0 →
    0 < s.regs.srcLen.toNat → s.regs.srcAddr.toNat + s.regs.srcLen.toNat = 2 ^ 32 →
    ∃ n, s.port.draws ≤ n ∧ t.regs.remAddr = Config.freeWord n

/-- 42_accumulator.md R122: after an OVERFLOW of a chunk without a delimiter and at least as long as the
capacity, resubmitting the remainder gives the same OVERFLOW, with the same remainder, for ever. -/
def Obligations.OversizedChunkOverflowsForEver : Prop :=
  ∀ s : State, s.AppendReady → 0 < s.regs.srcLen.toNat →
    Cobs.delimiterOffset s.sourceBytes = none → s.regs.accCap.toNat ≤ s.regs.srcLen.toNat →
    ∃ t, exec .accAppend s = .next t ∧ t.regs.status.outcome = .overflow ∧
      t.regs.remAddr = t.regs.srcAddr ∧ t.regs.remLen = t.regs.srcLen ∧ exec .accAppend t = .next t

/-- 10_state.md R33, what ACC_APPEND does to it: if the buffered bytes are zero-free before an ACC_APPEND,
they are zero-free after it. -/
def Obligations.AppendKeepsBufferZeroFree : Prop :=
  ∀ s t : State, s.port.raced = false → exec .accAppend s = .next t →
    (0x00 : Byte) ∉ s.bufferedBytes → (0x00 : Byte) ∉ t.bufferedBytes

/-! ### The pure functions -/

/-- 40_encoder.md R77: `Stuff` is the recursion the rule gives, block by block. -/
def Obligations.StuffIsTheRecursion : Prop :=
  ∀ P : List Byte,
    let D := Cobs.blockData P
    let R := P.drop D.length
    Cobs.stuff P =
      if D.length = 254 then
        if R = [] then 0xFF :: D else 0xFF :: (D ++ Cobs.stuff R)
      else
        if R = [] then BitVec.ofNat 8 (D.length + 1) :: D
        else BitVec.ofNat 8 (D.length + 1) :: (D ++ Cobs.stuff (R.drop 1))

/-- The first sentences of 40_encoder.md R79: `Stuff(P)` holds no zero byte, for every payload, so the only
zero of `Encode(P)` is its last byte. -/
def Obligations.StuffedBytesAreZeroFree : Prop :=
  ∀ P : List Byte, (0x00 : Byte) ∉ Cobs.stuff P ∧
    Cobs.delimiterOffset (Cobs.encodeOut P) = some (Cobs.stuff P).length ∧
    (Cobs.encodeOut P).length = (Cobs.stuff P).length + 1

/-- 40_encoder.md R80: the stuffed length, for the empty payload, for a zero-free payload, as a bound, and in
general. -/
def Obligations.StuffedLength : Prop :=
  (Cobs.stuff []).length = 1 ∧
    ∀ P : List Byte,
      (Cobs.stuff P).length = P.length + 1 + Cobs.chainedBlocks P ∧
      (1 ≤ P.length → (Cobs.stuff P).length ≤ P.length + (P.length + 253) / 254) ∧
      (1 ≤ P.length → (0x00 : Byte) ∉ P → (Cobs.stuff P).length = P.length + (P.length + 253) / 254)

/-- 40_encoder.md R81: the empty payload, a run of exactly 254 non-zero bytes, one followed by a non-zero
byte, and one followed by a zero. -/
def Obligations.StuffAtTheBlockBoundary : Prop :=
  Cobs.encodeOut [] = [0x01, 0x00] ∧
    ∀ (D : List Byte) (x : Byte), D.length = 254 → (0x00 : Byte) ∉ D → x ≠ 0x00 →
      Cobs.stuff D = 0xFF :: D ∧ Cobs.stuff (D ++ [x]) = 0xFF :: (D ++ [0x02, x]) ∧
        Cobs.stuff (D ++ [0x00]) = 0xFF :: (D ++ [0x01, 0x01])

/-- 41_decoder.md R95: `DecodeRaw` is the recursion the rule gives: `Blocks` from a code byte and the
previous code. -/
def Obligations.DecodeRawIsTheRecursion : Prop :=
  Cobs.decodeRaw [] = (.ok, []) ∧ (∀ T : List Byte, Cobs.decodeRaw (0x00 :: T) = (.malformed, [])) ∧
    (∀ (c : Byte) (T : List Byte), c ≠ 0x00 → Cobs.decodeRaw (c :: T) = Cobs.blocks (c :: T) none) ∧
    ∀ (c : Byte) (T : List Byte) (prev : Option Byte), c ≠ 0x00 →
      let Z : List Byte := if prev ≠ none ∧ prev ≠ some 0xFF then [0x00] else []
      let D := T.take (c.toNat - 1)
      let R := T.drop (c.toNat - 1)
      Cobs.blocks (c :: T) prev =
        if T.length < c.toNat - 1 then (.malformed, Z ++ T)
        else if R = [] ∨ R.head? = some 0x00 then (.ok, Z ++ D)
        else ((Cobs.blocks R (some c)).1, Z ++ (D ++ (Cobs.blocks R (some c)).2))

/-- 41_decoder.md R96: the only inputs that decode OK to an empty output are `[]`, `[01]` and those that
start `01 00`. -/
def Obligations.EmptyOutputInputs : Prop :=
  ∀ B : List Byte, Cobs.decodeRaw B = (.ok, []) ↔ B = [] ∨ B = [0x01] ∨ ∃ T, B = 0x01 :: 0x00 :: T

/-- 41_decoder.md R97: a non-empty input decodes to at most one byte less than it holds, and the empty input
to nothing. -/
def Obligations.DecodedLengthBound : Prop :=
  (Cobs.decodeRaw []).2 = [] ∧ ∀ B : List Byte, B ≠ [] → (Cobs.decodeRaw B).2.length ≤ B.length - 1

/-- 40_encoder.md R83: decoding inverts encoding, with and without the sentinel, for every payload. -/
def Obligations.DecodeInvertsEncode : Prop :=
  ∀ P : List Byte, Cobs.decodeRaw (Cobs.stuff P) = (.ok, P) ∧ Cobs.decodeRaw (Cobs.encodeOut P) = (.ok, P)

/-- 42_accumulator.md R119: a frame delivered in any number of chunks to an empty accumulator is buffered
without OVERFLOW if and only if its encoding is shorter than the capacity. -/
def Obligations.FrameFitsExactly : Prop :=
  ∀ (P : List Byte) (cap : Nat) (cs : List (List Byte)), cs.flatten = Cobs.stuff P →
    ((∀ r ∈ Cobs.appendAll cap [] cs, r.outcome ≠ .overflow) ↔ (Cobs.stuff P).length < cap)

/-- Chunking invariance, 42_accumulator.md R120, over `Append` (which ACC_APPEND computes,
`AppendComputesAppendFunction`): however `Encode(P)` is split, every chunk before the one that holds the
final zero is CONSUMED, and that one gives FRAME_READY with frame `P`, no remainder and an empty buffer. -/
def Obligations.ChunkingInvariance : Prop :=
  ∀ (P : List Byte) (cap : Nat) (cs : List (List Byte)) (last : List Byte),
    (Cobs.stuff P).length + 1 ≤ cap → cs.flatten ++ last = Cobs.encodeOut P → last ≠ [] →
    Cobs.appendAll cap [] (cs ++ [last]) =
      Cobs.appendAll cap [] cs ++ [{ buffered := [], outcome := .frameReady, frame := P, remainder := [] }] ∧
    ∀ r ∈ Cobs.appendAll cap [] cs, r.outcome = .consumed ∧ r.frame = [] ∧ r.remainder = []

/-! ### Rules about the whole machine -/

/-- The register frame of every command (the writes column of 30_encoding.md R61): a register the command
does not write reads as before, so no command changes SRC_ADDR, SRC_LEN, DST_ADDR or DST_CAP
(70_reset_and_hazards.md R151); ACC_VALID is changed by ACC_INIT only (60_exceptions.md R124); the platform
and the host's records are as before. -/
def Obligations.CommandsWriteOnlyTheirRegisters : Prop :=
  ∀ (i : Instr) (s t : State), exec i s = .next t →
    (∀ n : RegName, n ∉ commandWrites i → t.regs.read n = s.regs.read n) ∧
      (i ≠ .accInit → t.regs.status.accValid = s.regs.status.accValid) ∧ s.OnlyBlockChanged t

/-- The memory frame of every command (the writes column of 20_memory.md R45): a byte outside the command's
write footprint reads as before, and a refused command has no footprint. It holds whether or not another
agent is in the command's regions. -/
def Obligations.CommandsWriteOnlyTheirFootprint : Prop :=
  ∀ (i : Instr) (s t : State), exec i s = .next t →
    s.SameOutsideFootprint t (writeFootprint i s.regs) ∧
      (t.regs.status.err ∈ refusalCodes → s.SameMemory t)

/-- When RES_LEN is written (10_state.md R27): ACC_INIT, ACC_RESET and a refused command leave it; a
transform that failed and an ACC_APPEND without a frame set it to 0. -/
def Obligations.ResultLengthRule : Prop :=
  ∀ (i : Instr) (s t : State), exec i s = .next t →
    (i = .accInit ∨ i = .accReset ∨ t.regs.status.err ∈ refusalCodes → t.regs.resLen = s.regs.resLen) ∧
      (t.regs.status.err = .dstFull ∨ t.regs.status.outcome = .malformedEncoding ∨
          t.regs.status.outcome = .consumed ∨ t.regs.status.outcome = .overflow ∨
          t.regs.status.outcome = .decodeFailed → t.regs.resLen = 0)

/-- When REM_ADDR and REM_LEN are written (10_state.md R28): only by ACC_APPEND with ERR = NONE, and they
then name a tail of the chunk region. -/
def Obligations.RemainderRule : Prop :=
  ∀ (i : Instr) (s t : State), exec i s = .next t →
    ((i ≠ .accAppend ∨ t.regs.status.err ≠ .none) →
      t.regs.remAddr = s.regs.remAddr ∧ t.regs.remLen = s.regs.remLen) ∧
    (i = .accAppend → t.regs.status.err = .none →
      t.regs.remLen.toNat ≤ s.regs.srcLen.toNat ∧
        t.regs.RemAddrIs (s.regs.srcAddr.toNat + (s.regs.srcLen.toNat - t.regs.remLen.toNat)))

/-- 20_memory.md R54: a command's behaviour depends only on the registers and the data memory: the host's
records are neither read nor changed by it. -/
def Obligations.CommandsIgnoreTheHostRecords : Prop :=
  ∀ (i : Instr) (s : State) (pending : List HostOp) (seen : List Seen),
    exec i (s.withHost pending seen) =
      match exec i s with
      | .next t => .next (t.withHost pending seen)
      | .fault f => .fault f
      | .refused e => .refused e

/-- What a command's result cannot depend on (20_memory.md R45, reads; 42_accumulator.md R117): two states
that differ only in bytes outside the regions the command may read end with the same registers. -/
def Obligations.ResultDependsOnReadRegionsOnly : Prop :=
  ∀ (i : Instr) (s t : State) (m : List Host.Cell),
    (∀ r ∈ commandReads i s.regs, ∀ a, r.contains a = true →
      ({ s.port with mem := m } : DataPort).byteAt a = s.port.byteAt a) →
    exec i s = .next t →
    ∃ u, exec i { s with port := { s.port with mem := m } } = .next u ∧ u.regs = t.regs

/-- Who writes the accumulator's binding (10_state.md R29, R30; 60_exceptions.md R124): a step that changes
ACC_BASE, ACC_CAP or ACC_VALID is a hardware reset or a CMD write of ACC_INIT. -/
def Obligations.OnlyInitAndResetRebind : Prop :=
  ∀ (s t : State) (op : HostOp) (rest : List HostOp), s.pending = op :: rest → step s = .next t →
    (t.regs.accBase ≠ s.regs.accBase ∨ t.regs.accCap ≠ s.regs.accCap ∨
      t.regs.status.accValid ≠ s.regs.status.accValid) →
    op.resets = true ∨
      ∃ v, op.writesCmd = some v ∧
        decode (wordBytes (v.resolve { s with pending := rest }).1) = .instr .accInit

/-- 10_state.md R23, "Writing CMD is the only way a command starts": any other transaction that is no
hardware reset leaves every result register and the accumulator's registers alone, and a register access
leaves data memory alone. -/
def Obligations.OnlyCmdWritesRunCommands : Prop :=
  ∀ (s t : State) (op : HostOp) (rest : List HostOp), s.pending = op :: rest → step s = .next t →
    op.writesCmd = none → op.resets = false →
    (∀ n : RegName, n ∉ [RegName.srcAddr, .srcLen, .dstAddr, .dstCap] → t.regs.read n = s.regs.read n) ∧
      ((∀ a bytes, op ≠ .store a bytes) → t.port.mem = s.port.mem)

/-- A host store between commands puts its bytes into data memory, where the next command finds them, and
touches no register (20_memory.md R51, R54). -/
def Obligations.HostStoreIsSeen : Prop :=
  ∀ (s : State) (rest : List HostOp) (a : Word) (bytes : List Byte),
    s.pending = .store a bytes :: rest → a.toNat + bytes.length ≤ 2 ^ 32 →
    s.port.AdmitsRange a.toNat bytes.length → s.port.platform.deviceIn a.toNat bytes.length = false →
    ∃ t, step s = .next t ∧ t.port.bytesAt a.toNat bytes.length = bytes ∧
      s.SameOutside t a.toNat bytes.length ∧ t.regs = s.regs ∧ t.pending = rest

/-- The model's form of a hardware reset during a command (log 10; 70_reset_and_hazards.md R147;
20_memory.md R45): the command is abandoned, the registers take their reset values, every byte of its write
footprint is a free value of its own, and every byte outside it reads as before. That a command which its
checks refuse has no footprint, so that no byte changes, is the model's reading of R45 (log 10), not R147. -/
def Obligations.ResetDuringCommandAbandonsIt : Prop :=
  ∀ (s : State) (i : Instr) (rest : List HostOp), s.pending = .cmdReset (.lit (encode i)) :: rest →
    (commandCheck i s.regs = none → s.port.platform.namesDevice (accessRegions i s.regs) = false) →
    ∃ t, step s = .next t ∧ t.regs = Regs.reset ∧ s.SameOutsideFootprint t (writeFootprint i s.regs) ∧
      (∀ r, writeFootprint i s.regs = some r →
        ∀ k, k < r.len.toNat →
          t.port.byteAt (r.base.toNat + k) = Config.freeByte (s.port.draws + k)) ∧
      t.pending = rest ∧ t.seen = s.seen

/-- The model's form of a race (log 9; 20_memory.md R52): at the end of a command another agent interfered
with, every byte of its write footprint is a free value and every byte outside it reads as before. -/
def Obligations.RacedCommandLeavesFreeFootprint : Prop :=
  ∀ (s t : State) (i : Instr) (rest : List HostOp), s.pending = .cmdRaced (.lit (encode i)) :: rest →
    step s = .next t →
    s.SameOutsideFootprint t (writeFootprint i s.regs) ∧ t.port.raced = false ∧
      ∀ r, writeFootprint i s.regs = some r →
        ∃ n, s.port.draws ≤ n ∧
          ∀ k, k < r.len.toNat → t.port.byteAt (r.base.toNat + k) = Config.freeByte (n + k)

/-- 20_memory.md R48, 93_implementation_defined.md U4: a command that would touch a region with side effects
is given no meaning, once its checks have passed. -/
def Obligations.SideEffectRegionIsRefused : Prop :=
  ∀ (s : State) (i : Instr), commandCheck i s.regs = none →
    s.port.platform.namesDevice (accessRegions i s.regs) = true →
    exec i s = .refused .sideEffectRegion
end

