-- ==== Sys2Proof/Laws/State.lean ====
section
/-! SUPPORT. One lemma per field per update of the registers, the data port and the state, true by
definition, so that no later proof unfolds a record update. -/

namespace Sys2Proof.Machine

/-! ### `Regs.finish` -/

@[simp] theorem Regs.finish_status (r : Regs) (e : ErrCode) (o : OutCode) :
    (r.finish e o).status = { r.status with err := e, outcome := o } := rfl
@[simp] theorem Regs.finish_srcAddr (r : Regs) (e : ErrCode) (o : OutCode) :
    (r.finish e o).srcAddr = r.srcAddr := rfl
@[simp] theorem Regs.finish_srcLen (r : Regs) (e : ErrCode) (o : OutCode) :
    (r.finish e o).srcLen = r.srcLen := rfl
@[simp] theorem Regs.finish_dstAddr (r : Regs) (e : ErrCode) (o : OutCode) :
    (r.finish e o).dstAddr = r.dstAddr := rfl
@[simp] theorem Regs.finish_dstCap (r : Regs) (e : ErrCode) (o : OutCode) :
    (r.finish e o).dstCap = r.dstCap := rfl
@[simp] theorem Regs.finish_resLen (r : Regs) (e : ErrCode) (o : OutCode) :
    (r.finish e o).resLen = r.resLen := rfl
@[simp] theorem Regs.finish_remAddr (r : Regs) (e : ErrCode) (o : OutCode) :
    (r.finish e o).remAddr = r.remAddr := rfl
@[simp] theorem Regs.finish_remLen (r : Regs) (e : ErrCode) (o : OutCode) :
    (r.finish e o).remLen = r.remLen := rfl
@[simp] theorem Regs.finish_accBase (r : Regs) (e : ErrCode) (o : OutCode) :
    (r.finish e o).accBase = r.accBase := rfl
@[simp] theorem Regs.finish_accCap (r : Regs) (e : ErrCode) (o : OutCode) :
    (r.finish e o).accCap = r.accCap := rfl
@[simp] theorem Regs.finish_accIdx (r : Regs) (e : ErrCode) (o : OutCode) :
    (r.finish e o).accIdx = r.accIdx := rfl

/-! ### `Regs.setResLen` -/

@[simp] theorem Regs.setResLen_status (r : Regs) (n : Nat) :
    (r.setResLen n).status = r.status := rfl
@[simp] theorem Regs.setResLen_srcAddr (r : Regs) (n : Nat) :
    (r.setResLen n).srcAddr = r.srcAddr := rfl
@[simp] theorem Regs.setResLen_srcLen (r : Regs) (n : Nat) :
    (r.setResLen n).srcLen = r.srcLen := rfl
@[simp] theorem Regs.setResLen_dstAddr (r : Regs) (n : Nat) :
    (r.setResLen n).dstAddr = r.dstAddr := rfl
@[simp] theorem Regs.setResLen_dstCap (r : Regs) (n : Nat) :
    (r.setResLen n).dstCap = r.dstCap := rfl
@[simp] theorem Regs.setResLen_resLen (r : Regs) (n : Nat) :
    (r.setResLen n).resLen = BitVec.ofNat 32 n := rfl
@[simp] theorem Regs.setResLen_remAddr (r : Regs) (n : Nat) :
    (r.setResLen n).remAddr = r.remAddr := rfl
@[simp] theorem Regs.setResLen_remLen (r : Regs) (n : Nat) :
    (r.setResLen n).remLen = r.remLen := rfl
@[simp] theorem Regs.setResLen_accBase (r : Regs) (n : Nat) :
    (r.setResLen n).accBase = r.accBase := rfl
@[simp] theorem Regs.setResLen_accCap (r : Regs) (n : Nat) :
    (r.setResLen n).accCap = r.accCap := rfl
@[simp] theorem Regs.setResLen_accIdx (r : Regs) (n : Nat) :
    (r.setResLen n).accIdx = r.accIdx := rfl

/-! ### `Regs.setRem` -/

@[simp] theorem Regs.setRem_status (r : Regs) (a : Word) (n : Nat) :
    (r.setRem a n).status = r.status := rfl
@[simp] theorem Regs.setRem_srcAddr (r : Regs) (a : Word) (n : Nat) :
    (r.setRem a n).srcAddr = r.srcAddr := rfl
@[simp] theorem Regs.setRem_srcLen (r : Regs) (a : Word) (n : Nat) :
    (r.setRem a n).srcLen = r.srcLen := rfl
@[simp] theorem Regs.setRem_dstAddr (r : Regs) (a : Word) (n : Nat) :
    (r.setRem a n).dstAddr = r.dstAddr := rfl
@[simp] theorem Regs.setRem_dstCap (r : Regs) (a : Word) (n : Nat) :
    (r.setRem a n).dstCap = r.dstCap := rfl
@[simp] theorem Regs.setRem_resLen (r : Regs) (a : Word) (n : Nat) :
    (r.setRem a n).resLen = r.resLen := rfl
@[simp] theorem Regs.setRem_remAddr (r : Regs) (a : Word) (n : Nat) :
    (r.setRem a n).remAddr = a := rfl
@[simp] theorem Regs.setRem_remLen (r : Regs) (a : Word) (n : Nat) :
    (r.setRem a n).remLen = BitVec.ofNat 32 n := rfl
@[simp] theorem Regs.setRem_accBase (r : Regs) (a : Word) (n : Nat) :
    (r.setRem a n).accBase = r.accBase := rfl
@[simp] theorem Regs.setRem_accCap (r : Regs) (a : Word) (n : Nat) :
    (r.setRem a n).accCap = r.accCap := rfl
@[simp] theorem Regs.setRem_accIdx (r : Regs) (a : Word) (n : Nat) :
    (r.setRem a n).accIdx = r.accIdx := rfl

/-! ### `Regs.setIdx` -/

@[simp] theorem Regs.setIdx_status (r : Regs) (n : Nat) :
    (r.setIdx n).status = r.status := rfl
@[simp] theorem Regs.setIdx_srcAddr (r : Regs) (n : Nat) :
    (r.setIdx n).srcAddr = r.srcAddr := rfl
@[simp] theorem Regs.setIdx_srcLen (r : Regs) (n : Nat) :
    (r.setIdx n).srcLen = r.srcLen := rfl
@[simp] theorem Regs.setIdx_dstAddr (r : Regs) (n : Nat) :
    (r.setIdx n).dstAddr = r.dstAddr := rfl
@[simp] theorem Regs.setIdx_dstCap (r : Regs) (n : Nat) :
    (r.setIdx n).dstCap = r.dstCap := rfl
@[simp] theorem Regs.setIdx_resLen (r : Regs) (n : Nat) :
    (r.setIdx n).resLen = r.resLen := rfl
@[simp] theorem Regs.setIdx_remAddr (r : Regs) (n : Nat) :
    (r.setIdx n).remAddr = r.remAddr := rfl
@[simp] theorem Regs.setIdx_remLen (r : Regs) (n : Nat) :
    (r.setIdx n).remLen = r.remLen := rfl
@[simp] theorem Regs.setIdx_accBase (r : Regs) (n : Nat) :
    (r.setIdx n).accBase = r.accBase := rfl
@[simp] theorem Regs.setIdx_accCap (r : Regs) (n : Nat) :
    (r.setIdx n).accCap = r.accCap := rfl
@[simp] theorem Regs.setIdx_accIdx (r : Regs) (n : Nat) :
    (r.setIdx n).accIdx = BitVec.ofNat 32 n := rfl

/-! ### `Regs.bindBuffer` -/

@[simp] theorem Regs.bindBuffer_status (r : Regs) (b c : Word) :
    (r.bindBuffer b c).status = { r.status with accValid := true } := rfl
@[simp] theorem Regs.bindBuffer_srcAddr (r : Regs) (b c : Word) :
    (r.bindBuffer b c).srcAddr = r.srcAddr := rfl
@[simp] theorem Regs.bindBuffer_srcLen (r : Regs) (b c : Word) :
    (r.bindBuffer b c).srcLen = r.srcLen := rfl
@[simp] theorem Regs.bindBuffer_dstAddr (r : Regs) (b c : Word) :
    (r.bindBuffer b c).dstAddr = r.dstAddr := rfl
@[simp] theorem Regs.bindBuffer_dstCap (r : Regs) (b c : Word) :
    (r.bindBuffer b c).dstCap = r.dstCap := rfl
@[simp] theorem Regs.bindBuffer_resLen (r : Regs) (b c : Word) :
    (r.bindBuffer b c).resLen = r.resLen := rfl
@[simp] theorem Regs.bindBuffer_remAddr (r : Regs) (b c : Word) :
    (r.bindBuffer b c).remAddr = r.remAddr := rfl
@[simp] theorem Regs.bindBuffer_remLen (r : Regs) (b c : Word) :
    (r.bindBuffer b c).remLen = r.remLen := rfl
@[simp] theorem Regs.bindBuffer_accBase (r : Regs) (b c : Word) :
    (r.bindBuffer b c).accBase = b := rfl
@[simp] theorem Regs.bindBuffer_accCap (r : Regs) (b c : Word) :
    (r.bindBuffer b c).accCap = c := rfl
@[simp] theorem Regs.bindBuffer_accIdx (r : Regs) (b c : Word) :
    (r.bindBuffer b c).accIdx = 0 := rfl

/-! ### `DataPort.putByte` -/

@[simp] theorem DataPort.putByte_mem (p : DataPort) (a : Nat) (v : Byte) :
    (p.putByte a v).mem = Memory.write p.mem a v := rfl
@[simp] theorem DataPort.putByte_platform (p : DataPort) (a : Nat) (v : Byte) :
    (p.putByte a v).platform = p.platform := rfl
@[simp] theorem DataPort.putByte_draws (p : DataPort) (a : Nat) (v : Byte) :
    (p.putByte a v).draws = p.draws := rfl
@[simp] theorem DataPort.putByte_raced (p : DataPort) (a : Nat) (v : Byte) :
    (p.putByte a v).raced = p.raced := rfl

/-! ### `DataPort.putBytes` -/

@[simp] theorem DataPort.putBytes_mem (p : DataPort) (a : Nat) (bs : List Byte) :
    (p.putBytes a bs).mem = Memory.writeBytes p.mem a bs := rfl
@[simp] theorem DataPort.putBytes_platform (p : DataPort) (a : Nat) (bs : List Byte) :
    (p.putBytes a bs).platform = p.platform := rfl
@[simp] theorem DataPort.putBytes_draws (p : DataPort) (a : Nat) (bs : List Byte) :
    (p.putBytes a bs).draws = p.draws := rfl
@[simp] theorem DataPort.putBytes_raced (p : DataPort) (a : Nat) (bs : List Byte) :
    (p.putBytes a bs).raced = p.raced := rfl

/-! ### `DataPort.unspecified` -/

@[simp] theorem DataPort.unspecified_mem (p : DataPort) (a n : Nat) :
    (p.unspecified a n).mem = freeBytesFrom p.mem a n p.draws := rfl
@[simp] theorem DataPort.unspecified_platform (p : DataPort) (a n : Nat) :
    (p.unspecified a n).platform = p.platform := rfl
@[simp] theorem DataPort.unspecified_draws (p : DataPort) (a n : Nat) :
    (p.unspecified a n).draws = p.draws + n := rfl
@[simp] theorem DataPort.unspecified_raced (p : DataPort) (a n : Nat) :
    (p.unspecified a n).raced = p.raced := rfl

/-! ### `DataPort.unspecifiedRegion` -/

@[simp] theorem DataPort.unspecifiedRegion_mem (p : DataPort) (g : Region) :
    (p.unspecifiedRegion g).mem = freeBytesFrom p.mem g.base.toNat g.len.toNat p.draws := rfl
@[simp] theorem DataPort.unspecifiedRegion_platform (p : DataPort) (g : Region) :
    (p.unspecifiedRegion g).platform = p.platform := rfl
@[simp] theorem DataPort.unspecifiedRegion_draws (p : DataPort) (g : Region) :
    (p.unspecifiedRegion g).draws = p.draws + g.len.toNat := rfl
@[simp] theorem DataPort.unspecifiedRegion_raced (p : DataPort) (g : Region) :
    (p.unspecifiedRegion g).raced = p.raced := rfl

/-! ### `DataPort.drawByte` -/

@[simp] theorem DataPort.drawByte_value (p : DataPort) : p.drawByte.1 = Config.freeByte p.draws := rfl
@[simp] theorem DataPort.drawByte_mem (p : DataPort) : p.drawByte.2.mem = p.mem := rfl
@[simp] theorem DataPort.drawByte_platform (p : DataPort) : p.drawByte.2.platform = p.platform := rfl
@[simp] theorem DataPort.drawByte_draws (p : DataPort) : p.drawByte.2.draws = p.draws + 1 := rfl
@[simp] theorem DataPort.drawByte_raced (p : DataPort) : p.drawByte.2.raced = p.raced := rfl

/-! ### `DataPort.drawWord` -/

@[simp] theorem DataPort.drawWord_value (p : DataPort) : p.drawWord.1 = Config.freeWord p.draws := rfl
@[simp] theorem DataPort.drawWord_mem (p : DataPort) : p.drawWord.2.mem = p.mem := rfl
@[simp] theorem DataPort.drawWord_platform (p : DataPort) : p.drawWord.2.platform = p.platform := rfl
@[simp] theorem DataPort.drawWord_draws (p : DataPort) : p.drawWord.2.draws = p.draws + 1 := rfl
@[simp] theorem DataPort.drawWord_raced (p : DataPort) : p.drawWord.2.raced = p.raced := rfl

/-! ### `State.finish` -/

@[simp] theorem State.finish_regs (s : State) (e : ErrCode) (o : OutCode) :
    (s.finish e o).regs = s.regs.finish e o := rfl
@[simp] theorem State.finish_port (s : State) (e : ErrCode) (o : OutCode) :
    (s.finish e o).port = s.port := rfl
@[simp] theorem State.finish_pending (s : State) (e : ErrCode) (o : OutCode) :
    (s.finish e o).pending = s.pending := rfl
@[simp] theorem State.finish_seen (s : State) (e : ErrCode) (o : OutCode) :
    (s.finish e o).seen = s.seen := rfl

/-! ### `State.raise` -/

@[simp] theorem State.raise_regs (s : State) (e : ErrCode) :
    (s.raise e).regs = s.regs.finish e .ok := rfl
@[simp] theorem State.raise_port (s : State) (e : ErrCode) :
    (s.raise e).port = s.port := rfl
@[simp] theorem State.raise_pending (s : State) (e : ErrCode) :
    (s.raise e).pending = s.pending := rfl
@[simp] theorem State.raise_seen (s : State) (e : ErrCode) :
    (s.raise e).seen = s.seen := rfl

/-! ### `State.illegalCommand` -/

@[simp] theorem State.illegalCommand_regs (s : State) :
    s.illegalCommand.regs = s.regs.finish .illegalCmd .ok := rfl
@[simp] theorem State.illegalCommand_port (s : State) :
    s.illegalCommand.port = s.port := rfl
@[simp] theorem State.illegalCommand_pending (s : State) :
    s.illegalCommand.pending = s.pending := rfl
@[simp] theorem State.illegalCommand_seen (s : State) :
    s.illegalCommand.seen = s.seen := rfl

/-! ### `State.hardReset` -/

@[simp] theorem State.hardReset_regs (s : State) :
    s.hardReset.regs = Regs.reset := rfl
@[simp] theorem State.hardReset_port (s : State) :
    s.hardReset.port = s.port := rfl
@[simp] theorem State.hardReset_pending (s : State) :
    s.hardReset.pending = s.pending := rfl
@[simp] theorem State.hardReset_seen (s : State) :
    s.hardReset.seen = s.seen := rfl

/-! ### `State.setRaced` -/

@[simp] theorem State.setRaced_regs (s : State) (b : Bool) :
    (s.setRaced b).regs = s.regs := rfl
@[simp] theorem State.setRaced_port (s : State) (b : Bool) :
    (s.setRaced b).port = { s.port with raced := b } := rfl
@[simp] theorem State.setRaced_pending (s : State) (b : Bool) :
    (s.setRaced b).pending = s.pending := rfl
@[simp] theorem State.setRaced_seen (s : State) (b : Bool) :
    (s.setRaced b).seen = s.seen := rfl

/-! ### `State.endAppend` -/

@[simp] theorem State.endAppend_regs (s : State) (p : DataPort) (i r a l : Nat) (o : OutCode) :
    (s.endAppend p i r a l o).regs = (((s.regs.setIdx i).setResLen r).setRem (remAddrOf a p).1 l).finish .none o := rfl
@[simp] theorem State.endAppend_port (s : State) (p : DataPort) (i r a l : Nat) (o : OutCode) :
    (s.endAppend p i r a l o).port = (remAddrOf a p).2 := rfl
@[simp] theorem State.endAppend_pending (s : State) (p : DataPort) (i r a l : Nat) (o : OutCode) :
    (s.endAppend p i r a l o).pending = s.pending := rfl
@[simp] theorem State.endAppend_seen (s : State) (p : DataPort) (i r a l : Nat) (o : OutCode) :
    (s.endAppend p i r a l o).seen = s.seen := rfl

/-! ### `remAddrOf`, `State.clobberFootprint` -/

@[simp] theorem remAddrOf_mem (v : Nat) (p : DataPort) : (remAddrOf v p).2.mem = p.mem := by
  unfold remAddrOf; split <;> rfl
@[simp] theorem remAddrOf_platform (v : Nat) (p : DataPort) : (remAddrOf v p).2.platform = p.platform := by
  unfold remAddrOf; split <;> rfl
@[simp] theorem remAddrOf_raced (v : Nat) (p : DataPort) : (remAddrOf v p).2.raced = p.raced := by
  unfold remAddrOf; split <;> rfl
/-- Where a 32-bit register holds the address, REM_ADDR is it and nothing is drawn. -/
theorem remAddrOf_of_lt {v : Nat} (h : v < 2 ^ 32) (p : DataPort) :
    remAddrOf v p = (BitVec.ofNat 32 v, p) := if_pos h
/-- Where no 32-bit register holds the address, REM_ADDR is a free value (log 5). -/
theorem remAddrOf_of_ge {v : Nat} (h : 2 ^ 32 ≤ v) (p : DataPort) : remAddrOf v p = p.drawWord :=
  if_neg (Nat.not_lt.mpr h)

@[simp] theorem State.clobberFootprint_regs (s : State) (f : Option Region) :
    (s.clobberFootprint f).regs = s.regs := by cases f <;> rfl
@[simp] theorem State.clobberFootprint_pending (s : State) (f : Option Region) :
    (s.clobberFootprint f).pending = s.pending := by cases f <;> rfl
@[simp] theorem State.clobberFootprint_seen (s : State) (f : Option Region) :
    (s.clobberFootprint f).seen = s.seen := by cases f <;> rfl
@[simp] theorem State.clobberFootprint_platform (s : State) (f : Option Region) :
    (s.clobberFootprint f).port.platform = s.port.platform := by cases f <;> rfl
@[simp] theorem State.clobberFootprint_raced (s : State) (f : Option Region) :
    (s.clobberFootprint f).port.raced = s.port.raced := by cases f <;> rfl

end Sys2Proof.Machine
end

