-- ==== Sys2Proof/Laws/Memory.lean ====
section
/-! SUPPORT. Data memory is a finite map over free bytes: a read after a write gives the byte written, a
write leaves every other address alone, and every memory operation keeps the canonical form
(`Memory.wf`). -/

namespace Sys2Proof.Machine

/-! ### Reading after writing -/

@[simp] theorem Memory.lookup_nil (a : Nat) : Memory.lookup [] a = none := rfl

theorem Memory.lookup_write (m : List Host.Cell) (a b : Nat) (v : Byte) :
    Memory.lookup (Memory.write m a v) b = if a = b then some v else Memory.lookup m b := by
  induction m with
  | nil => simp [Memory.write, Memory.lookup]
  | cons c m ih =>
    unfold Memory.write
    split
    · simp [Memory.lookup]
    · split
      · next h => rw [h]; by_cases hb : c.1 = b <;> simp [Memory.lookup, hb]
      · next h₁ h₂ =>
        by_cases hc : c.1 = b
        · simp [Memory.lookup, hc]; intro h; omega
        · simp [Memory.lookup, hc, ih]

theorem DataPort.byteAt_putByte (p : DataPort) (a b : Nat) (v : Byte) :
    (p.putByte a v).byteAt b = if a = b then v else p.byteAt b := by
  simp only [DataPort.byteAt, DataPort.putByte_mem, Memory.lookup_write]
  split <;> rfl

@[simp] theorem DataPort.byteAt_putByte_self (p : DataPort) (a : Nat) (v : Byte) :
    (p.putByte a v).byteAt a = v := by simp [DataPort.byteAt_putByte]

theorem DataPort.byteAt_putByte_ne (p : DataPort) {a b : Nat} (v : Byte) (h : a ≠ b) :
    (p.putByte a v).byteAt b = p.byteAt b := by simp [DataPort.byteAt_putByte, h]

/-- What a byte reads as depends on `mem` alone. -/
theorem DataPort.byteAt_congr {p q : DataPort} (h : p.mem = q.mem) (a : Nat) : p.byteAt a = q.byteAt a := by
  simp [DataPort.byteAt, h]

@[simp] theorem DataPort.byteAt_drawByte (p : DataPort) (a : Nat) : p.drawByte.2.byteAt a = p.byteAt a := rfl
@[simp] theorem DataPort.byteAt_drawWord (p : DataPort) (a : Nat) : p.drawWord.2.byteAt a = p.byteAt a := rfl
@[simp] theorem DataPort.byteAt_remAddrOf (v : Nat) (p : DataPort) (a : Nat) :
    (remAddrOf v p).2.byteAt a = p.byteAt a := DataPort.byteAt_congr (by simp) a
@[simp] theorem DataPort.byteAt_setRaced (p : DataPort) (b : Bool) (a : Nat) :
    ({ p with raced := b } : DataPort).byteAt a = p.byteAt a := rfl

/-! ### Sequences of bytes -/

@[simp] theorem DataPort.bytesAt_zero (p : DataPort) (a : Nat) : p.bytesAt a 0 = [] := rfl
theorem DataPort.bytesAt_succ (p : DataPort) (a n : Nat) :
    p.bytesAt a (n + 1) = p.byteAt a :: p.bytesAt (a + 1) n := rfl

@[simp] theorem DataPort.length_bytesAt (p : DataPort) (a n : Nat) : (p.bytesAt a n).length = n := by
  induction n generalizing a with
  | zero => rfl
  | succ n ih => simp [DataPort.bytesAt_succ, ih]

/-- Byte `k` of a sequence is at `a + k` (20_memory.md R46). -/
theorem DataPort.getElem_bytesAt (p : DataPort) (a n k : Nat) (h : k < (p.bytesAt a n).length) :
    (p.bytesAt a n)[k] = p.byteAt (a + k) := by
  induction n generalizing a k with
  | zero => simp at h
  | succ n ih =>
    cases k with
    | zero => simp [DataPort.bytesAt_succ]
    | succ k =>
      simp only [DataPort.bytesAt_succ, List.getElem_cons_succ]
      rw [ih (a + 1) k (by simpa using h)]
      congr 1; omega

theorem DataPort.bytesAt_add (p : DataPort) (a m n : Nat) :
    p.bytesAt a (m + n) = p.bytesAt a m ++ p.bytesAt (a + m) n := by
  induction m generalizing a with
  | zero => simp
  | succ m ih =>
    rw [show m + 1 + n = m + n + 1 by omega, DataPort.bytesAt_succ, DataPort.bytesAt_succ, ih,
      show a + 1 + m = a + (m + 1) by omega]
    rfl

/-- Two ports that agree on the bytes of a range give the same sequence. -/
theorem DataPort.bytesAt_ext {p q : DataPort} {a n : Nat} (h : ∀ k, k < n → p.byteAt (a + k) = q.byteAt (a + k)) :
    p.bytesAt a n = q.bytesAt a n :=
  List.ext_getElem (by simp) fun k h₁ _ => by
    simpa [DataPort.getElem_bytesAt] using h k (by simpa using h₁)

theorem Memory.lookup_writeBytes (m : List Host.Cell) (a : Nat) (bs : List Byte) (b : Nat) :
    Memory.lookup (Memory.writeBytes m a bs) b =
      if a ≤ b ∧ b < a + bs.length then bs[b - a]? else Memory.lookup m b := by
  induction bs generalizing m a with
  | nil => rw [Memory.writeBytes, if_neg (by simp)]
  | cons v bs ih =>
    rw [Memory.writeBytes, ih, Memory.lookup_write, List.length_cons]
    by_cases h₁ : a = b
    · subst h₁; simp
    · by_cases h₂ : a + 1 ≤ b ∧ b < a + 1 + bs.length
      · rw [if_pos h₂, if_pos ⟨by omega, by omega⟩, show b - a = b - (a + 1) + 1 by omega]
        rfl
      · rw [if_neg h₂, if_neg h₁, if_neg (by omega)]

theorem DataPort.byteAt_putBytes_outside (p : DataPort) (a : Nat) (bs : List Byte) {b : Nat}
    (h : b < a ∨ a + bs.length ≤ b) : (p.putBytes a bs).byteAt b = p.byteAt b := by
  simp only [DataPort.byteAt, DataPort.putBytes_mem, Memory.lookup_writeBytes]
  rw [if_neg (by omega)]

@[simp] theorem DataPort.bytesAt_putBytes (p : DataPort) (a : Nat) (bs : List Byte) :
    (p.putBytes a bs).bytesAt a bs.length = bs :=
  List.ext_getElem (by simp) fun k h₁ h₂ => by
    rw [DataPort.getElem_bytesAt]
    simp only [DataPort.byteAt, DataPort.putBytes_mem, Memory.lookup_writeBytes]
    rw [if_pos ⟨by omega, by omega⟩, show a + k - a = k by omega, List.getElem?_eq_getElem h₂]
    rfl

/-! ### Unspecified bytes -/

theorem lookup_freeBytesFrom (m : List Host.Cell) (a len n b : Nat) :
    Memory.lookup (freeBytesFrom m a len n) b =
      if a ≤ b ∧ b < a + len then some (Config.freeByte (n + (b - a))) else Memory.lookup m b := by
  induction len generalizing m a n with
  | zero => rw [freeBytesFrom, if_neg (by omega)]
  | succ len ih =>
    rw [freeBytesFrom, ih, Memory.lookup_write]
    by_cases h₁ : a = b
    · subst h₁; simp
    · by_cases h₂ : a + 1 ≤ b ∧ b < a + 1 + len
      · rw [if_pos h₂, if_pos ⟨by omega, by omega⟩, show n + 1 + (b - (a + 1)) = n + (b - a) by omega]
      · rw [if_neg h₂, if_neg h₁, if_neg (by omega)]

/-- An unspecified byte is a free value of its own: the `k`-th of the range is the `k`-th draw from where
the counter stood (log 4). -/
theorem DataPort.byteAt_unspecified_inside (p : DataPort) (a len : Nat) {k : Nat} (h : k < len) :
    (p.unspecified a len).byteAt (a + k) = Config.freeByte (p.draws + k) := by
  simp only [DataPort.byteAt, DataPort.unspecified_mem, lookup_freeBytesFrom]
  rw [if_pos ⟨by omega, by omega⟩, show a + k - a = k by omega]
  rfl

theorem DataPort.byteAt_unspecified_outside (p : DataPort) (a len : Nat) {b : Nat} (h : b < a ∨ a + len ≤ b) :
    (p.unspecified a len).byteAt b = p.byteAt b := by
  simp only [DataPort.byteAt, DataPort.unspecified_mem, lookup_freeBytesFrom]
  rw [if_neg (by omega)]

/-! ### Regions -/

theorem Region.wellFormed_iff (r : Region) :
    r.wellFormed = true ↔ r.base.toNat + r.len.toNat ≤ Config.addressSpace := by simp [Region.wellFormed]

theorem Region.contains_iff (r : Region) (a : Nat) :
    r.contains a = true ↔ r.base.toNat ≤ a ∧ a < r.base.toNat + r.len.toNat := by simp [Region.contains]

theorem Region.not_contains_iff (r : Region) (a : Nat) :
    r.contains a = false ↔ a < r.base.toNat ∨ r.base.toNat + r.len.toNat ≤ a := by
  rw [← Bool.not_eq_true, Region.contains_iff]; omega

/-- 20_memory.md R42, as two regions that share an address. -/
theorem Region.overlaps_iff (r q : Region) :
    r.overlaps q = true ↔ ∃ a, r.contains a = true ∧ q.contains a = true := by
  simp only [Region.overlaps, Region.contains, Bool.and_eq_true, decide_eq_true_eq]
  constructor
  · intro h; exact ⟨max r.base.toNat q.base.toNat, by omega⟩
  · rintro ⟨a, h₁, h₂⟩; omega

theorem Region.disjoint_of_not_overlaps {r q : Region} (h : r.overlaps q = false) {a : Nat}
    (hr : r.contains a = true) : q.contains a = false := by
  by_contra hq
  have := (Region.overlaps_iff r q).mpr ⟨a, hr, by simpa using hq⟩
  simp [h] at this

/-- Making a region unspecified leaves every byte outside it alone. -/
theorem DataPort.byteAt_unspecifiedRegion_outside (p : DataPort) (r : Region) {a : Nat} (h : r.contains a = false) :
    (p.unspecifiedRegion r).byteAt a = p.byteAt a :=
  p.byteAt_unspecified_outside _ _ ((r.not_contains_iff a).mp h)

/-! ### The canonical form is kept -/

theorem Memory.mem_write {m : List Host.Cell} {a : Nat} {v : Byte} {c : Host.Cell}
    (h : c ∈ Memory.write m a v) : c = (a, v) ∨ c ∈ m := by
  induction m with
  | nil => simpa [Memory.write] using h
  | cons d m ih =>
    unfold Memory.write at h
    split at h
    · simpa using h
    · split at h
      · rcases List.mem_cons.mp h with h | h
        · exact .inl h
        · exact .inr (List.mem_cons_of_mem _ h)
      · rcases List.mem_cons.mp h with h | h
        · exact .inr (by simp [h])
        · exact (ih h).imp_right (List.mem_cons_of_mem _)

theorem Memory.wf_nil : Memory.wf [] := by simp [Memory.wf]

theorem Memory.wf_write {m : List Host.Cell} (h : Memory.wf m) {a : Nat} (ha : a < Config.addressSpace) (v : Byte) :
    Memory.wf (Memory.write m a v) := by
  refine ⟨?_, fun c hc => (Memory.mem_write hc).elim (fun e => e ▸ ha) (h.2 c)⟩
  have hp := h.1
  clear h
  induction m with
  | nil => simp [Memory.write]
  | cons c m ih =>
    obtain ⟨hc, hm⟩ := List.pairwise_cons.mp hp
    unfold Memory.write
    split
    · next hlt =>
      refine List.pairwise_cons.mpr ⟨fun d hd => ?_, hp⟩
      rcases List.mem_cons.mp hd with rfl | hd
      · exact hlt
      · exact Nat.lt_trans hlt (hc d hd)
    · split
      · next heq => exact List.pairwise_cons.mpr ⟨fun d hd => by simpa [heq] using hc d hd, hm⟩
      · next h₁ h₂ =>
        refine List.pairwise_cons.mpr ⟨fun d hd => ?_, ih hm⟩
        rcases Memory.mem_write hd with rfl | hd
        · simp; omega
        · exact hc d hd

theorem Memory.wf_writeBytes {m : List Host.Cell} (h : Memory.wf m) (a : Nat) (bs : List Byte)
    (ha : a + bs.length ≤ Config.addressSpace) : Memory.wf (Memory.writeBytes m a bs) := by
  induction bs generalizing m a with
  | nil => exact h
  | cons b bs ih =>
    simp only [List.length_cons] at ha
    exact ih (Memory.wf_write h (by omega) b) (a + 1) (by omega)

theorem wf_freeBytesFrom {m : List Host.Cell} (h : Memory.wf m) (a len n : Nat)
    (ha : a + len ≤ Config.addressSpace) : Memory.wf (freeBytesFrom m a len n) := by
  induction len generalizing m a n with
  | zero => exact h
  | succ len ih => exact ih (Memory.wf_write h (by omega) _) (a + 1) (n + 1) (by omega)

theorem Memory.lookup_eq_none {m : List Host.Cell} {a : Nat} (h : ∀ c ∈ m, a < c.1) : Memory.lookup m a = none := by
  induction m with
  | nil => rfl
  | cons c m ih =>
    have := h c (by simp)
    rw [Memory.lookup, if_neg (by omega)]
    exact ih fun d hd => h d (by simp [hd])

/-- Equal memories are equal data: two canonical memories that hold the same value at every address are
the same list. -/
theorem Memory.eq_of_lookup_eq {m m' : List Host.Cell} (h : Memory.wf m) (h' : Memory.wf m')
    (e : ∀ a, Memory.lookup m a = Memory.lookup m' a) : m = m' := by
  obtain ⟨hp, -⟩ := h
  obtain ⟨hp', -⟩ := h'
  induction m generalizing m' with
  | nil =>
    cases m' with
    | nil => rfl
    | cons c m' => simpa [Memory.lookup] using e c.1
  | cons c m ih =>
    cases m' with
    | nil => simpa [Memory.lookup] using e c.1
    | cons d m' =>
      obtain ⟨hc, hm⟩ := List.pairwise_cons.mp hp
      obtain ⟨hd, hm'⟩ := List.pairwise_cons.mp hp'
      have key : c.1 = d.1 := by
        rcases Nat.lt_trichotomy c.1 d.1 with hlt | heq | hgt
        · have := e c.1
          rw [Memory.lookup, if_pos rfl, Memory.lookup_eq_none (m := d :: m')] at this
          · simp at this
          · intro x hx
            rcases List.mem_cons.mp hx with rfl | hx
            · exact hlt
            · exact Nat.lt_trans hlt (hd x hx)
        · exact heq
        · have := e d.1
          rw [Memory.lookup_eq_none (m := c :: m), Memory.lookup, if_pos rfl] at this
          · simp at this
          · intro x hx
            rcases List.mem_cons.mp hx with rfl | hx
            · exact hgt
            · exact Nat.lt_trans hgt (hc x hx)
      have hval : c.2 = d.2 := by simpa [Memory.lookup, key] using e c.1
      have hcd : c = d := Prod.ext key hval
      subst hcd
      congr 1
      refine ih (fun a => ?_) hm hm'
      have := e a
      by_cases ha : c.1 = a
      · subst ha
        rw [Memory.lookup_eq_none hc, Memory.lookup_eq_none hd]
      · simpa [Memory.lookup, ha] using this

/-- Reset memory is canonical. -/
theorem Memory.wf_reset : Memory.wf State.reset.port.mem := Memory.wf_nil

end Sys2Proof.Machine
end

