-- ==== Sys2Proof/Laws/Ops.lean ====
section
/-! SUPPORT. What each shared operation can do, once: the access primitives, the checked write, and the
sequencing of a command's pieces. `DataPort.Within R p q` says what a piece of a command may have done to
the data port: changed bytes at addresses of `R` only, drawn free values, and kept the canonical form. -/

namespace Sys2Proof.Machine

/-! ### Sequencing -/

section Run
variable {φ α β : Type}

@[simp] theorem Run.bind_ok (a : α) (p : DataPort) (f : α → DataPort → Run φ β) :
    (Run.ok a p : Run φ α).bind f = f a p := rfl
@[simp] theorem Run.bind_full (x : φ) (p : DataPort) (f : α → DataPort → Run φ β) :
    (Run.full x p : Run φ α).bind f = .full x p := rfl
@[simp] theorem Run.bind_stop (e : Fault) (f : α → DataPort → Run φ β) :
    (Run.stop e : Run φ α).bind f = .stop e := rfl

theorem Run.bind_eq_ok {x : Run φ α} {f : α → DataPort → Run φ β} {b : β} {q : DataPort} :
    x.bind f = .ok b q ↔ ∃ a p, x = .ok a p ∧ f a p = .ok b q := by
  cases x <;> simp

theorem Run.bind_eq_full {x : Run φ α} {f : α → DataPort → Run φ β} {y : φ} {q : DataPort} :
    x.bind f = .full y q ↔ x = .full y q ∨ ∃ a p, x = .ok a p ∧ f a p = .full y q := by
  cases x <;> simp

end Run

/-! ### The access primitives -/

section Access
variable {φ : Type}

/-- MemRead completes: at an address of data memory the platform admits, with the byte memory holds or,
while another agent is in the command's regions, with a free byte (20_memory.md R43, R52). -/
theorem memRead_eq_ok {a : Nat} {p q : DataPort} {b : Byte} (h : (memRead a p : Run φ Byte) = .ok b q) :
    a < Config.addressSpace ∧ p.platform.admits a = true ∧
      ((p.raced = false ∧ b = p.byteAt a ∧ q = p) ∨
        (p.raced = true ∧ b = Config.freeByte p.draws ∧ q = p.drawByte.2)) := by
  unfold memRead at h
  split at h <;> [skip; cases h]
  split at h <;> [skip; cases h]
  split at h <;> cases h <;> simp_all

theorem memRead_ne_full {a : Nat} {p q : DataPort} {x : φ} : (memRead a p : Run φ Byte) ≠ .full x q := by
  unfold memRead; split <;> [split <;> [split; skip]; skip] <;> simp

/-- MemRead at an address of data memory the platform admits, with no other agent in the command's
regions. -/
theorem memRead_quiet {a : Nat} {p : DataPort} (ha : a < Config.addressSpace)
    (hp : p.platform.admits a = true) (hr : p.raced = false) :
    (memRead a p : Run φ Byte) = .ok (p.byteAt a) p := by simp [memRead, ha, hp, hr]

/-- "If the platform's memory does not complete the access, the command does not complete"
(20_memory.md R43). -/
theorem memRead_stuck {a : Nat} {p : DataPort} (ha : a < Config.addressSpace)
    (hp : p.platform.admits a = false) : (memRead a p : Run φ Byte) = .stop (.stuck a) := by
  simp [memRead, ha, hp]

theorem memWrite_eq_ok {a : Nat} {v : Byte} {p q : DataPort} {u : Unit}
    (h : (memWrite a v p : Run φ Unit) = .ok u q) :
    a < Config.addressSpace ∧ p.platform.admits a = true ∧ q = p.putByte a v := by
  unfold memWrite at h
  split at h <;> [skip; cases h]
  split at h <;> cases h
  exact ⟨‹_›, ‹_›, rfl⟩

theorem memWrite_ne_full {a : Nat} {v : Byte} {p q : DataPort} {x : φ} :
    (memWrite a v p : Run φ Unit) ≠ .full x q := by
  unfold memWrite; split <;> [split; skip] <;> simp

theorem memWrite_admitted {a : Nat} {v : Byte} {p : DataPort} (ha : a < Config.addressSpace)
    (hp : p.platform.admits a = true) : (memWrite a v p : Run φ Unit) = .ok () (p.putByte a v) := by
  simp [memWrite, ha, hp]

end Access

/-- The checked write completes: inside the destination region, and there it is a MemWrite
(40_encoder.md R74). -/
theorem outByte_eq_ok {dst : Region} {k : Nat} {v : Byte} {p q : DataPort} {u : Unit}
    (h : outByte dst k v p = .ok u q) :
    k < dst.len.toNat ∧ q = p.putByte (dst.base.toNat + k) v ∧
      dst.base.toNat + k < Config.addressSpace := by
  unfold outByte at h
  split at h <;> [skip; cases h]
  obtain ⟨h₁, -, h₂⟩ := memWrite_eq_ok h
  exact ⟨‹_›, h₂, h₁⟩

/-- The checked write fails: at or past the capacity, with nothing written (40_encoder.md R74). -/
theorem outByte_eq_full {dst : Region} {k : Nat} {v : Byte} {p q : DataPort} {u : Unit}
    (h : outByte dst k v p = .full u q) : dst.len.toNat ≤ k ∧ q = p := by
  unfold outByte at h
  split at h
  · exact absurd h memWrite_ne_full
  · cases h; exact ⟨by omega, rfl⟩

theorem outByte_admitted {dst : Region} {k : Nat} {v : Byte} {p : DataPort} (hk : k < dst.len.toNat)
    (ha : dst.base.toNat + k < Config.addressSpace) (hp : p.platform.admits (dst.base.toNat + k) = true) :
    outByte dst k v p = .ok () (p.putByte (dst.base.toNat + k) v) := by
  rw [outByte, if_pos hk, memWrite_admitted ha hp]

theorem outByte_of_ge {dst : Region} {k : Nat} {v : Byte} {p : DataPort} (hk : dst.len.toNat ≤ k) :
    outByte dst k v p = .full () p := if_neg (by omega)

/-! ### What a piece of a command may do to the data port -/

/-- From `p` to `q`: bytes changed at addresses of `R` only, free values drawn (none unless another agent
is in the command's regions, or bytes were made unspecified), the platform and the race as before, and the
canonical form kept. -/
structure DataPort.Within (R : Nat → Prop) (p q : DataPort) : Prop where
  platform : q.platform = p.platform
  raced : q.raced = p.raced
  draws : p.draws ≤ q.draws
  byteAt : ∀ a, ¬ R a → q.byteAt a = p.byteAt a
  wf : Memory.wf p.mem → Memory.wf q.mem

namespace DataPort.Within
variable {R S : Nat → Prop} {p q r : DataPort}

theorem refl (p : DataPort) : Within R p p := ⟨rfl, rfl, Nat.le_refl _, fun _ _ => rfl, id⟩

theorem trans (h : Within R p q) (k : Within R q r) : Within R p r :=
  ⟨k.platform.trans h.platform, k.raced.trans h.raced, h.draws.trans k.draws,
    fun a ha => (k.byteAt a ha).trans (h.byteAt a ha), fun w => k.wf (h.wf w)⟩

theorem mono (h : Within R p q) (hRS : ∀ a, R a → S a) : Within S p q :=
  ⟨h.platform, h.raced, h.draws, fun a ha => h.byteAt a fun hr => ha (hRS a hr), h.wf⟩

theorem putByte {a : Nat} (ha : a < Config.addressSpace) (hR : R a) (v : Byte) : Within R p (p.putByte a v) :=
  ⟨rfl, rfl, Nat.le_refl _, fun _ hb => p.byteAt_putByte_ne v fun e => hb (e ▸ hR),
    fun w => Memory.wf_write w ha v⟩

theorem drawByte : Within R p p.drawByte.2 := ⟨rfl, rfl, Nat.le_succ _, fun _ _ => rfl, id⟩

theorem unspecified {a n : Nat} (ha : a + n ≤ Config.addressSpace) (hR : ∀ b, a ≤ b → b < a + n → R b) :
    Within R p (p.unspecified a n) :=
  ⟨rfl, rfl, Nat.le_add_right _ _,
    fun b hb => p.byteAt_unspecified_outside a n (by
      by_contra hc; exact hb (hR b (by omega) (by omega))),
    fun w => wf_freeBytesFrom w a n _ ha⟩

theorem remAddrOf (v : Nat) : Within R p (remAddrOf v p).2 := by
  refine ⟨by simp, by simp, ?_, fun a _ => by simp, fun w => by simpa using w⟩
  unfold Machine.remAddrOf; split <;> simp

theorem of_memRead {φ : Type} {a : Nat} {b : Byte} (h : (memRead a p : Run φ Byte) = .ok b q) :
    Within R p q := by
  obtain ⟨-, -, ⟨-, -, rfl⟩ | ⟨-, -, rfl⟩⟩ := memRead_eq_ok h
  · exact refl _
  · exact drawByte

theorem of_memWrite {φ : Type} {a : Nat} {v : Byte} {u : Unit} (h : (memWrite a v p : Run φ Unit) = .ok u q)
    (hR : R a) : Within R p q := by
  obtain ⟨ha, -, rfl⟩ := memWrite_eq_ok h
  exact putByte ha hR v

theorem of_outByte {dst : Region} {k : Nat} {v : Byte} {u : Unit} (h : outByte dst k v p = .ok u q) :
    Within (fun a => dst.contains a = true) p q := by
  obtain ⟨hk, rfl, ha⟩ := outByte_eq_ok h
  exact putByte ha ((dst.contains_iff _).mpr ⟨by omega, by omega⟩) v

end DataPort.Within

end Sys2Proof.Machine
end

