-- ==== Sys2Proof/Laws/Decoder.lean ====
section
/-! SUPPORT. Everything the decoder unit can do to the data port, for any input and output primitive: it
writes where its output primitive writes, at offsets below the input length (spec/41_decoder.md R98), and
gives at most as many bytes as it was given. And everything DECODE_RAW can answer. -/

namespace Sys2Proof.Machine
open DataPort (Within)

section Unit
variable {φ : Type} {R : Nat → Prop} {inp : Nat → DataPort → Run φ Byte}
  {out : Nat → Byte → DataPort → Run φ Unit} {m : Nat}

/-- What the decoder unit needs of its primitives: each, used at an offset below `m`, stays within `R`,
whether it completes or not. -/
structure DecoderPrims (R : Nat → Prop) (m : Nat) (inp : Nat → DataPort → Run φ Byte)
    (out : Nat → Byte → DataPort → Run φ Unit) : Prop where
  inp_ok : ∀ {k p b q}, inp k p = .ok b q → Within R p q
  inp_full : ∀ {k p x q}, inp k p = .full x q → Within R p q
  out_ok : ∀ {k v p u q}, k < m → out k v p = .ok u q → Within R p q
  out_full : ∀ {k v p x q}, k < m → out k v p = .full x q → Within R p q

theorem decImplicitZero_spec (H : DecoderPrims R m inp out) {b : Byte} {r : DecRegs} {p q : DataPort}
    (hr : r.o < m) :
    (∀ o, decImplicitZero out b r p = .ok o q → Within R p q ∧ o ≤ r.o + 1) ∧
      ∀ x, decImplicitZero out b r p = .full x q → Within R p q := by
  unfold decImplicitZero
  split
  · refine ⟨fun o h => ?_, fun x h => ?_⟩
    · obtain ⟨_, _, h₁, h₂⟩ := Run.bind_eq_ok.mp h
      cases h₂
      exact ⟨H.out_ok hr h₁, Nat.le_refl _⟩
    · rcases Run.bind_eq_full.mp h with h | ⟨_, _, _, h⟩
      · exact H.out_full hr h
      · cases h
  · exact ⟨fun o h => by cases h; exact ⟨.refl _, Nat.le_succ _⟩, fun x h => by cases h⟩

theorem decLoop_spec (H : DecoderPrims R m inp out) (left i : Nat) (r : DecRegs) (p q : DataPort)
    (hm : i + left ≤ m) (hr : r.o ≤ i) :
    (∀ st o, decLoop inp out left i r p = .ok (st, o) q → Within R p q ∧ o ≤ i + left) ∧
      ∀ x, decLoop inp out left i r p = .full x q → Within R p q := by
  induction left generalizing i r p with
  | zero => exact ⟨fun st o h => by cases h; exact ⟨.refl _, by omega⟩, fun x h => by cases h⟩
  | succ left ih =>
    refine ⟨fun st o h => ?_, fun x h => ?_⟩
    · obtain ⟨b, p₁, h₁, h⟩ := Run.bind_eq_ok.mp h
      have w₁ := H.inp_ok h₁
      split at h
      · obtain ⟨_, p₂, h₂, h⟩ := Run.bind_eq_ok.mp h
        obtain ⟨w₃, ho⟩ := (ih (i + 1) _ p₂ (by omega) (by dsimp only; omega)).1 st o h
        exact ⟨(w₁.trans (H.out_ok (by omega) h₂)).trans w₃, by omega⟩
      · obtain ⟨o', p₂, h₂, h⟩ := Run.bind_eq_ok.mp h
        obtain ⟨w₂, ho'⟩ := (decImplicitZero_spec H (by omega)).1 o' h₂
        split at h
        · cases h
          exact ⟨w₁.trans w₂, by omega⟩
        · obtain ⟨w₃, ho⟩ := (ih (i + 1) _ p₂ (by omega) (by dsimp only; omega)).1 st o h
          exact ⟨(w₁.trans w₂).trans w₃, by omega⟩
    · rcases Run.bind_eq_full.mp h with h | ⟨b, p₁, h₁, h⟩
      · exact H.inp_full h
      have w₁ := H.inp_ok h₁
      split at h
      · rcases Run.bind_eq_full.mp h with h | ⟨_, p₂, h₂, h⟩
        · exact w₁.trans (H.out_full (by omega) h)
        · exact (w₁.trans (H.out_ok (by omega) h₂)).trans
            ((ih (i + 1) _ p₂ (by omega) (by dsimp only; omega)).2 x h)
      · rcases Run.bind_eq_full.mp h with h | ⟨o', p₂, h₂, h⟩
        · exact w₁.trans ((decImplicitZero_spec H (by omega)).2 x h)
        obtain ⟨w₂, ho'⟩ := (decImplicitZero_spec H (by omega)).1 o' h₂
        split at h
        · cases h
        · exact (w₁.trans w₂).trans ((ih (i + 1) _ p₂ (by omega) (by dsimp only; omega)).2 x h)

theorem decLeadingZero_spec (H : DecoderPrims R m inp out) {len : Nat} {p q : DataPort} :
    (∀ z, decLeadingZero inp len p = .ok z q → Within R p q) ∧
      ∀ x, decLeadingZero inp len p = .full x q → Within R p q := by
  unfold decLeadingZero
  split
  · refine ⟨fun z h => ?_, fun x h => ?_⟩
    · obtain ⟨_, _, h₁, h₂⟩ := Run.bind_eq_ok.mp h
      cases h₂
      exact H.inp_ok h₁
    · rcases Run.bind_eq_full.mp h with h | ⟨_, _, _, h⟩
      · exact H.inp_full h
      · cases h
  · exact ⟨fun z h => by cases h; exact .refl _, fun x h => by cases h⟩

/-- The decoder unit stays where its primitives stay and gives at most `m` bytes. -/
theorem runDecoder_spec (H : DecoderPrims R m inp out) {p q : DataPort} :
    (∀ st o, runDecoder m inp out p = .ok (st, o) q → Within R p q ∧ o ≤ m) ∧
      ∀ x, runDecoder m inp out p = .full x q → Within R p q := by
  refine ⟨fun st o h => ?_, fun x h => ?_⟩
  · obtain ⟨z, p₁, h₁, h⟩ := Run.bind_eq_ok.mp h
    have w₁ := (decLeadingZero_spec H).1 z h₁
    split at h
    · cases h
      exact ⟨w₁, Nat.zero_le _⟩
    · obtain ⟨w₂, ho⟩ := (decLoop_spec H m 0 _ p₁ q (by omega) (Nat.le_refl 0)).1 st o h
      exact ⟨w₁.trans w₂, by omega⟩
  · rcases Run.bind_eq_full.mp h with h | ⟨z, p₁, h₁, h⟩
    · exact (decLeadingZero_spec H).2 x h
    have w₁ := (decLeadingZero_spec H).1 z h₁
    split at h
    · cases h
    · exact w₁.trans ((decLoop_spec H m 0 _ p₁ q (by omega) (Nat.le_refl 0)).2 x h)

end Unit

/-- The primitives of DECODE_RAW stay within the destination region. -/
theorem decodeRaw_prims (src dst : Region) (m : Nat) :
    DecoderPrims (fun a => dst.contains a = true) m (fun k => memRead (src.base.toNat + k)) (outByte dst) where
  inp_ok h := .of_memRead h
  inp_full h := absurd h memRead_ne_full
  out_ok _ h := .of_outByte h
  out_full _ h := (outByte_eq_full h).2 ▸ .refl _

/-- DECODE_RAW's unit writes inside the destination region only, whether it completes or not. -/
theorem runDecodeRaw_within {src dst : Region} {p q : DataPort} :
    (∀ st o, runDecodeRaw src dst p = .ok (st, o) q → Within (fun a => dst.contains a = true) p q) ∧
      ∀ u, runDecodeRaw src dst p = .full u q → Within (fun a => dst.contains a = true) p q :=
  ⟨fun st o h => ((runDecoder_spec (decodeRaw_prims src dst _)).1 st o h).1,
    (runDecoder_spec (decodeRaw_prims src dst _)).2⟩

/-- Everything DECODE_RAW can answer as a next state: refused by a check, complete, malformed, or ended by
a failed destination check. -/
theorem execDecodeRaw_cases {s t : State} (h : execDecodeRaw s = .next t) :
    (∃ e, transformCheck s.regs = some e ∧ t = s.raise e) ∨
      (transformCheck s.regs = none ∧
        ((∃ o p, runDecodeRaw s.regs.srcRegion s.regs.dstRegion s.port = .ok (.ok, o) p ∧
            t = { s with port := p, regs := (s.regs.setResLen o).finish .none .ok }) ∨
          (∃ o p, runDecodeRaw s.regs.srcRegion s.regs.dstRegion s.port = .ok (.malformed, o) p ∧
            t = { s with port := p.unspecifiedRegion s.regs.dstRegion
                         regs := (s.regs.setResLen 0).finish .none .malformedEncoding }) ∨
          (∃ u p, runDecodeRaw s.regs.srcRegion s.regs.dstRegion s.port = .full u p ∧
            t = { s with port := p.unspecifiedRegion s.regs.dstRegion
                         regs := (s.regs.setResLen 0).finish .dstFull .ok }))) := by
  unfold execDecodeRaw at h
  split at h
  · next e he => cases h; exact .inl ⟨e, he, rfl⟩
  · next hc =>
    split at h <;> [cases h; skip]
    refine .inr ⟨hc, ?_⟩
    split at h <;> cases h
    · exact .inl ⟨_, _, ‹_›, rfl⟩
    · exact .inr (.inl ⟨_, _, ‹_›, rfl⟩)
    · exact .inr (.inr ⟨_, _, ‹_›, rfl⟩)

end Sys2Proof.Machine
end

