-- ==== Sys2Proof/Laws/Accumulator.lean ====
section
/-! SUPPORT. Everything the pieces of ACC_APPEND can do to the data port (spec/42_accumulator.md R105,
R107, R111), and everything the three accumulator commands can answer. -/

namespace Sys2Proof.Machine
open DataPort (Within)

variable {src : Region} {p q : DataPort}

/-- The delimiter scan writes nothing. -/
theorem findDelimiter_within {R : Nat → Prop} (left k : Nat) (p : DataPort) {d : Option Nat}
    (h : findDelimiter src left k p = .ok d q) : Within R p q := by
  induction left generalizing k p with
  | zero => cases h; exact .refl _
  | succ left ih =>
    obtain ⟨b, p₁, h₁, h⟩ := Run.bind_eq_ok.mp h
    split at h
    · cases h; exact .of_memRead h₁
    · exact (Within.of_memRead h₁).trans (ih _ _ h)

/-- A delimiter found lies in the chunk. -/
theorem findDelimiter_lt (left k : Nat) (p : DataPort) {d : Nat}
    (h : findDelimiter src left k p = .ok (some d) q) : k ≤ d ∧ d < k + left := by
  induction left generalizing k p with
  | zero => cases h
  | succ left ih =>
    obtain ⟨b, p₁, h₁, h⟩ := Run.bind_eq_ok.mp h
    split at h
    · cases h; omega
    · have := ih _ _ h; omega

/-- The copy writes its `left` bytes only. -/
theorem copyChunk_within (target left k : Nat) (p : DataPort) {u : Unit}
    (h : copyChunk src target left k p = .ok u q) :
    Within (fun a => target + k ≤ a ∧ a < target + k + left) p q := by
  induction left generalizing k p with
  | zero => cases h; exact .refl _
  | succ left ih =>
    obtain ⟨b, p₁, h₁, h⟩ := Run.bind_eq_ok.mp h
    obtain ⟨_, p₂, h₂, h⟩ := Run.bind_eq_ok.mp h
    exact ((Within.of_memRead h₁).trans (.of_memWrite h₂ ⟨by omega, by omega⟩)).trans
      ((ih _ _ h).mono fun a ha => ⟨by omega, by omega⟩)

/-- The primitives of ACC_APPEND's decoding stay within the buffered block. -/
theorem decodeInPlace_prims (base m : Nat) :
    DecoderPrims (φ := Empty) (fun a => base ≤ a ∧ a < base + m) m (fun k => memRead (base + k))
      (fun k v => memWrite (base + k) v) where
  inp_ok h := .of_memRead h
  inp_full h := absurd h memRead_ne_full
  out_ok hk h := .of_memWrite h ⟨by omega, by omega⟩
  out_full _ h := absurd h memWrite_ne_full

/-- Decoding in place writes inside the buffered block and gives at most as many bytes as it holds. -/
theorem decodeInPlace_within {base m o : Nat} {st : Cobs.DecStatus}
    (h : decodeInPlace base m p = .ok (st, o) q) :
    Within (fun a => base ≤ a ∧ a < base + m) p q ∧ o ≤ m :=
  (runDecoder_spec (decodeInPlace_prims base m)).1 st o h

/-- Everything ACC_INIT can answer: a next state always, refused or bound. -/
theorem execAccInit_cases (s : State) :
    (∃ e, initCheck s.regs = some e ∧ execAccInit s = .next (s.raise e)) ∨
      (initCheck s.regs = none ∧ execAccInit s =
        .next { s with regs := (s.regs.bindBuffer s.regs.dstAddr s.regs.dstCap).finish .none .ok }) := by
  unfold execAccInit
  cases h : initCheck s.regs <;> simp

/-- Everything ACC_RESET can answer: a next state always, refused or emptied. -/
theorem execAccReset_cases (s : State) :
    (∃ e, resetCheck s.regs = some e ∧ execAccReset s = .next (s.raise e)) ∨
      (resetCheck s.regs = none ∧ execAccReset s =
        .next { s with regs := (s.regs.setIdx 0).finish .none .ok }) := by
  unfold execAccReset
  cases h : resetCheck s.regs <;> simp

theorem appendWhole_cases {s t : State} (h : appendWhole s p = .next t) :
    (s.regs.accIdx.toNat + s.regs.srcLen.toNat < s.regs.accCap.toNat ∧
        ∃ u q, copyChunk s.regs.srcRegion (s.regs.accBase.toNat + s.regs.accIdx.toNat) s.regs.srcLen.toNat 0 p
            = .ok u q ∧
          t = s.endAppend q (s.regs.accIdx.toNat + s.regs.srcLen.toNat) 0
            (s.regs.srcAddr.toNat + s.regs.srcLen.toNat) 0 .consumed) ∨
      (¬ s.regs.accIdx.toNat + s.regs.srcLen.toNat < s.regs.accCap.toNat ∧
        t = s.endAppend p 0 0 s.regs.srcAddr.toNat s.regs.srcLen.toNat .overflow) := by
  unfold appendWhole at h
  dsimp only [Regs.srcRegion] at h
  split at h
  · next hfit =>
    split at h <;> cases h
    exact .inl ⟨hfit, _, _, ‹_›, rfl⟩
  · next hfit => cases h; exact .inr ⟨hfit, rfl⟩

theorem appendDecode_cases {s t : State} {m ra rl : Nat} (h : appendDecode s m ra rl p = .next t) :
    (∃ o q, decodeInPlace s.regs.accBase.toNat m p = .ok (.ok, o) q ∧
        t = s.endAppend (q.unspecified (s.regs.accBase.toNat + o) (m - o)) 0 o ra rl .frameReady) ∨
      (∃ o q, decodeInPlace s.regs.accBase.toNat m p = .ok (.malformed, o) q ∧
        t = s.endAppend (q.unspecified s.regs.accBase.toNat m) 0 0 ra rl .decodeFailed) := by
  unfold appendDecode at h
  dsimp only at h
  split at h <;> cases h
  · exact .inl ⟨_, _, ‹_›, rfl⟩
  · exact .inr ⟨_, _, ‹_›, rfl⟩

theorem appendDelimited_cases {s t : State} {d : Nat} (h : appendDelimited s d p = .next t) :
    (s.regs.accIdx.toNat + d < s.regs.accCap.toNat ∧
        ∃ u q, copyChunk s.regs.srcRegion (s.regs.accBase.toNat + s.regs.accIdx.toNat) d 0 p = .ok u q ∧
          appendDecode s (s.regs.accIdx.toNat + d) (s.regs.srcAddr.toNat + d + 1)
            (s.regs.srcLen.toNat - d - 1) q = .next t) ∨
      (¬ s.regs.accIdx.toNat + d < s.regs.accCap.toNat ∧
        t = s.endAppend p 0 0 (s.regs.srcAddr.toNat + d + 1) (s.regs.srcLen.toNat - d - 1) .overflow) := by
  unfold appendDelimited at h
  dsimp only [Regs.srcRegion] at h
  split at h
  · next hfit =>
    split at h <;> [skip; cases h]
    exact .inl ⟨hfit, _, _, ‹_›, h⟩
  · next hfit => cases h; exact .inr ⟨hfit, rfl⟩

/-- Everything ACC_APPEND can answer as a next state: refused by a check, an empty chunk, a chunk without a
delimiter, or one with its first delimiter at `d`. -/
theorem execAccAppend_cases {s t : State} (h : execAccAppend s = .next t) :
    (∃ e, appendCheck s.regs = some e ∧ t = s.raise e) ∨
      (appendCheck s.regs = none ∧
        ((s.regs.srcLen.toNat = 0 ∧
            t = s.endAppend s.port s.regs.accIdx.toNat 0 s.regs.srcAddr.toNat 0 .consumed) ∨
          (0 < s.regs.srcLen.toNat ∧
            ((∃ p, findDelimiter s.regs.srcRegion s.regs.srcLen.toNat 0 s.port = .ok none p ∧
                appendWhole s p = .next t) ∨
              (∃ d p, findDelimiter s.regs.srcRegion s.regs.srcLen.toNat 0 s.port = .ok (some d) p ∧
                appendDelimited s d p = .next t))))) := by
  unfold execAccAppend at h
  split at h
  · next e he => cases h; exact .inl ⟨e, he, rfl⟩
  · next hc =>
    refine .inr ⟨hc, ?_⟩
    dsimp only [Regs.srcRegion] at h
    split at h
    · cases h; exact .inl ⟨‹_›, rfl⟩
    · next hl =>
      refine .inr ⟨Nat.pos_of_ne_zero hl, ?_⟩
      split at h <;> [cases h; skip]
      split at h <;> [exact .inl ⟨_, ‹_›, h⟩; exact .inr ⟨_, _, ‹_›, h⟩; cases h]

end Sys2Proof.Machine
end

