-- ==== Sys2Proof/Laws/Encoder.lean ====
section
/-! SUPPORT. Everything the encoder unit can do to the data port: it writes inside the destination region
only (spec/40_encoder.md R74), whether it completes or ends at a failed check. And everything ENCODE can
answer. -/

namespace Sys2Proof.Machine
open DataPort (Within)

variable {src dst : Region} {p q : DataPort}

theorem encCopy_within {b : Byte} {r r' : EncRegs} :
    (encCopy dst b r p = .ok r' q → Within (fun a => dst.contains a = true) p q) ∧
      ∀ u, encCopy dst b r p = .full u q → Within (fun a => dst.contains a = true) p q := by
  unfold encCopy
  split
  · refine ⟨fun h => ?_, fun u h => ?_⟩
    · obtain ⟨_, _, h₁, h₂⟩ := Run.bind_eq_ok.mp h
      cases h₂
      exact .of_outByte h₁
    · rcases Run.bind_eq_full.mp h with h | ⟨_, _, _, h⟩
      · exact (outByte_eq_full h).2 ▸ .refl _
      · cases h
  · refine ⟨fun h => ?_, fun u h => ?_⟩ <;> cases h
    exact .refl _

theorem encClose_within {b : Byte} {more : Bool} {r r' : EncRegs} :
    (encClose dst b more r p = .ok r' q → Within (fun a => dst.contains a = true) p q) ∧
      ∀ u, encClose dst b more r p = .full u q → Within (fun a => dst.contains a = true) p q := by
  unfold encClose
  split
  · refine ⟨fun h => ?_, fun u h => ?_⟩
    · obtain ⟨_, _, h₁, h₂⟩ := Run.bind_eq_ok.mp h
      cases h₂
      exact .of_outByte h₁
    · rcases Run.bind_eq_full.mp h with h | ⟨_, _, _, h⟩
      · exact (outByte_eq_full h).2 ▸ .refl _
      · cases h
  · refine ⟨fun h => ?_, fun u h => ?_⟩ <;> cases h
    exact .refl _

theorem encLoop_within (left i : Nat) (r r' : EncRegs) (p : DataPort) :
    (encLoop src dst left i r p = .ok r' q → Within (fun a => dst.contains a = true) p q) ∧
      ∀ u, encLoop src dst left i r p = .full u q → Within (fun a => dst.contains a = true) p q := by
  induction left generalizing i r p with
  | zero => exact ⟨fun h => by cases h; exact .refl _, fun u h => by cases h⟩
  | succ left ih =>
    refine ⟨fun h => ?_, fun u h => ?_⟩
    · obtain ⟨b, p₁, h₁, h⟩ := Run.bind_eq_ok.mp h
      obtain ⟨r₂, p₂, h₂, h⟩ := Run.bind_eq_ok.mp h
      obtain ⟨r₃, p₃, h₃, h⟩ := Run.bind_eq_ok.mp h
      exact (((Within.of_memRead h₁).trans (encCopy_within.1 h₂)).trans (encClose_within.1 h₃)).trans
        ((ih _ _ _).1 h)
    · rcases Run.bind_eq_full.mp h with h | ⟨b, p₁, h₁, h⟩
      · exact absurd h memRead_ne_full
      rcases Run.bind_eq_full.mp h with h | ⟨r₂, p₂, h₂, h⟩
      · exact (Within.of_memRead h₁).trans ((encCopy_within (r' := r')).2 u h)
      rcases Run.bind_eq_full.mp h with h | ⟨r₃, p₃, h₃, h⟩
      · exact ((Within.of_memRead h₁).trans (encCopy_within.1 h₂)).trans ((encClose_within (r' := r')).2 u h)
      · exact (((Within.of_memRead h₁).trans (encCopy_within.1 h₂)).trans (encClose_within.1 h₃)).trans
          ((ih _ _ _).2 u h)

theorem encFinalCode_within {r : EncRegs} :
    (∀ u, encFinalCode dst r p = .ok u q → Within (fun a => dst.contains a = true) p q) ∧
      ∀ u, encFinalCode dst r p = .full u q → Within (fun a => dst.contains a = true) p q := by
  unfold encFinalCode
  split
  · exact ⟨fun u h => .of_outByte h, fun u h => (outByte_eq_full h).2 ▸ .refl _⟩
  · exact ⟨fun u h => by cases h; exact .refl _, fun u h => by cases h⟩

/-- The encoder unit writes inside the destination region only, whether it completes or not. -/
theorem runEncoder_within :
    (∀ n, runEncoder src dst p = .ok n q → Within (fun a => dst.contains a = true) p q) ∧
      ∀ u, runEncoder src dst p = .full u q → Within (fun a => dst.contains a = true) p q := by
  refine ⟨fun n h => ?_, fun u h => ?_⟩
  · obtain ⟨r, p₁, h₁, h⟩ := Run.bind_eq_ok.mp h
    obtain ⟨_, p₂, h₂, h⟩ := Run.bind_eq_ok.mp h
    obtain ⟨_, p₃, h₃, h⟩ := Run.bind_eq_ok.mp h
    cases h
    exact (((encLoop_within _ _ _ r p).1 h₁).trans (encFinalCode_within.1 _ h₂)).trans (.of_outByte h₃)
  · rcases Run.bind_eq_full.mp h with h | ⟨r, p₁, h₁, h⟩
    · exact (encLoop_within _ _ _ EncRegs.start p).2 u h
    rcases Run.bind_eq_full.mp h with h | ⟨_, p₂, h₂, h⟩
    · exact ((encLoop_within _ _ _ r p).1 h₁).trans (encFinalCode_within.2 u h)
    rcases Run.bind_eq_full.mp h with h | ⟨_, p₃, h₃, h⟩
    · exact (((encLoop_within _ _ _ r p).1 h₁).trans (encFinalCode_within.1 _ h₂)).trans
        ((outByte_eq_full h).2 ▸ .refl _)
    · cases h

/-- A completed run has written its sentinel inside the destination, so its length fits the capacity. -/
theorem runEncoder_length_le {n : Nat} (h : runEncoder src dst p = .ok n q) : n ≤ dst.len.toNat := by
  obtain ⟨r, p₁, _, h⟩ := Run.bind_eq_ok.mp h
  obtain ⟨_, p₂, _, h⟩ := Run.bind_eq_ok.mp h
  obtain ⟨_, p₃, h₃, h⟩ := Run.bind_eq_ok.mp h
  cases h
  exact (outByte_eq_ok h₃).1

/-- Everything ENCODE can answer as a next state: refused by a check, complete, or ended by a failed
destination check. -/
theorem execEncode_cases {s t : State} (h : execEncode s = .next t) :
    (∃ e, transformCheck s.regs = some e ∧ t = s.raise e) ∨
      (transformCheck s.regs = none ∧
        ((∃ n p, runEncoder s.regs.srcRegion s.regs.dstRegion s.port = .ok n p ∧
            t = { s with port := p, regs := (s.regs.setResLen n).finish .none .ok }) ∨
          (∃ u p, runEncoder s.regs.srcRegion s.regs.dstRegion s.port = .full u p ∧
            t = { s with port := p.unspecifiedRegion s.regs.dstRegion
                         regs := (s.regs.setResLen 0).finish .dstFull .ok }))) := by
  unfold execEncode at h
  split at h
  · next e he => cases h; exact .inl ⟨e, he, rfl⟩
  · next hc =>
    split at h <;> [cases h; skip]
    refine .inr ⟨hc, ?_⟩
    split at h <;> cases h
    · exact .inl ⟨_, _, ‹_›, rfl⟩
    · exact .inr ⟨_, _, ‹_›, rfl⟩

end Sys2Proof.Machine
end

