-- ==== Sys2Proof/Laws/PerInstr.lean ====
section
/-! SUPPORT. Facts about every command as syntax, one lemma per constructor: its CMD word is the table's, its
reserved bits are 0, its OP is its row's number, and it is well-formed (spec/30_encoding.md R58, R59). -/

namespace Sys2Proof.Laws.CommandWord

/-- The row number of each command in the opcode map (30_encoding.md R59). -/
def row : Instr → Nat
  | .encode => 1
  | .decodeRaw => 2
  | .accInit => 3
  | .accReset => 4
  | .accAppend => 5

/-- The command's word is its row number: RES is 0 and OP is the number; the command is well-formed. -/
def Statement (i : Instr) : Prop :=
  i.wellFormed = true ∧ fieldRes (Sys2Proof.encode i) = 0 ∧ (fieldOp (Sys2Proof.encode i)).toNat = row i ∧
    (Sys2Proof.encode i).toNat = row i

theorem encode : Statement .encode := by unfold Statement; decide
theorem decodeRaw : Statement .decodeRaw := by unfold Statement; decide
theorem accInit : Statement .accInit := by unfold Statement; decide
theorem accReset : Statement .accReset := by unfold Statement; decide
theorem accAppend : Statement .accAppend := by unfold Statement; decide

end Sys2Proof.Laws.CommandWord
end

