-- ==== Sys2Proof/Tests/Slice0.lean ====
section
/-! SUPPORT. Small tests, each one step on a small state. Expected results are the spec's own: the test
vectors of spec/95_test_vectors.md (named in each test) and the encodings of spec/30_encoding.md R59. Then a
witness for the hypotheses of each statement. -/

namespace Sys2Proof.Tests
open Sys2Proof Sys2Proof.Machine

/-- The next state, if there is one. -/
def after : Host.Outcome State Fault Refusal → Option State
  | .next t => some t
  | .fault _ => none
  | .refused _ => none

/-- The reset state with bytes at an address. -/
def withMem (a : Nat) (bs : List Byte) (s : State) : State := { s with port := s.port.putBytes a bs }

/-- The start state of the ENCODE and DECODE_RAW vectors: source at 0x1000, destination at 0x2000. -/
def transformState (P : List Byte) (cap : Nat) : State :=
  withMem 0x1000 P { State.reset with regs := { Regs.reset with
    srcAddr := 0x1000, srcLen := BitVec.ofNat 32 P.length, dstAddr := 0x2000, dstCap := BitVec.ofNat 32 cap } }

/-- The start state of the ACC_APPEND vectors: buffer at 0x4000 holding `W`, chunk at 0x1000. -/
def appendState (W : List Byte) (cap : Nat) (c : List Byte) : State :=
  withMem 0x1000 c (withMem 0x4000 W { State.reset with regs := { Regs.reset with
    status := { err := .none, outcome := .ok, accValid := true }
    srcAddr := 0x1000, srcLen := BitVec.ofNat 32 c.length
    accBase := 0x4000, accCap := BitVec.ofNat 32 cap, accIdx := BitVec.ofNat 32 W.length } })

/-- STATUS, RES_LEN and the first bytes at an address, after a command. -/
def summary (i : Instr) (s : State) (a n : Nat) : Option (Word × Word × List Byte) :=
  (after (exec i s)).map fun t => (t.regs.status.word, t.regs.resLen, t.port.bytesAt a n)

/-- STATUS, RES_LEN, REM_ADDR, REM_LEN and ACC_IDX after a command. -/
def accSummary (i : Instr) (s : State) : Option (Word × Word × Word × Word × Word) :=
  (after (exec i s)).map fun t =>
    (t.regs.status.word, t.regs.resLen, t.regs.remAddr, t.regs.remLen, t.regs.accIdx)

/-! ### Decoding: words written out from 30_encoding.md R59 -/

theorem test_decode_encode : decode [0x01, 0x00, 0x00, 0x00] = .instr .encode := by decide
theorem test_decode_decodeRaw : decode [0x02, 0x00, 0x00, 0x00] = .instr .decodeRaw := by decide
theorem test_decode_accInit : decode [0x03, 0x00, 0x00, 0x00] = .instr .accInit := by decide
theorem test_decode_accReset : decode [0x04, 0x00, 0x00, 0x00] = .instr .accReset := by decide
theorem test_decode_accAppend : decode [0x05, 0x00, 0x00, 0x00] = .instr .accAppend := by decide
theorem test_decode_reserved : decode [0x15, 0x00, 0x00, 0x00] = .rejected .reservedBitsSet := by decide
theorem test_decode_short : decode [0x01] = .rejected .wrongLength := by decide
theorem test_decodeTableWord : decodeTableWord 32 0x00000005 = some .accAppend := by decide
theorem test_decodeTableWord_illegal : decodeTableWord 32 0x00000006 = none := by decide

/-! ### WellFormed: an ill-formed term for each check, refused -/

theorem test_wellFormed_width : (HostOp.write 1 0x08 (.lit 0)).wellFormed = false := by decide
theorem test_wellFormed_alignment : (HostOp.read 4 0x06).wellFormed = false := by decide
theorem test_wellFormed_storeRange : (HostOp.store 0xFFFFFFFF [0x00, 0x00]).wellFormed = false := by decide
theorem test_wellFormed_loadRange : (HostOp.load 0xFFFFFFFF 2).wellFormed = false := by decide
theorem test_wellFormed_ok : (HostOp.read 4 0x2C).wellFormed = true := by decide

/-! ### The first step after reset: P3's ACC_APPEND is NOT_INIT, E17's ENCODE with C = 0 is DST_FULL -/

theorem test_first_step_append :
    (after (step (State.reset.withFetchWord 32 0x00000005))).map (fun t => t.regs.status.word)
      = some 0x00000002 := by decide
theorem test_first_step_encode :
    (after (step (State.reset.withFetchWord 32 0x00000001))).map (fun t => t.regs.status.word)
      = some 0x00000005 := by decide
theorem test_first_step_decodeRaw :
    (after (step (State.reset.withFetchWord 32 0x00000002))).map (fun t => t.regs.status.word)
      = some 0x00000000 := by decide
theorem test_first_step_init :
    (after (step (State.reset.withFetchWord 32 0x00000003))).map (fun t => t.regs.status.word)
      = some 0x00010000 := by decide
theorem test_first_step_reset :
    (after (step (State.reset.withFetchWord 32 0x00000004))).map (fun t => t.regs.status.word)
      = some 0x00000002 := by decide
/-- P3: `CMD 0x00000015` is ILLEGAL_CMD. -/
theorem test_first_step_illegal :
    (after (step (State.reset.withFetchWord 32 0x00000015))).map (fun t => t.regs.status.word)
      = some 0x00000001 := by decide

/-! ### ENCODE, vectors E6 and E1 of 95_test_vectors.md -/

theorem test_encode_mixed :
    summary .encode (transformState [0x11, 0x22, 0x00, 0x33] 6) 0x2000 6
      = some (0x00000000, 6, [0x03, 0x11, 0x22, 0x02, 0x33, 0x00]) := by decide
theorem test_encode_empty :
    summary .encode (transformState [] 16) 0x2000 2 = some (0x00000000, 2, [0x01, 0x00]) := by decide

/-- E9 of 95_test_vectors.md at its last payload byte: the 254th non-zero byte closes the block with code
0xFF and, no payload being left, reserves no slot (40_encoder.md R71, R72): `cp = o`. -/
theorem test_encode_boundary :
    (match encLoop { base := 0x1000, len := 1 } { base := 0x2000, len := 256 } 1 0
        { code := 254, cp := 0, o := 254 } (transformState [0xFE] 256).port with
      | .ok r p => some (r, p.byteAt 0x2000, p.byteAt 0x20FE)
      | .full _ _ => none
      | .stop _ => none) = some ({ code := 1, cp := 255, o := 255 }, 0xFF, 0xFE) := by decide

/-! ### DECODE_RAW, vectors DR18 and DR22 -/

theorem test_decodeRaw_stops_at_zero_code :
    summary .decodeRaw (transformState [0x02, 0x11, 0x00, 0x77] 16) 0x2000 1
      = some (0x00000000, 1, [0x11]) := by decide
theorem test_decodeRaw_full_wins :
    (summary .decodeRaw (transformState [0x02, 0x11, 0x05, 0x22] 1) 0x2000 0)
      = some (0x00000005, 0, []) := by decide

/-- DR15 and DR16: no implicit zero after code 0xFF, one after code 0xFE (41_decoder.md R91). -/
theorem test_decodeRaw_chaining :
    (match decImplicitZero (outByte { base := 0x2000, len := 300 }) 0x02 { code := 0xFF, block := 0, o := 254 }
        DataPort.reset, decImplicitZero (outByte { base := 0x2000, len := 300 }) 0x02
        { code := 0xFE, block := 0, o := 253 } DataPort.reset with
      | .ok o _, .ok o' p' => some (o, o', p'.byteAt 0x20FD)
      | _, _ => none) = some (254, 254, 0x00) := by decide

/-! ### ACC_INIT and ACC_RESET, vectors I4, I5 and I3 -/

/-- The reset state with the operands of ACC_INIT. -/
def initState (b c : Word) : State :=
  { State.reset with regs := { Regs.reset with dstAddr := b, dstCap := c } }

theorem test_accInit_past_top :
    (after (exec .accInit (initState 0xFFFFFF00 0x101))).map (fun t => (t.regs.status.word, t.regs.accBase))
      = some (0x00000003, 0) := by decide
theorem test_accInit_at_top :
    (after (exec .accInit (initState 0xFFFFFF00 0x100))).map (fun t => (t.regs.status.word, t.regs.accCap))
      = some (0x00010000, 0x100) := by decide
theorem test_accReset :
    accSummary .accReset (appendState [0x02, 0x11, 0x03, 0x04, 0x05] 8 [])
      = some (0x00010000, 0, 0, 0, 0) := by decide

/-! ### ACC_APPEND, vectors A13 (second chunk) and A11 -/

theorem test_append_overflow_with_buffer :
    accSummary .accAppend (appendState [0x03, 0x11] 4 [0x22, 0x33, 0x00, 0x01, 0x00])
      = some (0x00010400, 0, 0x1003, 2, 0) := by decide
theorem test_append_frame :
    summary .accAppend (appendState [] 4 [0x03, 0x11, 0x22, 0x00]) 0x4000 2
      = some (0x00010300, 2, [0x11, 0x22]) := by decide

/-! ### The host's transactions: X7 and R63 -/

theorem test_write_readOnly :
    (after (step { State.reset with pending := [.write 4 0x2C (.lit 5)] })).map (fun t => t.regs.accIdx)
      = some 0 := by decide
theorem test_read_reserved :
    (after (step { State.reset with pending := [.read 4 0x30] })).map (fun t => t.seen)
      = some [.reg 0x30 0] := by decide
theorem test_lastRead :
    (after (step { State.reset with pending := [.write 4 0x08 (.lastRead .remAddr)]
                                    seen := [.reg 0x20 3, .reg 0x1C 0x1004] })).map (fun t => t.regs.srcAddr)
      = some 0x1004 := by decide

/-! ### Witnesses: states and operands that meet every hypothesis of a statement -/

theorem witness_reset_inv : State.reset.Inv := by decide

/-- `StepKeepsInvariant`: a step from a state that meets the invariant. -/
theorem witness_step : ∃ s t : State, s.Inv ∧ step s = .next t :=
  ⟨State.reset.withFetchWord 32 0x00000003, _, by decide, rfl⟩

/-- `HardwareResetClearsRegistersOnly`. -/
theorem witness_hardwareReset : ({ State.reset with pending := [.reset] } : State).pending = .reset :: [] := by decide

/-- `IdleBlockHoldsItsState`. -/
theorem witness_idle : State.reset.pending = [] := by decide

/-- `OperandRegistersReadBackAsWritten`, both clauses. -/
theorem witness_operandWrite : RegName.dstCap ∈ [RegName.srcAddr, .srcLen, .dstAddr, .dstCap] ∧
    ({ State.reset with pending := [.write 4 0x14 (.lit 0xFFFFFFFF)] } : State).pending
      = .write 4 RegName.dstCap.offset (.lit 0xFFFFFFFF) :: [] := by decide
theorem witness_registerRead :
    ({ State.reset with pending := [.read 4 0x2C] } : State).pending = .read 4 RegName.accIdx.offset :: [] := by decide

/-- `ReadOnlyAndReservedOffsets`: a read-only register, the first and last reserved offsets, and CMD. -/
theorem witness_readOnlyWrite :
    RegName.status ∈ [RegName.status, .resLen, .remAddr, .remLen, .accBase, .accCap, .accIdx] ∧
    ({ State.reset with pending := [.write 4 0x04 (.lit 1)] } : State).pending
      = .write 4 RegName.status.offset (.lit 1) :: [] := by decide
theorem witness_reservedWrite : 0x30 ≤ (0x30 : BitVec 8).toNat ∧ (0x30 : BitVec 8).toNat % 4 = 0 ∧
    0x30 ≤ (0xFC : BitVec 8).toNat ∧ (0xFC : BitVec 8).toNat % 4 = 0 := by decide
theorem witness_cmdRead :
    (0x30 ≤ (0x00 : BitVec 8).toNat ∨ (0x00 : BitVec 8) = RegName.cmd.offset) ∧ (0x00 : BitVec 8).toNat % 4 = 0 := by
  decide

/-- `OnlyAlignedWordAccessesHaveMeaning`: a wrong width, and a wrong offset. -/
theorem witness_wrongWidth : (2 : Nat) ≠ 4 ∨ (0x08 : BitVec 8).toNat % 4 ≠ 0 := by decide
theorem witness_wrongOffset : (4 : Nat) ≠ 4 ∨ (0x09 : BitVec 8).toNat % 4 ≠ 0 := by decide

/-- `ResubmitLoadsTheRemainder`. -/
theorem witness_resubmit : ({ State.reset with pending := Pseudo.resubmit.assemble } : State).pending
    = Pseudo.resubmit.assemble ++ [] := by decide

/-- `StepRunsTheDecodedCommand`, both clauses. -/
theorem witness_stepRuns :
    (State.reset.withFetchWord 32 1).pending = .write 4 RegName.cmd.offset (.lit 0x00000001) :: [] ∧
      decode (wordBytes ((HostVal.lit 0x00000001).resolve State.reset).1) = .instr .encode ∧
      decodeTableWord 32 1 = some .encode := by decide

/-- `IllegalWordOnlyReports`: the words on both sides of the table. -/
theorem witness_illegalWords : (0x00000000 : Word).toNat = 0 ∧ 5 < (0x00000006 : Word).toNat := by decide

/-- `RefusedCommandWritesOnlyStatus` and `EveryEndIsOfTheTable`. -/
theorem witness_refused : ∃ t, writeCmd 0x00000004 State.reset = .next t ∧ t.regs.status.err ∈ refusalCodes :=
  ⟨_, rfl, by decide⟩

/-- Two regions for `TransformChecksInOrder`: X5 passes the top of memory, X2 overlaps. -/
def regionState (sa sl da dc : Word) : State :=
  { State.reset with regs := { Regs.reset with srcAddr := sa, srcLen := sl, dstAddr := da, dstCap := dc } }

theorem witness_transformRegion : (regionState 0 0 0xFFFFFFF0 0x20).regs.dstRegion.wellFormed = false := by decide
theorem witness_transformOverlap :
    (regionState 0x1000 4 0x1003 16).regs.srcRegion.wellFormed = true ∧
      (regionState 0x1000 4 0x1003 16).regs.dstRegion.wellFormed = true ∧
      (regionState 0x1000 4 0x1003 16).regs.srcRegion.overlaps (regionState 0x1000 4 0x1003 16).regs.dstRegion
        = true := by decide

/-- The accumulator state of A18 and A20, for `AppendChecksInOrder`. -/
def chunkState (sa sl : Word) : State :=
  { State.reset with regs := { Regs.reset with
    status := { err := .none, outcome := .ok, accValid := true }
    srcAddr := sa, srcLen := sl, accBase := 0x4000, accCap := 8 } }

theorem witness_appendNotInit : State.reset.regs.status.accValid = false := by decide
theorem witness_appendRegion : (chunkState 0xFFFFFFFF 2).regs.status.accValid = true ∧
    (chunkState 0xFFFFFFFF 2).regs.srcRegion.wellFormed = false := by decide
theorem witness_appendOverlap : (chunkState 0x4007 3).regs.status.accValid = true ∧
    (chunkState 0x4007 3).regs.srcRegion.wellFormed = true ∧
    (chunkState 0x4007 3).regs.srcRegion.overlaps (chunkState 0x4007 3).regs.bufRegion = true := by decide

/-- A state whose platform does not answer at the source, for `UnansweredReadIsStuck`, and one whose source
is a device, for `SideEffectRegionIsRefused`. -/
def platformState (holes devices : List Region) : State :=
  { appendState [] 8 [0x02, 0x11, 0x00] with port := { (appendState [] 8 [0x02, 0x11, 0x00]).port with
    platform := { holes := holes, devices := devices } } }

theorem witness_stuck :
    let s := platformState [{ base := 0x1000, len := 1 }] []
    commandCheck .accAppend s.regs = none ∧ commandCheck .encode s.regs = none ∧
      s.port.platform.namesDevice (accessRegions .accAppend s.regs) = false ∧
      s.port.platform.namesDevice (accessRegions .encode s.regs) = false ∧
      0 < s.regs.srcLen.toNat ∧ s.port.platform.admits s.regs.srcAddr.toNat = false := by decide
theorem witness_device :
    let s := platformState [] [{ base := 0x1002, len := 4 }]
    commandCheck .accAppend s.regs = none ∧
      s.port.platform.namesDevice (accessRegions .accAppend s.regs) = true := by decide

/-- `EncodeWritesEncodedPayload` at the exact capacity (E14), `EncodeDestinationFull` one short (E15). -/
theorem witness_encodeFits : (transformState [0x11, 0x22, 0x00, 0x33] 6).TransformReady ∧
    (Cobs.encodeOut (transformState [0x11, 0x22, 0x00, 0x33] 6).sourceBytes).length
      ≤ (transformState [0x11, 0x22, 0x00, 0x33] 6).regs.dstCap.toNat := by decide
theorem witness_encodeFull : (transformState [0x11, 0x22, 0x00, 0x33] 5).TransformReady ∧
    (transformState [0x11, 0x22, 0x00, 0x33] 5).regs.dstCap.toNat
      < (Cobs.encodeOut (transformState [0x11, 0x22, 0x00, 0x33] 5).sourceBytes).length := by decide

/-- `DecodeRawGivesDecodedPayload`: OK at the exact capacity (DR19) and MALFORMED (DR6);
`DecodeRawDestinationFull` one short (DR20). -/
theorem witness_decodeOk : (transformState [0x03, 0x11, 0x22, 0x02, 0x33] 4).TransformReady ∧
    Cobs.decodeRaw (transformState [0x03, 0x11, 0x22, 0x02, 0x33] 4).sourceBytes
      = (.ok, [0x11, 0x22, 0x00, 0x33]) ∧
    [0x11, 0x22, 0x00, (0x33 : Byte)].length ≤ (transformState [0x03, 0x11, 0x22, 0x02, 0x33] 4).regs.dstCap.toNat := by
  decide
theorem witness_decodeMalformed : (transformState [0x05, 0x11] 1).TransformReady ∧
    Cobs.decodeRaw (transformState [0x05, 0x11] 1).sourceBytes = (.malformed, [0x11]) ∧
    [(0x11 : Byte)].length ≤ (transformState [0x05, 0x11] 1).regs.dstCap.toNat := by decide
theorem witness_decodeFull : (transformState [0x03, 0x11, 0x22, 0x02, 0x33] 3).TransformReady ∧
    (transformState [0x03, 0x11, 0x22, 0x02, 0x33] 3).regs.dstCap.toNat
      < (Cobs.decodeRaw (transformState [0x03, 0x11, 0x22, 0x02, 0x33] 3).sourceBytes).2.length := by decide

/-- `FailedTransformLeavesFreeBytes`: DST_FULL of both, and MALFORMED_ENCODING. -/
theorem witness_freeAfterFull : ∃ t, exec .encode (transformState [] 1) = .next t ∧
    (transformState [] 1).port.raced = false ∧ t.regs.status.err = .dstFull := ⟨_, rfl, by decide, by decide⟩
theorem witness_freeAfterMalformed : ∃ t, exec .decodeRaw (transformState [0x00] 1) = .next t ∧
    (transformState [0x00] 1).port.raced = false ∧ t.regs.status.err = .none ∧
    t.regs.status.outcome = .malformedEncoding := ⟨_, rfl, by decide, by decide, by decide⟩

/-- `AccInitBindsTheBuffer` at the top of memory and past it (I5, I4). -/
theorem witness_init : (0xFFFFFF00 : Word).toNat + (0x100 : Word).toNat ≤ 2 ^ 32 ∧
    2 ^ 32 < (0xFFFFFF00 : Word).toNat + (0x101 : Word).toNat := by decide

/-- `AccResetEmptiesTheAccumulator`, both clauses. -/
theorem witness_accReset : (chunkState 0 0).regs.status.accValid = true ∧ State.reset.regs.status.accValid = false := by
  decide

/-- `AppendOfEmptyChunk` (A1). -/
theorem witness_appendEmpty : (appendState [] 16 []).regs.status.accValid = true ∧
    (appendState [] 16 []).regs.srcLen = 0 := by decide

/-- `AppendConsumesFittingChunk` (A9). -/
theorem witness_appendConsumes :
    let s := appendState [] 4 [0x02, 0x11, 0x03]
    s.AppendReady ∧ 0 < s.regs.srcLen.toNat ∧ Cobs.delimiterOffset s.sourceBytes = none ∧
      s.regs.accIdx.toNat + s.regs.srcLen.toNat < s.regs.accCap.toNat := by decide

/-- `AppendOverflowsWithoutDelimiter` and `OversizedChunkOverflowsForEver` (A10). -/
theorem witness_appendOverflows :
    let s := appendState [] 3 [0x02, 0x11, 0x03]
    s.AppendReady ∧ 0 < s.regs.srcLen.toNat ∧ Cobs.delimiterOffset s.sourceBytes = none ∧
      s.regs.accCap.toNat ≤ s.regs.accIdx.toNat + s.regs.srcLen.toNat ∧
      s.regs.accCap.toNat ≤ s.regs.srcLen.toNat := by decide

/-- `AppendOverflowsAtDelimiter` (A12). -/
theorem witness_appendOverflowsDelimited :
    let s := appendState [] 3 [0x03, 0x11, 0x22, 0x00, 0x02, 0x33]
    s.AppendReady ∧ Cobs.delimiterOffset s.sourceBytes = some 3 ∧
      s.regs.accCap.toNat ≤ s.regs.accIdx.toNat + 3 := by decide

/-- `AppendDeliversFrame` (A4, second chunk; A11's `d = cap - 1`). -/
theorem witness_appendFrame :
    let s := appendState [0x03, 0x11] 4 [0x22, 0x00]
    s.AppendReady ∧ Cobs.delimiterOffset s.sourceBytes = some 1 ∧
      s.regs.accIdx.toNat + 1 < s.regs.accCap.toNat ∧
      Cobs.decodeRaw (s.bufferedBytes ++ s.sourceBytes.take 1) = (.ok, [0x11, 0x22]) := by decide

/-- `AppendReportsDecodeFailure` (A8). -/
theorem witness_appendFails :
    let s := appendState [] 16 [0x05, 0x11, 0x00]
    s.AppendReady ∧ Cobs.delimiterOffset s.sourceBytes = some 2 ∧
      s.regs.accIdx.toNat + 2 < s.regs.accCap.toNat ∧
      (Cobs.decodeRaw (s.bufferedBytes ++ s.sourceBytes.take 2)).1 = .malformed := by decide

/-- `AppendLeavesFreeBytes`: after a frame and after a failure. -/
theorem witness_freeAfterFrame : ∃ t, exec .accAppend (appendState [] 4 [0x02, 0x11, 0x00]) = .next t ∧
    Cobs.delimiterOffset (appendState [] 4 [0x02, 0x11, 0x00]).sourceBytes = some 2 ∧
    t.regs.status.err = .none ∧ t.regs.status.outcome = .frameReady ∧ t.regs.resLen.toNat + 0 < 0 + 2 :=
  ⟨_, rfl, by decide, by decide, by decide, by decide⟩
theorem witness_freeAfterFailure : ∃ t, exec .accAppend (appendState [] 4 [0x05, 0x11, 0x00]) = .next t ∧
    t.regs.status.err = .none ∧ t.regs.status.outcome = .decodeFailed := ⟨_, rfl, by decide, by decide⟩

/-- `BareDelimiterGivesEmptyFrame` at capacity 1 (A15). -/
theorem witness_bareDelimiter :
    let s := appendState [] 1 [0x00]
    s.AppendReady ∧ s.regs.accIdx = 0 ∧ 1 ≤ s.regs.accCap.toNat ∧ 0 < s.regs.srcLen.toNat ∧
      s.port.byteAt s.regs.srcAddr.toNat = 0x00 := by decide

/-- `RemainderPastTopOfMemoryIsFree`: the chunk is the last byte of memory, a bare delimiter. -/
def topState : State :=
  withMem 0xFFFFFFFF [0x00] { chunkState 0xFFFFFFFF 1 with pending := [] }
theorem witness_topOfMemory : topState.AppendReady ∧ 0 < topState.regs.srcLen.toNat ∧
    topState.regs.srcAddr.toNat + topState.regs.srcLen.toNat = 2 ^ 32 ∧
    (after (exec .accAppend topState)).map (fun t => t.regs.remLen) = some 0 := by decide

/-- `AppendKeepsBufferZeroFree`. -/
theorem witness_zeroFree : ∃ t, exec .accAppend (appendState [0x03] 4 [0x11]) = .next t ∧
    (appendState [0x03] 4 [0x11]).port.raced = false ∧ (0x00 : Byte) ∉ (appendState [0x03] 4 [0x11]).bufferedBytes :=
  ⟨_, rfl, by decide, by decide⟩

/-- `StuffedLength` and `StuffAtTheBlockBoundary`: a zero-free payload of 254 bytes. -/
theorem witness_boundary : (List.replicate 254 (0x01 : Byte)).length = 254 ∧
    (0x00 : Byte) ∉ List.replicate 254 (0x01 : Byte) ∧ (0x01 : Byte) ≠ 0x00 :=
  ⟨List.length_replicate, fun h => absurd (List.eq_of_mem_replicate h) (by decide), by decide⟩

/-- `FrameFitsExactly` and `ChunkingInvariance`: `[11 22]` in two chunks. -/
theorem witness_chunks : [[0x03, 0x11], [], [(0x22 : Byte)]].flatten = Cobs.stuff [0x11, 0x22] ∧
    (Cobs.stuff [0x11, 0x22]).length + 1 ≤ 4 ∧
    [[0x03, 0x11], [], [(0x22 : Byte)]].flatten ++ [0x00] = Cobs.encodeOut [0x11, 0x22] ∧
    [(0x00 : Byte)] ≠ [] := by decide

/-- A next state for each command, for the rules about the whole machine. -/
theorem witness_next : (after (exec .encode (transformState [] 2))).isSome = true ∧
    (after (exec .decodeRaw (transformState [] 2))).isSome = true ∧
    (after (exec .accInit State.reset)).isSome = true ∧ (after (exec .accReset (chunkState 0 0))).isSome = true ∧
    (after (exec .accAppend (appendState [] 4 [0x01, 0x00]))).isSome = true := by decide

/-- `ResultLengthRule` and `RemainderRule`: each antecedent is met by some run. -/
theorem witness_resultLength :
    (after (exec .accAppend (appendState [] 4 [0x01]))).map (fun t => (t.regs.status.err, t.regs.status.outcome))
      = some (.none, .consumed) ∧
    (after (exec .accAppend (appendState [] 1 [0x01]))).map (fun t => (t.regs.status.err, t.regs.status.outcome))
      = some (.none, .overflow) ∧
    (after (exec .encode (transformState [] 1))).map (fun t => (t.regs.status.err, t.regs.status.outcome))
      = some (.dstFull, .ok) := by decide

/-- `ResultDependsOnReadRegionsOnly`: another memory that agrees on the payload. -/
theorem witness_otherMemory :
    let s := transformState [0x11] 3
    let m := Memory.write s.port.mem 0x3000 0x77
    (∀ r ∈ commandReads .encode s.regs, r = s.regs.srcRegion) ∧
      ({ s.port with mem := m } : DataPort).byteAt 0x1000 = s.port.byteAt 0x1000 ∧
      (after (exec .encode s)).isSome = true := by decide

/-- `OnlyInitAndResetRebind`: ACC_INIT changes the binding. -/
theorem witness_rebind : ∃ t, step ((initState 0x4000 8).withFetchWord 32 3) = .next t ∧
    t.regs.accBase ≠ (initState 0x4000 8).regs.accBase := ⟨_, rfl, by decide⟩

/-- `OnlyCmdWritesRunCommands`: a register write, and a host store. -/
theorem witness_notCmd : (HostOp.write 4 0x08 (.lit 1)).writesCmd = none ∧
    (HostOp.write 4 0x08 (.lit 1)).resets = false ∧ (HostOp.store 0x1000 [0x01]).writesCmd = none ∧
    (after (step { State.reset with pending := [.write 4 0x08 (.lit 1)] })).isSome = true := by decide

/-- `HostStoreIsSeen` at the last byte of memory. -/
theorem witness_store : (0xFFFFFFFF : Word).toNat + [(0x01 : Byte)].length ≤ 2 ^ 32 ∧
    State.reset.port.AdmitsRange (0xFFFFFFFF : Word).toNat 1 ∧
    State.reset.port.platform.deviceIn (0xFFFFFFFF : Word).toNat 1 = false := by decide

/-- A state whose next transaction is an ENCODE during which reset is asserted. -/
def cmdResetState (cap : Nat) : State :=
  { transformState [0x11] cap with pending := [.cmdReset (.lit (encode .encode))] }

/-- `ResetDuringCommandAbandonsIt`, a command past its checks: it has a footprint. -/
theorem witness_cmdReset :
    (cmdResetState 3).pending = [.cmdReset (.lit (encode .encode))] ∧
    commandCheck .encode (cmdResetState 3).regs = none ∧
    (cmdResetState 3).port.platform.namesDevice (accessRegions .encode (cmdResetState 3).regs) = false ∧
    writeFootprint .encode (cmdResetState 3).regs = some { base := 0x2000, len := 3 } := by decide

/-- `ResetDuringCommandAbandonsIt`, a command its checks refuse (the destination passes the top of memory):
it has none. -/
theorem witness_cmdReset_refused :
    (cmdResetState 0xFFFFFFFF).pending = [.cmdReset (.lit (encode .encode))] ∧
    commandCheck .encode (cmdResetState 0xFFFFFFFF).regs = some .region ∧
    writeFootprint .encode (cmdResetState 0xFFFFFFFF).regs = none := by decide

/-- `RacedCommandLeavesFreeFootprint`: a raced command that ends whatever its reads return. -/
theorem witness_raced : ∃ t, step { transformState [] 2 with pending := [.cmdRaced (.lit (encode .encode))] }
    = .next t ∧ writeFootprint .encode (transformState [] 2).regs = some { base := 0x2000, len := 2 } :=
  ⟨_, rfl, by decide⟩

end Sys2Proof.Tests
end

section
/-! Reset, the invariant, the register window, and who writes which register. `CommandEnd` says once what a
command can end with and `HostEnd` what a transaction can; each rule about the whole machine is a case
analysis over one of them. -/

namespace Sys2Proof.Machine
open DataPort (Within)

/-! ### What a command can end with -/

theorem transformCheck_eq_none {r : Regs} : transformCheck r = none ↔
    r.srcRegion.wellFormed = true ∧ r.dstRegion.wellFormed = true ∧ r.srcRegion.overlaps r.dstRegion = false := by
  unfold transformCheck
  cases r.srcRegion.wellFormed <;> cases r.dstRegion.wellFormed <;> simp

theorem initCheck_eq_none {r : Regs} : initCheck r = none ↔ r.dstRegion.wellFormed = true := by
  unfold initCheck
  split_ifs <;> simp_all

theorem resetCheck_eq_none {r : Regs} : resetCheck r = none ↔ r.status.accValid = true := by
  unfold resetCheck
  split_ifs <;> simp_all

theorem appendCheck_eq_none {r : Regs} : appendCheck r = none ↔
    r.status.accValid = true ∧ r.srcRegion.wellFormed = true ∧ r.srcRegion.overlaps r.bufRegion = false := by
  unfold appendCheck
  split_ifs <;> simp_all

theorem transformCheck_eq_some {r : Regs} {e : ErrCode} (h : transformCheck r = some e) :
    e = .region ∨ e = .overlap := by
  unfold transformCheck at h
  split_ifs at h <;> cases h
  · exact .inl rfl
  · exact .inr rfl

theorem initCheck_eq_some {r : Regs} {e : ErrCode} (h : initCheck r = some e) : e = .region := by
  unfold initCheck at h
  split_ifs at h; cases h; rfl

theorem resetCheck_eq_some {r : Regs} {e : ErrCode} (h : resetCheck r = some e) : e = .notInit := by
  unfold resetCheck at h
  split_ifs at h; cases h; rfl

theorem appendCheck_eq_some {r : Regs} {e : ErrCode} (h : appendCheck r = some e) :
    e = .notInit ∨ e = .region ∨ e = .overlap := by
  unfold appendCheck at h
  split_ifs at h <;> cases h
  · exact .inl rfl
  · exact .inr (.inl rfl)
  · exact .inr (.inr rfl)

/-- A check made before any memory access fails with NOT_INIT, REGION or OVERLAP only
(60_exceptions.md R134). -/
theorem commandCheck_eq_some {i : Instr} {r : Regs} {e : ErrCode} (h : commandCheck i r = some e) :
    e = .notInit ∨ e = .region ∨ e = .overlap := by
  cases i with
  | encode => exact .inr (transformCheck_eq_some h)
  | decodeRaw => exact .inr (transformCheck_eq_some h)
  | accInit => exact .inr (.inl (initCheck_eq_some h))
  | accReset => exact .inl (resetCheck_eq_some h)
  | accAppend => exact appendCheck_eq_some h

theorem DataPort.Within.unspecifiedRegion {p : DataPort} {g : Region} (hg : g.wellFormed = true) :
    Within (fun a => g.contains a = true) p (p.unspecifiedRegion g) :=
  .unspecified ((g.wellFormed_iff).mp hg) fun _ h₁ h₂ => (g.contains_iff _).mpr ⟨h₁, h₂⟩

theorem Regs.bufRegion_wellFormed_iff (r : Regs) : r.bufRegion.wellFormed = true ↔
    r.accBase.toNat + r.accCap.toNat ≤ Config.addressSpace := r.bufRegion.wellFormed_iff

theorem Regs.bufRegion_contains_iff (r : Regs) (a : Nat) : r.bufRegion.contains a = true ↔
    r.accBase.toNat ≤ a ∧ a < r.accBase.toNat + r.accCap.toNat := r.bufRegion.contains_iff a

/-- Where ACC_APPEND leaves the cursor and the port past its checks: emptied, both as before (an empty
chunk), or advanced over a chunk without a delimiter that was copied (42_accumulator.md R104 to R113). -/
inductive AppendCursor (s : State) : Nat → DataPort → Prop where
  | emptied (q : DataPort) : AppendCursor s 0 q
  | kept : AppendCursor s s.regs.accIdx.toNat s.port
  | advanced {p q : DataPort} {u : Unit}
      (scan : findDelimiter s.regs.srcRegion s.regs.srcLen.toNat 0 s.port = .ok none p)
      (copy : copyChunk s.regs.srcRegion (s.regs.accBase.toNat + s.regs.accIdx.toNat) s.regs.srcLen.toNat 0 p
        = .ok u q)
      (fits : s.regs.accIdx.toNat + s.regs.srcLen.toNat < s.regs.accCap.toNat) :
      AppendCursor s (s.regs.accIdx.toNat + s.regs.srcLen.toNat) q

/-- Everything a command can answer as a next state, one constructor a kind of ending: which registers it
has written, with what, and where it may have changed memory. -/
inductive CommandEnd (s : State) : Instr → State → Prop where
  /-- A check failed: only STATUS is written. -/
  | refused {i : Instr} {e : ErrCode} (check : commandCheck i s.regs = some e) : CommandEnd s i (s.raise e)
  /-- A transform ran to its end with `n` bytes written. -/
  | transformed {i : Instr} {n : Nat} {p : DataPort} (hi : i = .encode ∨ i = .decodeRaw)
      (check : transformCheck s.regs = none)
      (within : Within (fun a => s.regs.dstRegion.contains a = true) s.port p) :
      CommandEnd s i { s with port := p, regs := (s.regs.setResLen n).finish .none .ok }
  /-- A transform failed: DST_FULL or MALFORMED_ENCODING. -/
  | failed {i : Instr} {e : ErrCode} {o : OutCode} {p : DataPort} (hi : i = .encode ∨ i = .decodeRaw)
      (check : transformCheck s.regs = none)
      (reason : (e = .dstFull ∧ o = .ok) ∨ (e = .none ∧ o = .malformedEncoding))
      (within : Within (fun a => s.regs.dstRegion.contains a = true) s.port p) :
      CommandEnd s i { s with port := p, regs := (s.regs.setResLen 0).finish e o }
  /-- ACC_INIT bound the working buffer. -/
  | bound (check : initCheck s.regs = none) :
      CommandEnd s .accInit
        { s with regs := (s.regs.bindBuffer s.regs.dstAddr s.regs.dstCap).finish .none .ok }
  /-- ACC_RESET emptied the accumulator. -/
  | emptied (check : resetCheck s.regs = none) :
      CommandEnd s .accReset { s with regs := (s.regs.setIdx 0).finish .none .ok }
  /-- ACC_APPEND ran with a remainder of `rem` bytes, the tail of the chunk. Its writes are inside the
  working buffer; where that passes the top of memory, the canonical form may be lost. -/
  | appended {idx res rem : Nat} {o : OutCode} {q : DataPort} (check : appendCheck s.regs = none)
      (rem_le : rem ≤ s.regs.srcLen.toNat)
      (outcome : o = .frameReady ∨ (res = 0 ∧ (o = .consumed ∨ o = .overflow ∨ o = .decodeFailed)))
      (cursor : AppendCursor s idx q)
      (within : s.regs.bufRegion.wellFormed = true →
        Within (fun a => s.regs.bufRegion.contains a = true) s.port q) :
      CommandEnd s .accAppend
        (s.endAppend q idx res (s.regs.srcAddr.toNat + (s.regs.srcLen.toNat - rem)) rem o)

theorem execEncode_end {s t : State} (h : execEncode s = .next t) : CommandEnd s .encode t := by
  obtain ⟨e, hc, rfl⟩ | ⟨hc, ⟨n, p, hrun, rfl⟩ | ⟨u, p, hrun, rfl⟩⟩ := execEncode_cases h
  · exact .refused hc
  · exact .transformed (.inl rfl) hc (runEncoder_within.1 n hrun)
  · exact .failed (.inl rfl) hc (.inl ⟨rfl, rfl⟩)
      ((runEncoder_within.2 u hrun).trans (.unspecifiedRegion (transformCheck_eq_none.mp hc).2.1))

theorem execDecodeRaw_end {s t : State} (h : execDecodeRaw s = .next t) : CommandEnd s .decodeRaw t := by
  obtain ⟨e, hc, rfl⟩ | ⟨hc, ⟨o, p, hrun, rfl⟩ | ⟨o, p, hrun, rfl⟩ | ⟨u, p, hrun, rfl⟩⟩ := execDecodeRaw_cases h
  · exact .refused hc
  all_goals have hdst := (transformCheck_eq_none.mp hc).2.1
  · exact .transformed (.inr rfl) hc (runDecodeRaw_within.1 _ o hrun)
  · exact .failed (.inr rfl) hc (.inr ⟨rfl, rfl⟩) ((runDecodeRaw_within.1 _ o hrun).trans (.unspecifiedRegion hdst))
  · exact .failed (.inr rfl) hc (.inl ⟨rfl, rfl⟩) ((runDecodeRaw_within.2 u hrun).trans (.unspecifiedRegion hdst))

theorem execAccInit_end {s t : State} (h : execAccInit s = .next t) : CommandEnd s .accInit t := by
  obtain ⟨e, hc, heq⟩ | ⟨hc, heq⟩ := execAccInit_cases s <;> rw [heq] at h <;> cases h
  · exact .refused hc
  · exact .bound hc

theorem execAccReset_end {s t : State} (h : execAccReset s = .next t) : CommandEnd s .accReset t := by
  obtain ⟨e, hc, heq⟩ | ⟨hc, heq⟩ := execAccReset_cases s <;> rw [heq] at h <;> cases h
  · exact .refused hc
  · exact .emptied hc

/-- A copy to the cursor that fits stays inside the working buffer. -/
theorem copyChunk_within_buffer {r : Regs} {n : Nat} {p q : DataPort} {u : Unit}
    (h : copyChunk r.srcRegion (r.accBase.toNat + r.accIdx.toNat) n 0 p = .ok u q)
    (fits : r.accIdx.toNat + n < r.accCap.toNat) :
    Within (fun a => r.bufRegion.contains a = true) p q :=
  (copyChunk_within _ _ _ _ h).mono fun a _ => (r.bufRegion_contains_iff a).mpr ⟨by omega, by omega⟩

theorem appendWhole_end {s t : State} {p : DataPort} (hc : appendCheck s.regs = none)
    (scan : findDelimiter s.regs.srcRegion s.regs.srcLen.toNat 0 s.port = .ok none p)
    (h : appendWhole s p = .next t) : CommandEnd s .accAppend t := by
  obtain ⟨fits, u, q, copy, rfl⟩ | ⟨-, rfl⟩ := appendWhole_cases h
  · exact .appended (rem := 0) hc (Nat.zero_le _) (.inr ⟨rfl, .inl rfl⟩) (.advanced scan copy fits)
      fun _ => (findDelimiter_within _ _ _ scan).trans (copyChunk_within_buffer copy fits)
  · have hend := CommandEnd.appended (o := .overflow) hc (Nat.le_refl _) (.inr ⟨rfl, .inr (.inl rfl)⟩) (.emptied p)
      fun _ => findDelimiter_within _ _ _ scan
    rwa [Nat.sub_self, Nat.add_zero] at hend

/-- The bytes made unspecified past a delivered frame, or after a failed decoding, lie in the working
buffer. -/
theorem unspecified_within_buffer {r : Regs} {p : DataPort} {o n : Nat} (hb : r.bufRegion.wellFormed = true)
    (fits : o + n ≤ r.accCap.toNat) :
    Within (fun a => r.bufRegion.contains a = true) p (p.unspecified (r.accBase.toNat + o) n) := by
  have inMemory := r.bufRegion_wellFormed_iff.mp hb
  exact .unspecified (by omega) fun b _ _ => (r.bufRegion_contains_iff b).mpr ⟨by omega, by omega⟩

theorem appendDecode_end {s t : State} {m rem : Nat} {p : DataPort} (hc : appendCheck s.regs = none)
    (rem_le : rem ≤ s.regs.srcLen.toNat) (fits : m < s.regs.accCap.toNat)
    (hp : Within (fun a => s.regs.bufRegion.contains a = true) s.port p)
    (h : appendDecode s m (s.regs.srcAddr.toNat + (s.regs.srcLen.toNat - rem)) rem p = .next t) :
    CommandEnd s .accAppend t := by
  have inBuffer : ∀ a, s.regs.accBase.toNat ≤ a ∧ a < s.regs.accBase.toNat + m →
      s.regs.bufRegion.contains a = true := fun a _ =>
    (s.regs.bufRegion_contains_iff a).mpr ⟨by omega, by omega⟩
  obtain ⟨o, q, hdec, rfl⟩ | ⟨o, q, hdec, rfl⟩ := appendDecode_cases h
  · obtain ⟨hq, ho⟩ := decodeInPlace_within hdec
    exact .appended hc rem_le (.inl rfl) (.emptied _) fun hb =>
      (hp.trans (hq.mono inBuffer)).trans (unspecified_within_buffer hb (by omega))
  · obtain ⟨hq, -⟩ := decodeInPlace_within hdec
    exact .appended hc rem_le (.inr ⟨rfl, .inr (.inr rfl)⟩) (.emptied _) fun hb =>
      (hp.trans (hq.mono inBuffer)).trans (unspecified_within_buffer (o := 0) hb (by omega))

theorem appendDelimited_end {s t : State} {d : Nat} {p : DataPort} (hc : appendCheck s.regs = none)
    (scan : findDelimiter s.regs.srcRegion s.regs.srcLen.toNat 0 s.port = .ok (some d) p)
    (h : appendDelimited s d p = .next t) : CommandEnd s .accAppend t := by
  obtain ⟨-, hd⟩ := findDelimiter_lt _ _ _ scan
  have hrem : s.regs.srcAddr.toNat + d + 1 =
      s.regs.srcAddr.toNat + (s.regs.srcLen.toNat - (s.regs.srcLen.toNat - d - 1)) := by omega
  have hscan := findDelimiter_within (R := fun a => s.regs.bufRegion.contains a = true) _ _ _ scan
  obtain ⟨fits, u, q, copy, h⟩ | ⟨-, rfl⟩ := appendDelimited_cases h
  · rw [hrem] at h
    exact appendDecode_end hc (by omega) fits (hscan.trans (copyChunk_within_buffer copy fits)) h
  · rw [hrem]
    exact .appended hc (by omega) (.inr ⟨rfl, .inr (.inl rfl)⟩) (.emptied _) fun _ => hscan

theorem execAccAppend_end {s t : State} (h : execAccAppend s = .next t) : CommandEnd s .accAppend t := by
  obtain ⟨e, hc, rfl⟩ | ⟨hc, ⟨hlen, rfl⟩ | ⟨-, ⟨p, scan, h⟩ | ⟨d, p, scan, h⟩⟩⟩ := execAccAppend_cases h
  · exact .refused hc
  · have hend := CommandEnd.appended (o := .consumed) hc (Nat.le_refl _) (.inr ⟨rfl, .inl rfl⟩) .kept
      fun _ => .refl _
    rwa [Nat.sub_self, Nat.add_zero, hlen] at hend
  · exact appendWhole_end hc scan h
  · exact appendDelimited_end hc scan h

theorem exec_end {i : Instr} {s t : State} (h : exec i s = .next t) : CommandEnd s i t := by
  cases i with
  | encode => exact execEncode_end h
  | decodeRaw => exact execDecodeRaw_end h
  | accInit => exact execAccInit_end h
  | accReset => exact execAccReset_end h
  | accAppend => exact execAccAppend_end h

/-! ### What every command keeps -/

/-- The addresses of a command's write footprint (20_memory.md R45). -/
def InFootprint (i : Instr) (r : Regs) (a : Nat) : Prop :=
  ∃ g, writeFootprint i r = some g ∧ g.contains a = true

theorem writeFootprint_of_transformCheck {i : Instr} {r : Regs} (hi : i = .encode ∨ i = .decodeRaw)
    (check : transformCheck r = none) : writeFootprint i r = some r.dstRegion := by
  obtain rfl | rfl := hi <;> simp [writeFootprint, commandCheck, check]

theorem writeFootprint_of_appendCheck {r : Regs} (check : appendCheck r = none) :
    writeFootprint .accAppend r = some r.bufRegion := by
  simp [writeFootprint, commandCheck, check]

/-- A write footprint is the destination of a transform past its checks, or the working buffer. -/
theorem writeFootprint_eq_some {i : Instr} {r : Regs} {g : Region} (h : writeFootprint i r = some g) :
    (g = r.dstRegion ∧ transformCheck r = none) ∨ g = r.bufRegion := by
  unfold writeFootprint at h
  split at h <;> [cases h; skip]
  next hc =>
    cases i with
    | encode => exact .inl ⟨(Option.some.inj h).symm, hc⟩
    | decodeRaw => exact .inl ⟨(Option.some.inj h).symm, hc⟩
    | accInit => cases h
    | accReset => cases h
    | accAppend => exact .inr (Option.some.inj h).symm

/-- Every write footprint lies in data memory, where the working buffer does. -/
theorem writeFootprint_wellFormed {i : Instr} {r : Regs} {g : Region} (hb : r.bufRegion.wellFormed = true)
    (h : writeFootprint i r = some g) : g.wellFormed = true := by
  obtain ⟨rfl, hc⟩ | rfl := writeFootprint_eq_some h
  · exact (transformCheck_eq_none.mp hc).2.1
  · exact hb

/-- A command changes memory inside its write footprint only and keeps the canonical form, the platform
and the race, where the working buffer lies in data memory. -/
theorem CommandEnd.within_footprint {i : Instr} {s t : State} (h : CommandEnd s i t)
    (hb : s.regs.bufRegion.wellFormed = true) : Within (InFootprint i s.regs) s.port t.port := by
  cases h with
  | refused check => exact .refl _
  | transformed hi check within =>
    exact within.mono fun _ ha => ⟨_, writeFootprint_of_transformCheck hi check, ha⟩
  | failed hi check reason within =>
    exact within.mono fun _ ha => ⟨_, writeFootprint_of_transformCheck hi check, ha⟩
  | bound check => exact .refl _
  | emptied check => exact .refl _
  | appended check rem_le outcome cursor within =>
    exact ((within hb).mono fun _ ha => ⟨_, writeFootprint_of_appendCheck check, ha⟩).trans (.remAddrOf _)

/-- The accumulator's binding: ACC_BASE, ACC_CAP and ACC_VALID (10_state.md R29, R30). -/
def Regs.SameBinding (r r' : Regs) : Prop :=
  r'.accBase = r.accBase ∧ r'.accCap = r.accCap ∧ r'.status.accValid = r.status.accValid

/-- Of the five commands only ACC_INIT changes the binding. -/
theorem CommandEnd.sameBinding {i : Instr} {s t : State} (h : CommandEnd s i t) (hi : i ≠ .accInit) :
    s.regs.SameBinding t.regs := by
  cases h with
  | bound => exact absurd rfl hi
  | _ => exact ⟨rfl, rfl, rfl⟩

/-! ### The accumulator's registers stay in order -/

theorem Regs.BufferInv.bufRegion_wellFormed {r : Regs} (h : r.BufferInv) : r.bufRegion.wellFormed = true :=
  r.bufRegion_wellFormed_iff.mpr h.1

/-- The accumulator's registers stay in order when the binding and the cursor are kept. -/
theorem Regs.BufferInv.congr {r r' : Regs} (h : r.BufferInv) (binding : r.SameBinding r')
    (idx : r'.accIdx = r.accIdx) : r'.BufferInv := by
  obtain ⟨hbase, hcap, hvalid⟩ := binding
  simpa only [Regs.BufferInv, hbase, hcap, hvalid, idx] using h

/-- The accumulator's registers stay in order when the binding is kept and the cursor becomes 0 or stays
below the capacity. -/
theorem Regs.BufferInv.of_cursor {r r' : Regs} (h : r.BufferInv) (binding : r.SameBinding r')
    (idx : r'.accIdx = 0 ∨ (r.status.accValid = true ∧ r'.accIdx.toNat < r.accCap.toNat)) : r'.BufferInv := by
  obtain ⟨hbase, hcap, hvalid⟩ := binding
  obtain ⟨inMemory, -, -, unbound⟩ := h
  simp only [Regs.BufferInv, hbase, hcap, hvalid]
  obtain idx | ⟨valid, idx⟩ := idx
  · exact ⟨inMemory, fun _ => by simp [idx], fun _ => by simp [idx], fun unset => by simp [unbound unset, idx]⟩
  · refine ⟨inMemory, fun _ => by omega, fun _ => by omega, fun unset => ?_⟩
    simp [valid] at unset

theorem Regs.bufferInv_reset : Regs.reset.BufferInv := by decide

theorem CommandEnd.bufferInv {i : Instr} {s t : State} (h : CommandEnd s i t) (inv : s.regs.BufferInv) :
    t.regs.BufferInv := by
  cases h with
  | refused => exact inv.congr ⟨rfl, rfl, rfl⟩ rfl
  | transformed => exact inv.congr ⟨rfl, rfl, rfl⟩ rfl
  | failed => exact inv.congr ⟨rfl, rfl, rfl⟩ rfl
  | bound check =>
    exact ⟨(Region.wellFormed_iff _).mp (initCheck_eq_none.mp check), fun _ => Nat.zero_le _, fun _ => rfl, nofun⟩
  | emptied => exact inv.of_cursor ⟨rfl, rfl, rfl⟩ (.inl rfl)
  | appended check rem_le outcome cursor within =>
    obtain ⟨valid, -, -⟩ := appendCheck_eq_none.mp check
    cases cursor with
    | emptied => exact inv.of_cursor ⟨rfl, rfl, rfl⟩ (.inl rfl)
    | kept => exact inv.congr ⟨rfl, rfl, rfl⟩ (by simp)
    | advanced scan copy fits =>
      refine inv.of_cursor ⟨rfl, rfl, rfl⟩ (.inr ⟨valid, ?_⟩)
      exact Nat.lt_of_le_of_lt (Nat.mod_le _ _) fits

/-! ### The host's side of a step -/

theorem step_of_pending {s : State} {op : HostOp} {rest : List HostOp} (h : s.pending = op :: rest) :
    step s = runHost op { s with pending := rest } := by
  simp only [step, nextEvent, h]

theorem step_of_idle {s : State} (h : s.pending = []) : step s = .next s := by
  simp only [step, nextEvent, h]

@[simp] theorem RegName.ofOffset_offset (n : RegName) : RegName.ofOffset n.offset = some n := by
  cases n <;> rfl

theorem RegName.offset_of_ofOffset {off : BitVec 8} {n : RegName} (h : RegName.ofOffset off = some n) :
    off = n.offset := by
  unfold RegName.ofOffset at h
  split at h <;> cases h <;> exact BitVec.eq_of_toNat_eq ‹_›

/-- Offset 0 is CMD, and no other is. -/
theorem RegName.ofOffset_eq_cmd {off : BitVec 8} : RegName.ofOffset off = some .cmd ↔ off = 0 :=
  ⟨fun h => RegName.offset_of_ofOffset h, fun h => h ▸ rfl⟩

@[simp] theorem HostVal.resolve_regs (v : HostVal) (s : State) : (v.resolve s).2.regs = s.regs := by
  unfold HostVal.resolve
  split <;> [rfl; split <;> rfl]

@[simp] theorem HostVal.resolve_mem (v : HostVal) (s : State) : (v.resolve s).2.port.mem = s.port.mem := by
  unfold HostVal.resolve
  split <;> [rfl; split <;> rfl]

@[simp] theorem HostVal.resolve_raced (v : HostVal) (s : State) : (v.resolve s).2.port.raced = s.port.raced := by
  unfold HostVal.resolve
  split <;> [rfl; split <;> rfl]

/-- Only the four operand registers differ (10_state.md R25, R26). -/
def Regs.SameButOperands (r r' : Regs) : Prop :=
  r' = { r with srcAddr := r'.srcAddr, srcLen := r'.srcLen, dstAddr := r'.dstAddr, dstCap := r'.dstCap }

theorem Regs.sameButOperands_write (r : Regs) (n : RegName) (v : Word) : r.SameButOperands (r.write n v) := by
  cases n <;> rfl

theorem Regs.SameButOperands.read {r r' : Regs} (h : r.SameButOperands r') {n : RegName}
    (hn : n ∉ [RegName.srcAddr, .srcLen, .dstAddr, .dstCap]) : r'.read n = r.read n := by
  rw [h]
  cases n <;> simp at hn <;> rfl

theorem Regs.SameButOperands.sameBinding {r r' : Regs} (h : r.SameButOperands r') : r.SameBinding r' := by
  rw [h]; exact ⟨rfl, rfl, rfl⟩

theorem Regs.SameButOperands.accIdx {r r' : Regs} (h : r.SameButOperands r') : r'.accIdx = r.accIdx := by
  rw [h]

/-- Everything a transaction can answer as a next state: the three forms of a CMD write, hardware reset,
and accesses that run no command. -/
inductive HostEnd (s : State) : HostOp → State → Prop where
  | command {v : HostVal} {t : State} (run : writeCmd (v.resolve s).1 (v.resolve s).2 = .next t) :
      HostEnd s (.write 4 0 v) t
  | commandRaced {v : HostVal} {t : State} (run : writeCmdRaced (v.resolve s).1 (v.resolve s).2 = .next t) :
      HostEnd s (.cmdRaced v) t
  | commandReset {v : HostVal} {t : State} (run : writeCmdReset (v.resolve s).1 (v.resolve s).2 = .next t) :
      HostEnd s (.cmdReset v) t
  | reset : HostEnd s .reset s.hardReset
  | write {width : Nat} {off : BitVec 8} {v : HostVal} {r : Regs} (operands : s.regs.SameButOperands r) :
      HostEnd s (.write width off v) { (v.resolve s).2 with regs := r }
  | read {width : Nat} {off : BitVec 8} {seen : List Seen} : HostEnd s (.read width off) { s with seen := seen }
  | store {a : Word} {bytes : List Byte} (inMemory : a.toNat + bytes.length ≤ Config.addressSpace) :
      HostEnd s (.store a bytes) { s with port := s.port.putBytes a.toNat bytes }
  | load {a : Word} {n : Nat} {seen : List Seen} : HostEnd s (.load a n) { s with seen := seen }

theorem hostAccess_eq_next {a : Word} {n : Nat} {s done t : State} (h : hostAccess a n s done = .next t) :
    a.toNat + n ≤ Config.addressSpace ∧ t = done := by
  unfold hostAccess at h
  split at h <;> [skip; cases h]
  next inMemory =>
    split at h <;> [cases h; skip]
    split at h <;> cases h
    exact ⟨of_decide_eq_true inMemory, rfl⟩

theorem hostWrite_end {width : Nat} {off : BitVec 8} {v : HostVal} {s t : State}
    (h : hostWrite width off v s = .next t) : HostEnd s (.write width off v) t := by
  unfold hostWrite at h
  split at h <;> [skip; cases h]
  next defined =>
    unfold writeOffset at h
    split at h
    · next hcmd =>
      obtain rfl := RegName.ofOffset_eq_cmd.mp hcmd
      obtain rfl : width = 4 := by simpa [accessDefined] using defined
      exact .command h
    · cases h
      exact .write (by rw [HostVal.resolve_regs]; exact s.regs.sameButOperands_write _ _)
    · cases h
      exact .write (r := (v.resolve s).2.regs) (by rw [HostVal.resolve_regs]; rfl)

theorem runHost_end {op : HostOp} {s t : State} (h : runHost op s = .next t) : HostEnd s op t := by
  cases op with
  | write width off v => exact hostWrite_end h
  | read width off =>
    simp only [runHost, hostRead] at h
    split at h <;> cases h
    exact .read
  | store a bytes =>
    obtain ⟨inMemory, rfl⟩ := hostAccess_eq_next h
    exact .store inMemory
  | load a n =>
    obtain ⟨-, rfl⟩ := hostAccess_eq_next h
    exact .load
  | reset => cases h; exact .reset
  | cmdReset v => exact .commandReset h
  | cmdRaced v => exact .commandRaced h

/-! ### The invariant, step by step -/

theorem State.Inv.bufRegion_wellFormed {s : State} (inv : s.Inv) : s.regs.bufRegion.wellFormed = true :=
  inv.2.1.bufRegion_wellFormed

theorem exec_keeps_inv {i : Instr} {s t : State} (inv : s.Inv) (h : exec i s = .next t) : t.Inv := by
  have within := (exec_end h).within_footprint inv.bufRegion_wellFormed
  obtain ⟨wf, buffer, quiet⟩ := inv
  exact ⟨within.wf wf, (exec_end h).bufferInv buffer, within.raced.trans quiet⟩

theorem writeCmd_keeps_inv {w : Word} {s t : State} (inv : s.Inv) (h : writeCmd w s = .next t) : t.Inv := by
  unfold writeCmd at h
  split at h
  · exact exec_keeps_inv inv h
  · cases h
    exact inv

theorem State.clobberFootprint_wf {s : State} {f : Option Region} (wf : Memory.wf s.port.mem)
    (hf : ∀ g, f = some g → g.wellFormed = true) : Memory.wf (s.clobberFootprint f).port.mem := by
  cases f with
  | none => exact wf
  | some g => exact wf_freeBytesFrom wf _ _ _ (g.wellFormed_iff.mp (hf g rfl))

theorem writeCmdRaced_keeps_inv {w : Word} {s t : State} (inv : s.Inv) (h : writeCmdRaced w s = .next t) :
    t.Inv := by
  have hb := inv.bufRegion_wellFormed
  unfold writeCmdRaced at h
  split at h
  · split at h <;> cases h
    next u hu =>
    obtain ⟨wf, buffer, -⟩ := inv
    have hend := exec_end hu
    refine ⟨?_, ?_, rfl⟩
    · exact State.clobberFootprint_wf ((hend.within_footprint hb).wf wf) fun _ => writeFootprint_wellFormed hb
    · simpa using hend.bufferInv buffer
  · cases h
    exact inv

theorem writeCmdReset_keeps_inv {w : Word} {s t : State} (inv : s.Inv) (h : writeCmdReset w s = .next t) :
    t.Inv := by
  have hb := inv.bufRegion_wellFormed
  obtain ⟨wf, -, quiet⟩ := inv
  unfold writeCmdReset at h
  split at h
  · split at h <;> cases h
    exact ⟨State.clobberFootprint_wf wf fun _ => writeFootprint_wellFormed hb, Regs.bufferInv_reset,
      by simpa using quiet⟩
  · cases h
    exact ⟨wf, Regs.bufferInv_reset, quiet⟩

theorem HostVal.resolve_inv {s : State} (v : HostVal) (inv : s.Inv) : (v.resolve s).2.Inv := by
  simpa [State.Inv] using inv

theorem HostEnd.inv {op : HostOp} {s t : State} (h : HostEnd s op t) (inv : s.Inv) : t.Inv := by
  have ⟨wf, buffer, quiet⟩ := inv
  cases h with
  | command run => exact writeCmd_keeps_inv (HostVal.resolve_inv _ inv) run
  | commandRaced run => exact writeCmdRaced_keeps_inv (HostVal.resolve_inv _ inv) run
  | commandReset run => exact writeCmdReset_keeps_inv (HostVal.resolve_inv _ inv) run
  | reset => exact ⟨wf, Regs.bufferInv_reset, quiet⟩
  | write operands =>
    exact ⟨by simpa using wf, buffer.congr operands.sameBinding operands.accIdx, by simpa using quiet⟩
  | read => exact inv
  | store inMemory => exact ⟨Memory.wf_writeBytes wf _ _ inMemory, buffer, quiet⟩
  | load => exact inv

/-- Settles O5: a transaction ends in one of the ways of `HostEnd`, and each keeps the invariant. -/
theorem stepKeepsInvariant : Obligations.StepKeepsInvariant := by
  intro s t inv h
  cases hp : s.pending with
  | nil =>
    rw [step_of_idle hp] at h
    cases h
    exact inv
  | cons op rest =>
    rw [step_of_pending hp] at h
    exact (runHost_end h).inv inv

/-! ### Who writes which register -/

/-- Settles O51, over the ways a command can end. -/
theorem resultLengthRule : Obligations.ResultLengthRule := by
  intro i s t h
  cases exec_end h with
  | refused check =>
    obtain rfl | rfl | rfl := commandCheck_eq_some check <;> simp
  | transformed hi => obtain rfl | rfl := hi <;> simp [refusalCodes]
  | failed hi check reason =>
    obtain ⟨rfl, rfl⟩ | ⟨rfl, rfl⟩ := reason <;> obtain rfl | rfl := hi <;> simp [refusalCodes]
  | bound => simp
  | emptied => simp
  | appended check rem_le outcome =>
    obtain rfl | ⟨rfl, -⟩ := outcome <;> simp [refusalCodes]

theorem toNat_ofNat_of_lt {n : Nat} (h : n < 2 ^ 32) : (BitVec.ofNat 32 n).toNat = n := Nat.mod_eq_of_lt h

/-- A length that is at most another register's is held whole by a register. -/
theorem toNat_ofNat_of_le {n : Nat} {w : Word} (h : n ≤ w.toNat) : (BitVec.ofNat 32 n).toNat = n :=
  toNat_ofNat_of_lt (Nat.lt_of_le_of_lt h w.isLt)

/-- REM_ADDR holds the remainder's address where a 32-bit register can (log 5). -/
theorem toNat_remAddrOf {v : Nat} (h : v < 2 ^ 32) (p : DataPort) : (remAddrOf v p).1.toNat = v := by
  rw [remAddrOf_of_lt h, toNat_ofNat_of_lt h]

/-- Settles O52, over the ways a command can end. -/
theorem remainderRule : Obligations.RemainderRule := by
  intro i s t h
  cases exec_end h with
  | refused check =>
    refine ⟨fun _ => ⟨rfl, rfl⟩, fun _ err => ?_⟩
    obtain rfl | rfl | rfl := commandCheck_eq_some check <;> cases err
  | transformed hi => exact ⟨fun _ => ⟨rfl, rfl⟩, fun append => by simp [append] at hi⟩
  | failed hi => exact ⟨fun _ => ⟨rfl, rfl⟩, fun append => by simp [append] at hi⟩
  | bound => exact ⟨fun _ => ⟨rfl, rfl⟩, nofun⟩
  | emptied => exact ⟨fun _ => ⟨rfl, rfl⟩, nofun⟩
  | appended check rem_le =>
    refine ⟨fun other => by simp at other, fun _ _ => ?_⟩
    simp only [State.endAppend_regs, Regs.finish_remLen, Regs.setRem_remLen, toNat_ofNat_of_le rem_le]
    exact ⟨rem_le, fun held => toNat_remAddrOf held _⟩

/-- Settles O36: an ACC_APPEND past its checks draws REM_ADDR where the remainder starts at 2^32. -/
theorem remainderPastTopOfMemoryIsFree : Obligations.RemainderPastTopOfMemoryIsFree := by
  intro s t ready h noRemainder _ top
  obtain ⟨valid, srcWf, apart, bufWf, -⟩ := ready
  cases exec_end h with
  | refused check =>
    have passed : commandCheck .accAppend s.regs = none := appendCheck_eq_none.mpr ⟨valid, srcWf, apart⟩
    cases passed.symm.trans check
  | transformed hi => simp at hi
  | failed hi => simp at hi
  | @appended idx res rem o q check rem_le outcome cursor within =>
    have hrem : rem = 0 := by rw [← toNat_ofNat_of_le rem_le]; exact congrArg BitVec.toNat noRemainder
    refine ⟨q.draws, (within bufWf).draws, ?_⟩
    rw [State.endAppend_regs, Regs.finish_remAddr, Regs.setRem_remAddr, remAddrOf_of_ge (by omega),
      DataPort.drawWord_value]

theorem writeCmd_sameBinding {w : Word} {s t : State} (h : writeCmd w s = .next t)
    (hw : decode (wordBytes w) ≠ .instr .accInit) : s.regs.SameBinding t.regs := by
  unfold writeCmd at h
  split at h
  · next i hi => exact (exec_end h).sameBinding fun init => hw (init ▸ hi)
  · cases h
    exact ⟨rfl, rfl, rfl⟩

theorem writeCmdRaced_sameBinding {w : Word} {s t : State} (h : writeCmdRaced w s = .next t)
    (hw : decode (wordBytes w) ≠ .instr .accInit) : s.regs.SameBinding t.regs := by
  unfold writeCmdRaced at h
  split at h
  · next i hi =>
    split at h <;> cases h
    next u hu =>
    simpa using (exec_end hu).sameBinding fun init => hw (init ▸ hi)
  · cases h
    exact ⟨rfl, rfl, rfl⟩

/-- A transaction that neither resets nor writes ACC_INIT to CMD keeps the accumulator's binding. -/
theorem HostEnd.sameBinding {op : HostOp} {s t : State} (h : HostEnd s op t) (noReset : op.resets = false)
    (noInit : ∀ v, op.writesCmd = some v → decode (wordBytes (v.resolve s).1) ≠ .instr .accInit) :
    s.regs.SameBinding t.regs := by
  cases h with
  | command run => simpa using writeCmd_sameBinding run (noInit _ rfl)
  | commandRaced run => simpa using writeCmdRaced_sameBinding run (noInit _ rfl)
  | commandReset => cases noReset
  | reset => cases noReset
  | write operands => exact operands.sameBinding
  | _ => exact ⟨rfl, rfl, rfl⟩

/-- Settles O55, by `HostEnd.sameBinding`. -/
theorem onlyInitAndResetRebind : Obligations.OnlyInitAndResetRebind := by
  intro s t op rest hp h changed
  rw [step_of_pending hp] at h
  by_contra neither
  push Not at neither
  obtain ⟨noReset, noInit⟩ := neither
  obtain ⟨base, cap, valid⟩ := (runHost_end h).sameBinding (by simpa using noReset) noInit
  obtain rebased | resized | revalidated := changed
  · exact rebased base
  · exact resized cap
  · exact revalidated valid

/-- Settles O56: of the transactions that neither write CMD nor reset, only a write of the register window
changes a register, and that an operand, and only a store changes memory. -/
theorem onlyCmdWritesRunCommands : Obligations.OnlyCmdWritesRunCommands := by
  intro s t op rest hp h noCmd noReset
  rw [step_of_pending hp] at h
  cases runHost_end h with
  | command => cases noCmd
  | commandRaced => cases noCmd
  | commandReset => cases noCmd
  | reset => cases noReset
  | write operands => exact ⟨fun _ hn => operands.read hn, fun _ => by simp⟩
  | read => exact ⟨fun _ _ => rfl, fun _ => rfl⟩
  | @store a bytes => exact ⟨fun _ _ => rfl, fun noStore => absurd rfl (noStore a bytes)⟩
  | load => exact ⟨fun _ _ => rfl, fun _ => rfl⟩

/-! ### The buffered bytes -/

/-- With no other agent in the command's regions, a scan that finds no delimiter changes nothing and has
seen no zero. -/
theorem findDelimiter_none {src : Region} {left k : Nat} {p q : DataPort} (quiet : p.raced = false)
    (h : findDelimiter src left k p = .ok none q) :
    q = p ∧ ∀ j, k ≤ j → j < k + left → p.byteAt (src.base.toNat + j) ≠ Config.delimiter := by
  induction left generalizing k with
  | zero => cases h; exact ⟨rfl, fun j h₁ h₂ => by omega⟩
  | succ left ih =>
    obtain ⟨b, p₁, hread, h⟩ := Run.bind_eq_ok.mp h
    obtain ⟨-, -, ⟨-, rfl, rfl⟩ | ⟨raced, -⟩⟩ := memRead_eq_ok hread
    · split at h <;> [cases h; skip]
      next nonzero =>
      obtain ⟨rfl, later⟩ := ih h
      refine ⟨rfl, fun j h₁ h₂ => ?_⟩
      obtain rfl | hlt := Nat.eq_or_lt_of_le h₁
      · exact nonzero
      · exact later j hlt (by omega)
    · simp [quiet] at raced

/-- With no other agent in the command's regions, a copy between ranges that share no byte puts the source's
bytes at the target. -/
theorem copyChunk_copies {src : Region} {target left k : Nat} {p q : DataPort} {u : Unit}
    (quiet : p.raced = false) (h : copyChunk src target left k p = .ok u q)
    (apart : ∀ i j, k ≤ i → i < k + left → k ≤ j → j < k + left → target + i ≠ src.base.toNat + j) :
    ∀ j, k ≤ j → j < k + left → q.byteAt (target + j) = p.byteAt (src.base.toNat + j) := by
  induction left generalizing k p with
  | zero => intro j h₁ h₂; omega
  | succ left ih =>
    obtain ⟨b, p₁, hread, h⟩ := Run.bind_eq_ok.mp h
    obtain ⟨_, p₂, hwrite, h⟩ := Run.bind_eq_ok.mp h
    obtain ⟨-, -, rfl⟩ := memWrite_eq_ok hwrite
    obtain ⟨-, -, ⟨-, rfl, rfl⟩ | ⟨raced, -⟩⟩ := memRead_eq_ok hread
    · intro j h₁ h₂
      obtain rfl | hlt := Nat.eq_or_lt_of_le h₁
      · rw [(copyChunk_within _ _ _ _ h).byteAt _ (by omega), DataPort.byteAt_putByte_self]
      · have later := ih (by simpa using quiet) h fun i j _ _ _ _ =>
          apart i j (by omega) (by omega) (by omega) (by omega)
        rw [later j hlt (by omega), DataPort.byteAt_putByte_ne]
        exact apart k j (Nat.le_refl k) (by omega) (by omega) (by omega)
    · simp [quiet] at raced

theorem mem_bytesAt {p : DataPort} {a n : Nat} {b : Byte} :
    b ∈ p.bytesAt a n ↔ ∃ k, k < n ∧ p.byteAt (a + k) = b := by
  simp only [List.mem_iff_getElem, DataPort.getElem_bytesAt, DataPort.length_bytesAt, exists_prop]

/-- Where the chunk and the working buffer are apart, so are the bytes copied and where they go. -/
theorem target_ne_source {r : Regs} (apart : r.srcRegion.overlaps r.bufRegion = false)
    (fits : r.accIdx.toNat + r.srcLen.toNat < r.accCap.toNat) {i j : Nat} (hi : i < r.srcLen.toNat)
    (hj : j < r.srcLen.toNat) : r.accBase.toNat + r.accIdx.toNat + i ≠ r.srcAddr.toNat + j := by
  intro same
  have inSource : r.srcRegion.contains (r.srcAddr.toNat + j) = true := (r.srcRegion.contains_iff _).mpr
    ⟨Nat.le_add_right _ j, Nat.add_lt_add_left hj _⟩
  have inBuffer := (r.bufRegion_contains_iff (r.srcAddr.toNat + j)).mpr ⟨by omega, by omega⟩
  simp [Region.disjoint_of_not_overlaps apart inSource] at inBuffer

/-- A chunk without a delimiter, copied behind zero-free buffered bytes, leaves them zero-free. -/
theorem zeroFree_of_copied {s : State} {p q : DataPort} {u : Unit} (quiet : s.port.raced = false)
    (apart : s.regs.srcRegion.overlaps s.regs.bufRegion = false)
    (scan : findDelimiter s.regs.srcRegion s.regs.srcLen.toNat 0 s.port = .ok none p)
    (copy : copyChunk s.regs.srcRegion (s.regs.accBase.toNat + s.regs.accIdx.toNat) s.regs.srcLen.toNat 0 p
      = .ok u q)
    (fits : s.regs.accIdx.toNat + s.regs.srcLen.toNat < s.regs.accCap.toNat)
    (zeroFree : (0x00 : Byte) ∉ s.bufferedBytes) :
    (0x00 : Byte) ∉ q.bytesAt s.regs.accBase.toNat (s.regs.accIdx.toNat + s.regs.srcLen.toNat) := by
  obtain ⟨rfl, nonzero⟩ := findDelimiter_none quiet scan
  have copied := copyChunk_copies quiet copy fun i j _ hi _ hj =>
    target_ne_source apart fits (by omega) (by omega)
  have kept : q.bytesAt s.regs.accBase.toNat s.regs.accIdx.toNat = s.bufferedBytes :=
    DataPort.bytesAt_ext fun k hk => (copyChunk_within _ _ _ _ copy).byteAt _ (by omega)
  rw [DataPort.bytesAt_add, List.mem_append, kept]
  rintro (buffered | chunk)
  · exact zeroFree buffered
  · obtain ⟨k, hk, zero⟩ := mem_bytesAt.mp chunk
    exact nonzero k (Nat.zero_le k) (by omega) ((copied k (Nat.zero_le k) (by omega)).symm.trans zero)

theorem bufferedBytes_endAppend {s : State} {p : DataPort} {idx res ra rl : Nat} {o : OutCode} (h : idx < 2 ^ 32) :
    (s.endAppend p idx res ra rl o).bufferedBytes = p.bytesAt s.regs.accBase.toNat idx := by
  have cursor : (s.endAppend p idx res ra rl o).regs.accIdx.toNat = idx := toNat_ofNat_of_lt h
  rw [State.bufferedBytes, cursor]
  exact DataPort.bytesAt_ext fun k _ => DataPort.byteAt_remAddrOf _ p _

/-- Settles O38: past its checks ACC_APPEND empties the buffer, keeps it, or copies a chunk without a
delimiter behind it. -/
theorem appendKeepsBufferZeroFree : Obligations.AppendKeepsBufferZeroFree := by
  intro s t quiet h zeroFree
  cases exec_end h with
  | refused => exact zeroFree
  | transformed hi => simp at hi
  | failed hi => simp at hi
  | appended check rem_le outcome cursor =>
    obtain ⟨-, -, apart⟩ := appendCheck_eq_none.mp check
    cases cursor with
    | emptied => rw [bufferedBytes_endAppend (by decide)]; exact List.not_mem_nil
    | kept => rw [bufferedBytes_endAppend s.regs.accIdx.isLt]; exact zeroFree
    | advanced scan copy fits =>
      rw [bufferedBytes_endAppend (Nat.lt_trans fits s.regs.accCap.isLt)]
      exact zeroFree_of_copied quiet apart scan copy fits zeroFree

/-! ### Reset and the register window -/

/-- Settles O1, register by register. -/
theorem resetRegistersReadZero : Obligations.ResetRegistersReadZero :=
  ⟨fun n => by cases n <;> rfl, rfl⟩

/-- Settles O4: empty memory is canonical and the reset registers are in order. -/
theorem resetMeetsInvariant : Obligations.ResetMeetsInvariant :=
  ⟨Memory.wf_reset, Regs.bufferInv_reset, rfl⟩

/-- Settles O6: the parts of the concatenation `Status.word` below a field are dropped one by one, and the
field is then its lowest part. -/
theorem statusWordLayout : Obligations.StatusWordLayout := by
  refine ⟨fun st => ?_, by decide, by decide⟩
  unfold Status.word
  refine ⟨BitVec.extractLsb'_append_eq_right, ?_, ?_, ?_, ?_, ?_⟩
  · rw [BitVec.extractLsb'_append_eq_of_le (by decide)]
    exact BitVec.extractLsb'_append_eq_right
  · iterate 2 rw [BitVec.extractLsb'_append_eq_of_le (by decide)]
    exact BitVec.extractLsb'_append_eq_right
  · iterate 3 rw [BitVec.extractLsb'_append_eq_of_le (by decide)]
    exact BitVec.extractLsb'_append_eq_right
  · iterate 4 rw [BitVec.getLsbD_append, if_neg (by decide)]
    rw [BitVec.getLsbD_append, if_pos (by decide)]
    exact BitVec.getLsbD_ofBool ..
  · iterate 5 rw [BitVec.extractLsb'_append_eq_of_le (by decide)]
    exact BitVec.extractLsb'_eq_self

/-- A read after a write of the window: an operand register holds what was written, and every other read is
as before (10_state.md R25, R26; 30_encoding.md R57). -/
theorem Regs.read_write (r : Regs) (n m : RegName) (v : Word) : (r.write n v).read m =
    if m = n ∧ n ∈ [RegName.srcAddr, .srcLen, .dstAddr, .dstCap] then v else r.read m := by
  cases n <;> cases m <;> rfl

theorem RegName.accessDefined_offset (n : RegName) : accessDefined 4 n.offset = true := by
  cases n <;> rfl

theorem runHost_read (n : RegName) (s : State) :
    runHost (.read 4 n.offset) s = .next { s with seen := .reg n.offset (s.regs.read n) :: s.seen } := by
  simp [runHost, hostRead, n.accessDefined_offset, Regs.readOffset]

theorem runHost_write_lit {n : RegName} (hn : n ≠ .cmd) (v : Word) (s : State) :
    runHost (.write 4 n.offset (.lit v)) s = .next { s with regs := s.regs.write n v } := by
  have hwrite : writeOffset n.offset v s = .next { s with regs := s.regs.write n v } := by
    unfold writeOffset
    rw [RegName.ofOffset_offset]
    split <;> simp_all
  simpa [runHost, hostWrite, n.accessDefined_offset, HostVal.resolve] using hwrite

/-- Settles O7: a write of the window by `Regs.read_write`, a read by `runHost_read`. -/
theorem operandRegistersReadBackAsWritten : Obligations.OperandRegistersReadBackAsWritten := by
  refine ⟨fun s rest n v hn hp => ?_, fun s rest n hp => ?_⟩
  · have notCmd : n ≠ .cmd := by rintro rfl; simp at hn
    rw [step_of_pending hp, runHost_write_lit notCmd]
    refine ⟨_, rfl, ?_, fun m hm => ?_, rfl, rfl, rfl⟩
    · rw [Regs.read_write, if_pos ⟨rfl, hn⟩]
    · rw [Regs.read_write, if_neg fun same => hm same.1]
  · rw [step_of_pending hp, runHost_read]

theorem runHost_cmd_of_decode {v : HostVal} {i : Instr} {s : State}
    (h : decode (wordBytes (v.resolve s).1) = .instr i) :
    runHost (.write 4 RegName.cmd.offset v) s = exec i (v.resolve s).2 := by
  have hwrite : runHost (.write 4 RegName.cmd.offset v) s = writeCmd (v.resolve s).1 (v.resolve s).2 := rfl
  rw [hwrite, writeCmd, h]

theorem decode_of_decodeTableWord {n w : Nat} {i : Instr} (h : decodeTableWord n w = some i) :
    decode (wordBytes (BitVec.ofNat 32 (w % 2 ^ n))) = .instr i := by
  unfold decodeTableWord at h
  split at h <;> [skip; cases h]
  split at h <;> cases h
  assumption

/-- Settles O13: the word written is the one `runHost_cmd_of_decode` runs, from the queue or placed there. -/
theorem stepRunsTheDecodedCommand : Obligations.StepRunsTheDecodedCommand := by
  refine ⟨fun s rest v i hp hi => ?_, fun s w i hi => ?_⟩
  · rw [step_of_pending hp, runHost_cmd_of_decode hi]
  · rw [step_of_pending (rest := s.pending) rfl]
    exact runHost_cmd_of_decode (v := .lit _) (decode_of_decodeTableWord hi)

end Sys2Proof.Machine
end

section
/-! The rules about data memory (20_memory.md): what a command may write, what its result may depend on, and
where an access leaves it stuck or refused. `DataPort.Frame` is the memory frame of a piece of a command in any
state, and `ReadsOnly` says that a piece of a command depends on the bytes of some addresses only; each is
shown piece by piece, along the sequencing `Run.bind`. -/

namespace Sys2Proof.Machine
open DataPort (Within)

/-! ### Commands that end before they change anything -/

/-- Settles O60, command by command: those with a region to touch look for a device first. -/
theorem sideEffectRegionIsRefused : Obligations.SideEffectRegionIsRefused := by
  intro s i check device
  cases i with
  | encode =>
    have check : transformCheck s.regs = none := check
    simp only [exec, execEncode, check, device, if_true]
  | decodeRaw =>
    have check : transformCheck s.regs = none := check
    simp only [exec, execDecodeRaw, check, device, if_true]
  | accInit => cases device
  | accReset => cases device
  | accAppend =>
    have check : appendCheck s.regs = none := check
    have nonempty : ¬ s.regs.srcRegion.len.toNat = 0 := fun empty => by
      have empty : s.regs.srcLen.toNat = 0 := empty
      simp [accessRegions, empty, Platform.namesDevice] at device
    simp only [exec, execAccAppend, check, device, if_true, if_neg nonempty]

/-- MemRead of the first byte of a region, where the platform does not complete it (20_memory.md R43). -/
theorem memRead_base_stuck {φ : Type} {src : Region} {p : DataPort}
    (unanswered : p.platform.admits src.base.toNat = false) :
    (memRead (src.base.toNat + 0) p : Run φ Byte) = .stop (.stuck src.base.toNat) :=
  memRead_stuck src.base.isLt unanswered

section Stuck
variable {src dst : Region} {p : DataPort} (nonempty : 0 < src.len.toNat)
  (unanswered : p.platform.admits src.base.toNat = false)
include nonempty unanswered

theorem runEncoder_stuck : runEncoder src dst p = .stop (.stuck src.base.toNat) := by
  obtain ⟨n, hn⟩ := Nat.exists_eq_add_one_of_ne_zero nonempty.ne'
  rw [runEncoder, hn, encLoop, memRead_base_stuck unanswered]
  rfl

theorem runDecodeRaw_stuck : runDecodeRaw src dst p = .stop (.stuck src.base.toNat) := by
  rw [runDecodeRaw, runDecoder, decLeadingZero, if_pos nonempty, memRead_base_stuck unanswered]
  rfl

theorem findDelimiter_stuck : findDelimiter src src.len.toNat 0 p = .stop (.stuck src.base.toNat) := by
  obtain ⟨n, hn⟩ := Nat.exists_eq_add_one_of_ne_zero nonempty.ne'
  rw [hn, findDelimiter, memRead_base_stuck unanswered]
  rfl

end Stuck

/-- Settles O19: each of the three commands starts with a read of the first byte of its source. -/
theorem unansweredReadIsStuck : Obligations.UnansweredReadIsStuck := by
  intro s i hi check plain nonempty unanswered
  obtain rfl | rfl | rfl := hi
  · have check : transformCheck s.regs = none := check
    simp only [exec, execEncode, check, plain, runEncoder_stuck (src := s.regs.srcRegion) nonempty unanswered]
    rfl
  · have check : transformCheck s.regs = none := check
    simp only [exec, execDecodeRaw, check, plain, runDecodeRaw_stuck (src := s.regs.srcRegion) nonempty unanswered]
    rfl
  · have check : appendCheck s.regs = none := check
    have chunk : ¬ s.regs.srcRegion.len.toNat = 0 := nonempty.ne'
    simp only [exec, execAccAppend, check, plain, if_neg chunk,
      findDelimiter_stuck (src := s.regs.srcRegion) nonempty unanswered]
    rfl

/-! ### A host store -/

theorem firstHole_eq_none {pl : Platform} {a n : Nat} (answered : ∀ k, k < n → pl.admits (a + k) = true) :
    firstHole pl a n = none := by
  induction n generalizing a with
  | zero => rfl
  | succ n ih =>
    have first : pl.admits a = true := answered 0 (Nat.succ_pos n)
    rw [firstHole, if_pos first]
    exact ih fun k hk => by rw [Nat.add_right_comm]; exact answered (k + 1) (Nat.succ_lt_succ hk)

/-- A host access inside data memory, answered, in plain memory, is performed. -/
theorem hostAccess_answered {a : Word} {n : Nat} {s done : State} (inMemory : a.toNat + n ≤ Config.addressSpace)
    (answered : s.port.AdmitsRange a.toNat n) (plain : s.port.platform.deviceIn a.toNat n = false) :
    hostAccess a n s done = .next done := by
  simp [hostAccess, rangeInMemory, inMemory, firstHole_eq_none answered, plain]

/-- Settles O57: the store is performed, and memory after it is as `DataPort.putBytes` says. -/
theorem hostStoreIsSeen : Obligations.HostStoreIsSeen := by
  intro s rest a bytes hp inMemory answered plain
  rw [step_of_pending hp]
  exact ⟨_, hostAccess_answered inMemory answered plain, DataPort.bytesAt_putBytes .., fun b hb =>
    DataPort.byteAt_putBytes_outside _ _ _ hb, rfl, rfl⟩

/-! ### The memory frame of every command -/

/-- From `p` to `q`: bytes changed at addresses of `R` only, and the count of draws did not fall. Unlike
`DataPort.Within` it asks nothing of the canonical form, so it holds of ACC_APPEND also where the working buffer
passes the top of memory. -/
structure DataPort.Frame (R : Nat → Prop) (p q : DataPort) : Prop where
  draws : p.draws ≤ q.draws
  byteAt : ∀ a, ¬ R a → q.byteAt a = p.byteAt a

namespace DataPort.Frame
variable {R S : Nat → Prop} {p q r : DataPort}

theorem of_within (h : Within R p q) : Frame R p q := ⟨h.draws, h.byteAt⟩

theorem trans (h : Frame R p q) (k : Frame R q r) : Frame R p r :=
  ⟨h.draws.trans k.draws, fun a ha => (k.byteAt a ha).trans (h.byteAt a ha)⟩

theorem mono (h : Frame R p q) (hRS : ∀ a, R a → S a) : Frame S p q :=
  ⟨h.draws, fun a ha => h.byteAt a fun hr => ha (hRS a hr)⟩

theorem unspecified {a n : Nat} (hR : ∀ b, a ≤ b → b < a + n → R b) : Frame R p (p.unspecified a n) :=
  ⟨Nat.le_add_right _ _, fun b hb => p.byteAt_unspecified_outside a n (by
    by_contra inside; exact hb (hR b (by omega) (by omega)))⟩

end DataPort.Frame

/-- ACC_APPEND's end draws at most a word. -/
theorem State.endAppend_frame {R : Nat → Prop} {s : State} {p q : DataPort} {idx res ra rl : Nat} {o : OutCode}
    (h : p.Frame R q) : p.Frame R (s.endAppend q idx res ra rl o).port :=
  h.trans (.of_within (.remAddrOf ra))

/-- Decoding a buffered block and what it leaves unspecified stay inside the working buffer. -/
theorem appendDecode_frame {s t : State} {m ra rl : Nat} {p : DataPort} (fits : m < s.regs.accCap.toNat)
    (h : appendDecode s m ra rl p = .next t) : p.Frame (fun a => s.regs.bufRegion.contains a = true) t.port := by
  have inBuffer (a : Nat) (low : s.regs.accBase.toNat ≤ a) (high : a < s.regs.accBase.toNat + m) :
      s.regs.bufRegion.contains a = true := (s.regs.bufRegion_contains_iff a).mpr ⟨low, by omega⟩
  obtain ⟨o, q, hdec, rfl⟩ | ⟨o, q, hdec, rfl⟩ := appendDecode_cases h
  all_goals
    obtain ⟨hq, ho⟩ := decodeInPlace_within hdec
    have decoded := DataPort.Frame.of_within (hq.mono fun a ha => inBuffer a ha.1 ha.2)
  · exact State.endAppend_frame (decoded.trans (.unspecified fun b _ _ => inBuffer b (by omega) (by omega)))
  · exact State.endAppend_frame (decoded.trans (.unspecified inBuffer))

theorem execAccAppend_frame {s t : State} (h : execAccAppend s = .next t) :
    s.port.Frame (fun a => s.regs.bufRegion.contains a = true) t.port := by
  obtain ⟨e, -, rfl⟩ | ⟨-, ⟨-, rfl⟩ | ⟨-, ⟨p, scan, h⟩ | ⟨d, p, scan, h⟩⟩⟩ := execAccAppend_cases h
  · exact .of_within (.refl _)
  · exact State.endAppend_frame (.of_within (.refl _))
  all_goals have scanned := DataPort.Frame.of_within (findDelimiter_within
    (R := fun a => s.regs.bufRegion.contains a = true) _ _ _ scan)
  · obtain ⟨fits, u, q, copy, rfl⟩ | ⟨-, rfl⟩ := appendWhole_cases h
    · exact State.endAppend_frame (scanned.trans (.of_within (copyChunk_within_buffer copy fits)))
    · exact State.endAppend_frame scanned
  · obtain ⟨fits, u, q, copy, h⟩ | ⟨-, rfl⟩ := appendDelimited_cases h
    · exact (scanned.trans (.of_within (copyChunk_within_buffer copy fits))).trans (appendDecode_frame fits h)
    · exact State.endAppend_frame scanned

/-- Every command changes memory inside its write footprint only, in any state. -/
theorem exec_frame {i : Instr} {s t : State} (h : exec i s = .next t) :
    s.port.Frame (InFootprint i s.regs) t.port := by
  cases exec_end h with
  | transformed hi check within =>
    exact .of_within (within.mono fun _ ha => ⟨_, writeFootprint_of_transformCheck hi check, ha⟩)
  | failed hi check reason within =>
    exact .of_within (within.mono fun _ ha => ⟨_, writeFootprint_of_transformCheck hi check, ha⟩)
  | appended check => exact (execAccAppend_frame h).mono fun _ ha => ⟨_, writeFootprint_of_appendCheck check, ha⟩
  | refused | bound | emptied => exact .of_within (.refl _)

theorem not_inFootprint {i : Instr} {r : Regs} {a : Nat}
    (outside : ∀ g, writeFootprint i r = some g → g.contains a = false) : ¬ InFootprint i r a := by
  rintro ⟨g, hg, inside⟩
  simp [outside g hg] at inside

/-- A command that reports a refusal was refused by its check, and memory is as before. -/
theorem exec_refused_sameMemory {i : Instr} {s t : State} (h : exec i s = .next t)
    (refused : t.regs.status.err ∈ refusalCodes) : s.SameMemory t := by
  cases exec_end h with
  | refused => exact fun _ => rfl
  | failed hi check reason => obtain ⟨rfl, -⟩ | ⟨rfl, -⟩ := reason <;> simp [refusalCodes] at refused
  | transformed | bound | emptied | appended => simp [refusalCodes] at refused

/-- Settles O50, by `exec_frame`. -/
theorem commandsWriteOnlyTheirFootprint : Obligations.CommandsWriteOnlyTheirFootprint :=
  fun _ _ _ h => ⟨fun b outside => (exec_frame h).byteAt b (not_inFootprint outside), exec_refused_sameMemory h⟩

/-! ### A race -/

theorem decode_wordBytes_encode (i : Instr) : decode (wordBytes (encode i)) = .instr i := by
  cases i <;> decide

theorem State.byteAt_clobberFootprint_outside {s : State} {f : Option Region} {a : Nat}
    (outside : ∀ g, f = some g → g.contains a = false) :
    (s.clobberFootprint f).port.byteAt a = s.port.byteAt a := by
  cases f with
  | none => rfl
  | some g => exact s.port.byteAt_unspecifiedRegion_outside g (outside g rfl)

theorem State.byteAt_clobberFootprint_inside {s : State} {g : Region} {k : Nat} (hk : k < g.len.toNat) :
    (s.clobberFootprint (some g)).port.byteAt (g.base.toNat + k) = Config.freeByte (s.port.draws + k) :=
  s.port.byteAt_unspecified_inside _ _ hk

/-- A raced write of a command's word runs the command on raced reads and then frees its footprint. -/
theorem writeCmdRaced_encode_eq_next {i : Instr} {s t : State} (h : writeCmdRaced (encode i) s = .next t) :
    ∃ u, exec i (s.setRaced true) = .next u ∧
      t = (u.clobberFootprint (writeFootprint i s.regs)).setRaced false := by
  rw [writeCmdRaced, decode_wordBytes_encode] at h
  dsimp only at h
  split at h <;> cases h
  exact ⟨_, ‹_›, rfl⟩

/-- Settles O59: outside the footprint neither the raced command nor the freeing changes a byte, and the
footprint's bytes are drawn after the command's own draws. -/
theorem racedCommandLeavesFreeFootprint : Obligations.RacedCommandLeavesFreeFootprint := by
  intro s t i rest hp h
  rw [step_of_pending hp] at h
  obtain ⟨u, run, rfl⟩ := writeCmdRaced_encode_eq_next h
  have frame := exec_frame run
  refine ⟨fun b outside => ?_, rfl, fun g hg => ⟨u.port.draws, frame.draws, fun k hk => ?_⟩⟩
  · exact (State.byteAt_clobberFootprint_outside outside).trans (frame.byteAt b (not_inFootprint outside))
  · change (u.clobberFootprint (writeFootprint i s.regs)).port.byteAt _ = _
    rw [hg]
    exact State.byteAt_clobberFootprint_inside hk

/-! ### The host's records -/

/-- An outcome with other records of the host: those of its next state, if there is one. -/
def outcomeWithHost (pending : List HostOp) (seen : List Seen) :
    Host.Outcome State Fault Refusal → Host.Outcome State Fault Refusal
  | .next t => .next (t.withHost pending seen)
  | .fault f => .fault f
  | .refused e => .refused e

section HostRecords
variable (s : State) (pending : List HostOp) (seen : List Seen)

theorem ite_withHost {c : Prop} [Decidable c] {x x' y y' : Host.Outcome State Fault Refusal}
    (hx : x' = outcomeWithHost pending seen x) (hy : y' = outcomeWithHost pending seen y) :
    (if c then x' else y') = outcomeWithHost pending seen (if c then x else y) := by
  split <;> assumption

theorem execEncode_withHost :
    execEncode (s.withHost pending seen) = outcomeWithHost pending seen (execEncode s) := by
  unfold execEncode
  dsimp only [State.withHost]
  split
  · rfl
  · refine ite_withHost _ _ rfl ?_
    split <;> rfl

theorem execDecodeRaw_withHost :
    execDecodeRaw (s.withHost pending seen) = outcomeWithHost pending seen (execDecodeRaw s) := by
  unfold execDecodeRaw
  dsimp only [State.withHost]
  split
  · rfl
  · refine ite_withHost _ _ rfl ?_
    split <;> rfl

theorem execAccInit_withHost :
    execAccInit (s.withHost pending seen) = outcomeWithHost pending seen (execAccInit s) := by
  unfold execAccInit
  dsimp only [State.withHost]
  split <;> rfl

theorem execAccReset_withHost :
    execAccReset (s.withHost pending seen) = outcomeWithHost pending seen (execAccReset s) := by
  unfold execAccReset
  dsimp only [State.withHost]
  split <;> rfl

theorem appendWhole_withHost (p : DataPort) :
    appendWhole (s.withHost pending seen) p = outcomeWithHost pending seen (appendWhole s p) := by
  unfold appendWhole
  dsimp only [State.withHost]
  refine ite_withHost _ _ ?_ rfl
  split <;> rfl

theorem appendDecode_withHost (m ra rl : Nat) (p : DataPort) :
    appendDecode (s.withHost pending seen) m ra rl p = outcomeWithHost pending seen (appendDecode s m ra rl p) := by
  unfold appendDecode
  dsimp only [State.withHost]
  split <;> rfl

theorem appendDelimited_withHost (d : Nat) (p : DataPort) :
    appendDelimited (s.withHost pending seen) d p = outcomeWithHost pending seen (appendDelimited s d p) := by
  unfold appendDelimited
  dsimp only [State.withHost]
  refine ite_withHost _ _ ?_ rfl
  split
  · exact appendDecode_withHost ..
  · rfl

theorem execAccAppend_withHost :
    execAccAppend (s.withHost pending seen) = outcomeWithHost pending seen (execAccAppend s) := by
  unfold execAccAppend
  dsimp only [State.withHost]
  split
  · rfl
  · refine ite_withHost _ _ rfl (ite_withHost _ _ rfl ?_)
    split
    · exact appendWhole_withHost ..
    · exact appendDelimited_withHost ..
    · rfl

/-- A command carries the host's records along: it neither reads nor changes them. -/
theorem exec_withHost (i : Instr) :
    exec i (s.withHost pending seen) = outcomeWithHost pending seen (exec i s) := by
  cases i with
  | encode => exact execEncode_withHost ..
  | decodeRaw => exact execDecodeRaw_withHost ..
  | accInit => exact execAccInit_withHost ..
  | accReset => exact execAccReset_withHost ..
  | accAppend => exact execAccAppend_withHost ..

end HostRecords

/-- Settles O53, by `exec_withHost`. -/
theorem commandsIgnoreTheHostRecords : Obligations.CommandsIgnoreTheHostRecords :=
  fun i s pending seen => (exec_withHost s pending seen i).trans (by cases exec i s <;> rfl)

/-! ### What a result depends on -/

/-- Two data ports that differ only in bytes outside `R`, and not in how many free values they have drawn. -/
structure DataPort.Agree (R : Nat → Prop) (p q : DataPort) : Prop where
  platform : q.platform = p.platform
  draws : q.draws = p.draws
  raced : q.raced = p.raced
  byteAt : ∀ a, R a → q.byteAt a = p.byteAt a

/-- Two ends of a piece of a command: of the same kind, with the same value, the ports still agreeing on `R`. -/
inductive Run.Agree {φ α : Type} (R : Nat → Prop) : Run φ α → Run φ α → Prop where
  | ok (a : α) {p q : DataPort} (ports : p.Agree R q) : Run.Agree R (.ok a p) (.ok a q)
  | full (x : φ) {p q : DataPort} (ports : p.Agree R q) : Run.Agree R (.full x p) (.full x q)
  | stop (f : Fault) : Run.Agree R (.stop f) (.stop f)

/-- A piece of a command whose value, and whose way to end, depend on no byte outside `R`. -/
def ReadsOnly {φ α : Type} (R : Nat → Prop) (f : DataPort → Run φ α) : Prop :=
  ∀ p q : DataPort, p.Agree R q → (f p).Agree R (f q)

theorem DataPort.Agree.putByte {R : Nat → Prop} {p q : DataPort} (h : p.Agree R q) (a : Nat) (v : Byte) :
    (p.putByte a v).Agree R (q.putByte a v) :=
  ⟨h.platform, h.draws, h.raced, fun b hb => by simp only [DataPort.byteAt_putByte, h.byteAt b hb]⟩

namespace ReadsOnly
variable {φ α β : Type} {R : Nat → Prop}

theorem ok (a : α) : ReadsOnly R (Run.ok (φ := φ) a) := fun _ _ h => .ok a h

theorem bind {f : DataPort → Run φ α} {g : α → DataPort → Run φ β} (hf : ReadsOnly R f)
    (hg : ∀ a, ReadsOnly R (g a)) : ReadsOnly R fun p => (f p).bind g := by
  intro p q h
  have run := hf p q h
  dsimp only
  generalize f p = x at run ⊢
  generalize f q = y at run ⊢
  cases run with
  | ok a ports => exact hg a _ _ ports
  | full x ports => exact .full x ports
  | stop f => exact .stop f

theorem ite {c : Prop} [Decidable c] {f g : DataPort → Run φ α} (hf : c → ReadsOnly R f)
    (hg : ¬ c → ReadsOnly R g) : ReadsOnly R fun p => if c then f p else g p := by
  split
  · exact hf ‹_›
  · exact hg ‹_›

theorem memRead {a : Nat} (ha : R a) : ReadsOnly (φ := φ) R (memRead a) := by
  intro p q h
  unfold Machine.memRead
  rw [h.platform, h.raced, h.byteAt a ha]
  split_ifs
  · rw [DataPort.drawByte_value, DataPort.drawByte_value, h.draws]
    exact .ok _ ⟨h.platform, congrArg (· + 1) h.draws, h.raced, h.byteAt⟩
  · exact .ok _ h
  · exact .stop _
  · exact .stop _

theorem memWrite (a : Nat) (v : Byte) : ReadsOnly (φ := φ) R (memWrite a v) := by
  intro p q h
  unfold Machine.memWrite
  rw [h.platform]
  split_ifs
  · exact .ok () (h.putByte a v)
  · exact .stop _
  · exact .stop _

theorem outByte (dst : Region) (k : Nat) (v : Byte) : ReadsOnly R (outByte dst k v) :=
  .ite (fun _ => .memWrite _ v) fun _ _ _ h => .full () h

end ReadsOnly

section Encoder
variable {src dst : Region} {R : Nat → Prop}

theorem encCopy_readsOnly (b : Byte) (r : EncRegs) : ReadsOnly R (encCopy dst b r) :=
  .ite (fun _ => .bind (.outByte dst _ _) fun _ => .ok _) fun _ => .ok r

theorem encClose_readsOnly (b : Byte) (more : Bool) (r : EncRegs) : ReadsOnly R (encClose dst b more r) :=
  .ite (fun _ => .bind (.outByte dst _ _) fun _ => .ok _) fun _ => .ok r

theorem encLoop_readsOnly (left i : Nat) (r : EncRegs) (inSource : ∀ k, k < i + left → R (src.base.toNat + k)) :
    ReadsOnly R (encLoop src dst left i r) := by
  induction left generalizing i r with
  | zero => exact .ok r
  | succ left ih =>
    exact .bind (.memRead (inSource i (by omega))) fun b => .bind (encCopy_readsOnly b r) fun r₁ =>
      .bind (encClose_readsOnly b _ r₁) fun r₂ => ih (i + 1) r₂ fun k hk => inSource k (by omega)

theorem encFinalCode_readsOnly (r : EncRegs) : ReadsOnly R (encFinalCode dst r) :=
  .ite (fun _ => .outByte dst _ _) fun _ => .ok ()

/-- The encoder unit reads its payload only. -/
theorem runEncoder_readsOnly (inSource : ∀ k, k < src.len.toNat → R (src.base.toNat + k)) :
    ReadsOnly R (runEncoder src dst) :=
  .bind (encLoop_readsOnly _ 0 _ fun k hk => inSource k (by omega)) fun r =>
    .bind (encFinalCode_readsOnly r) fun _ => .bind (.outByte dst _ _) fun _ => .ok _

end Encoder

section Decoder
variable {φ : Type} {R : Nat → Prop} {m : Nat} {inp : Nat → DataPort → Run φ Byte}
  {out : Nat → Byte → DataPort → Run φ Unit}

theorem decImplicitZero_readsOnly (hout : ∀ k v, ReadsOnly R (out k v)) (b : Byte) (r : DecRegs) :
    ReadsOnly R (decImplicitZero out b r) :=
  .ite (fun _ => .bind (hout _ _) fun _ => .ok _) fun _ => .ok _

theorem decLoop_readsOnly (hinp : ∀ k, k < m → ReadsOnly R (inp k)) (hout : ∀ k v, ReadsOnly R (out k v))
    (left i : Nat) (r : DecRegs) (hm : i + left ≤ m) : ReadsOnly R (decLoop inp out left i r) := by
  induction left generalizing i r with
  | zero => exact .ok _
  | succ left ih =>
    exact .bind (hinp i (by omega)) fun b => .ite
      (fun _ => .bind (hout _ _) fun _ => ih (i + 1) _ (by omega))
      fun _ => .bind (decImplicitZero_readsOnly hout b r) fun o =>
        .ite (fun _ => .ok _) fun _ => ih (i + 1) _ (by omega)

theorem decLeadingZero_readsOnly (hinp : ∀ k, k < m → ReadsOnly R (inp k)) :
    ReadsOnly R (decLeadingZero inp m) :=
  .ite (fun nonempty => .bind (hinp 0 nonempty) fun _ => .ok _) fun _ => .ok _

/-- The decoder unit reads what its input primitive reads at the offsets below the input's length. -/
theorem runDecoder_readsOnly (hinp : ∀ k, k < m → ReadsOnly R (inp k)) (hout : ∀ k v, ReadsOnly R (out k v)) :
    ReadsOnly R (runDecoder m inp out) :=
  .bind (decLeadingZero_readsOnly hinp) fun _ =>
    .ite (fun _ => .ok _) fun _ => decLoop_readsOnly hinp hout m 0 _ (by omega)

/-- DECODE_RAW's unit reads its source region only. -/
theorem runDecodeRaw_readsOnly {src dst : Region} (inSource : ∀ k, k < src.len.toNat → R (src.base.toNat + k)) :
    ReadsOnly R (runDecodeRaw src dst) :=
  runDecoder_readsOnly (fun k hk => .memRead (inSource k hk)) (.outByte dst)

end Decoder

section Accumulator
variable {src : Region} {R : Nat → Prop}

theorem findDelimiter_readsOnly (left k : Nat) (inSource : ∀ j, j < k + left → R (src.base.toNat + j)) :
    ReadsOnly R (findDelimiter src left k) := by
  induction left generalizing k with
  | zero => exact .ok _
  | succ left ih =>
    exact .bind (.memRead (inSource k (by omega))) fun b => .ite (fun _ => .ok _) fun _ =>
      ih (k + 1) fun j hj => inSource j (by omega)

theorem copyChunk_readsOnly (target left k : Nat) (inSource : ∀ j, j < k + left → R (src.base.toNat + j)) :
    ReadsOnly R (copyChunk src target left k) := by
  induction left generalizing k with
  | zero => exact .ok ()
  | succ left ih =>
    exact .bind (.memRead (inSource k (by omega))) fun b => .bind (.memWrite _ b) fun _ =>
      ih (k + 1) fun j hj => inSource j (by omega)

/-- Decoding in place reads the buffered block only. -/
theorem decodeInPlace_readsOnly {base m : Nat} (inBlock : ∀ k, k < m → R (base + k)) :
    ReadsOnly R (decodeInPlace base m) :=
  runDecoder_readsOnly (fun k hk => .memRead (inBlock k hk)) fun _ _ => .memWrite _ _

end Accumulator

/-- Two outcomes of the same kind: next states with the same registers, the same fault, the same refusal. -/
inductive SameResult : Host.Outcome State Fault Refusal → Host.Outcome State Fault Refusal → Prop where
  | next {t u : State} (regs : u.regs = t.regs) : SameResult (.next t) (.next u)
  | fault (f : Fault) : SameResult (.fault f) (.fault f)
  | refused (e : Refusal) : SameResult (.refused e) (.refused e)

theorem Region.contains_add {g : Region} {k : Nat} (hk : k < g.len.toNat) :
    g.contains (g.base.toNat + k) = true :=
  (g.contains_iff _).mpr ⟨Nat.le_add_right _ _, Nat.add_lt_add_left hk _⟩

/-- The bytes a command may read (20_memory.md R45). -/
def InReads (i : Instr) (r : Regs) (a : Nat) : Prop :=
  ∃ g ∈ commandReads i r, g.contains a = true

theorem inReads_chunk {r : Regs} {k : Nat} (hk : k < r.srcLen.toNat) :
    InReads .accAppend r (r.srcRegion.base.toNat + k) :=
  ⟨r.srcRegion, List.mem_cons_self, Region.contains_add hk⟩

theorem inReads_buffer {r : Regs} {k : Nat} (hk : k < r.accCap.toNat) :
    InReads .accAppend r (r.accBase.toNat + k) :=
  ⟨r.bufRegion, List.mem_cons_of_mem _ (List.mem_singleton_self _), Region.contains_add (g := r.bufRegion) hk⟩

section Commands
variable {s s' : State} (regs : s'.regs = s.regs)
include regs

theorem State.raise_sameResult (e : ErrCode) : SameResult (.next (s.raise e)) (.next (s'.raise e)) :=
  .next (congrArg (Regs.finish · e .ok) regs)

theorem execEncode_sameResult (ports : s.port.Agree (InReads .encode s.regs) s'.port) :
    SameResult (execEncode s) (execEncode s') := by
  have run := runEncoder_readsOnly (dst := s.regs.dstRegion)
    (fun _ hk => ⟨s.regs.srcRegion, List.mem_singleton_self _, Region.contains_add hk⟩) _ _ ports
  unfold execEncode
  rw [regs, ports.platform]
  split
  · exact State.raise_sameResult regs _
  · split_ifs
    · exact .refused _
    · generalize runEncoder _ _ s.port = x at run ⊢
      generalize runEncoder _ _ s'.port = y at run ⊢
      cases run with
      | ok => exact .next rfl
      | full => exact .next rfl
      | stop => exact .fault _

theorem execDecodeRaw_sameResult (ports : s.port.Agree (InReads .decodeRaw s.regs) s'.port) :
    SameResult (execDecodeRaw s) (execDecodeRaw s') := by
  have run := runDecodeRaw_readsOnly (dst := s.regs.dstRegion)
    (fun _ hk => ⟨s.regs.srcRegion, List.mem_singleton_self _, Region.contains_add hk⟩) _ _ ports
  unfold execDecodeRaw
  rw [regs, ports.platform]
  split
  · exact State.raise_sameResult regs _
  · split_ifs
    · exact .refused _
    · generalize runDecodeRaw _ _ s.port = x at run ⊢
      generalize runDecodeRaw _ _ s'.port = y at run ⊢
      cases run with
      | ok a => obtain ⟨status, o⟩ := a; cases status <;> exact .next rfl
      | full => exact .next rfl
      | stop => exact .fault _

theorem execAccInit_sameResult : SameResult (execAccInit s) (execAccInit s') := by
  unfold execAccInit
  rw [regs]
  split
  · exact State.raise_sameResult regs _
  · exact .next rfl

theorem execAccReset_sameResult : SameResult (execAccReset s) (execAccReset s') := by
  unfold execAccReset
  rw [regs]
  split
  · exact State.raise_sameResult regs _
  · exact .next rfl

/-- What ACC_APPEND writes to the registers at its end depends on the port by the count of draws only. -/
theorem State.endAppend_sameResult {p q : DataPort} (draws : q.draws = p.draws) (idx res ra rl : Nat)
    (o : OutCode) : SameResult (.next (s.endAppend p idx res ra rl o)) (.next (s'.endAppend q idx res ra rl o)) := by
  refine .next ?_
  have rem : (remAddrOf ra q).1 = (remAddrOf ra p).1 := by
    unfold remAddrOf
    split_ifs
    · rfl
    · exact congrArg Config.freeWord draws
  rw [State.endAppend_regs, State.endAppend_regs, rem, regs]

theorem appendWhole_sameResult {p q : DataPort} (ports : p.Agree (InReads .accAppend s.regs) q) :
    SameResult (appendWhole s p) (appendWhole s' q) := by
  have run := copyChunk_readsOnly (s.regs.accBase.toNat + s.regs.accIdx.toNat) s.regs.srcLen.toNat 0
    (fun _ hk => inReads_chunk (by omega)) _ _ ports
  unfold appendWhole
  rw [regs]
  dsimp only [Regs.srcRegion] at run ⊢
  split_ifs
  · generalize copyChunk _ _ _ _ p = x at run ⊢
    generalize copyChunk _ _ _ _ q = y at run ⊢
    cases run with
    | full x => exact x.elim
    | ok _ ports => exact State.endAppend_sameResult regs ports.draws ..
    | stop => exact .fault _
  · exact State.endAppend_sameResult regs ports.draws ..

theorem appendDecode_sameResult {m ra rl : Nat} {p q : DataPort} (fits : m < s.regs.accCap.toNat)
    (ports : p.Agree (InReads .accAppend s.regs) q) :
    SameResult (appendDecode s m ra rl p) (appendDecode s' m ra rl q) := by
  have run := decodeInPlace_readsOnly (fun _ hk => inReads_buffer (Nat.lt_trans hk fits)) _ _ ports
  unfold appendDecode
  rw [regs]
  dsimp only
  generalize decodeInPlace _ _ p = x at run ⊢
  generalize decodeInPlace _ _ q = y at run ⊢
  cases run with
  | full x => exact x.elim
  | ok a ports =>
    obtain ⟨status, o⟩ := a
    cases status <;> exact State.endAppend_sameResult regs (congrArg (· + _) ports.draws) ..
  | stop => exact .fault _

theorem appendDelimited_sameResult {d : Nat} {p q : DataPort} (hd : d < s.regs.srcLen.toNat)
    (ports : p.Agree (InReads .accAppend s.regs) q) :
    SameResult (appendDelimited s d p) (appendDelimited s' d q) := by
  have run := copyChunk_readsOnly (s.regs.accBase.toNat + s.regs.accIdx.toNat) d 0
    (fun _ hk => inReads_chunk (by omega)) _ _ ports
  unfold appendDelimited
  rw [regs]
  dsimp only [Regs.srcRegion] at run ⊢
  split_ifs with fits
  · generalize copyChunk _ _ _ _ p = x at run ⊢
    generalize copyChunk _ _ _ _ q = y at run ⊢
    cases run with
    | full x => exact x.elim
    | ok _ ports => exact appendDecode_sameResult regs fits ports
    | stop => exact .fault _
  · exact State.endAppend_sameResult regs ports.draws ..

theorem execAccAppend_sameResult (ports : s.port.Agree (InReads .accAppend s.regs) s'.port) :
    SameResult (execAccAppend s) (execAccAppend s') := by
  have run := findDelimiter_readsOnly s.regs.srcLen.toNat 0 (fun _ hk => inReads_chunk (by omega)) _ _ ports
  unfold execAccAppend
  rw [regs, ports.platform]
  split
  · exact State.raise_sameResult regs _
  · dsimp only [Regs.srcRegion] at run ⊢
    split_ifs
    · exact State.endAppend_sameResult regs ports.draws ..
    · exact .refused _
    · generalize hx : findDelimiter _ _ _ s.port = x at run ⊢
      generalize findDelimiter _ _ _ s'.port = y at run ⊢
      cases run with
      | full x => exact x.elim
      | ok d ports =>
        cases d with
        | none => exact appendWhole_sameResult regs ports
        | some d =>
          obtain ⟨-, hd⟩ := findDelimiter_lt _ _ _ hx
          rw [Nat.zero_add] at hd
          exact appendDelimited_sameResult regs hd ports
      | stop => exact .fault _

/-- With the same registers, and ports that agree on the bytes the command may read, a command ends the same
way: its registers, its fault or its refusal are the same. -/
theorem exec_sameResult {i : Instr} (ports : s.port.Agree (InReads i s.regs) s'.port) :
    SameResult (exec i s) (exec i s') := by
  cases i with
  | encode => exact execEncode_sameResult regs ports
  | decodeRaw => exact execDecodeRaw_sameResult regs ports
  | accInit => exact execAccInit_sameResult regs
  | accReset => exact execAccReset_sameResult regs
  | accAppend => exact execAccAppend_sameResult regs ports

end Commands

/-- Settles O54, by `exec_sameResult`: the two states' ports agree on what the command may read. -/
theorem resultDependsOnReadRegionsOnly : Obligations.ResultDependsOnReadRegionsOnly := by
  intro i s t m same h
  have ports : s.port.Agree (InReads i s.regs) { s.port with mem := m } :=
    ⟨rfl, rfl, rfl, fun a ⟨g, hg, inside⟩ => same g hg a inside⟩
  have result := exec_sameResult (s := s) (s' := { s with port := { s.port with mem := m } }) rfl ports
  rw [h] at result
  generalize exec i { s with port := { s.port with mem := m } } = y at result ⊢
  cases result with
  | next regs => exact ⟨_, rfl, regs⟩

end Sys2Proof.Machine
end

section
/-! The host's side of the encoding (30_encoding.md): which CMD words are commands, what they end with and which
registers they write, what the register window does with each access, and the pseudo-instruction `resubmit`. -/

namespace Sys2Proof
open Machine

/-! ### The command word -/

/-- A word's bytes on the bus, put together again, are the word (20_memory.md R46). -/
theorem decode_wordBytes (w : Word) : decode (wordBytes w) = decodeWord w := by
  have joined : wordOfBytes (w.extractLsb' 0 8) (w.extractLsb' 8 8) (w.extractLsb' 16 8) (w.extractLsb' 24 8) = w := by
    unfold wordOfBytes
    rw [BitVec.extractLsb'_append_extractLsb'_eq_extractLsb' (start₂ := 24) (start₁ := 16) rfl,
      BitVec.extractLsb'_append_extractLsb'_eq_extractLsb' (start₂ := 16) (start₁ := 8) rfl,
      BitVec.extractLsb'_append_extractLsb'_eq_extractLsb' (start₂ := 8) (start₁ := 0) rfl]
    exact BitVec.extractLsb'_eq_self
  exact congrArg decodeWord joined

/-- Four bytes on the bus are the bytes of the register they make up (20_memory.md R46). -/
theorem wordBytes_wordOfBytes (b0 b1 b2 b3 : Byte) : wordBytes (wordOfBytes b0 b1 b2 b3) = [b0, b1, b2, b3] := by
  unfold wordBytes wordOfBytes
  congr
  · exact BitVec.extractLsb'_append_eq_right
  · rw [BitVec.extractLsb'_append_eq_of_le (by decide)]
    exact BitVec.extractLsb'_append_eq_right
  · iterate 2 rw [BitVec.extractLsb'_append_eq_of_le (by decide)]
    exact BitVec.extractLsb'_append_eq_right
  · iterate 3 rw [BitVec.extractLsb'_append_eq_of_le (by decide)]
    exact BitVec.extractLsb'_eq_self

/-- The opcode map selects a command only by its own OP (30_encoding.md R59). -/
theorem encodeOp_of_decodeOp {op : BitVec 4} {i : Instr} (h : decodeOp op = .instr i) : op = encodeOp i := by
  unfold decodeOp at h
  split at h <;> cases h <;> exact BitVec.eq_of_toNat_eq ‹_›

/-- A word is its fields RES and OP (30_encoding.md R58). -/
theorem fieldRes_append_fieldOp (w : Word) : fieldRes w ++ fieldOp w = w :=
  BitVec.extractLsb'_append_extractLsb'

/-- "A decoder of CMD words selects a command only when the whole 32-bit word equals" the command's
(30_encoding.md R59). -/
theorem encode_of_decodeWord {w : Word} {i : Instr} (h : decodeWord w = .instr i) : w = encode i := by
  unfold decodeWord at h
  split at h <;> [skip; cases h]
  next res => rw [← fieldRes_append_fieldOp w, res, encodeOp_of_decodeOp h, encode]

/-- Settles O12: four bytes are those of one register, and `encode_of_decodeWord` says which; any other number of
bytes is neither. -/
theorem decodeIsExactlyTheFiveWords : Obligations.DecodeIsExactlyTheFiveWords := by
  refine ⟨fun bs i => ⟨fun h => ?_, ?_⟩, rfl⟩
  · unfold decode at h
    split at h <;> [skip; cases h]
    rw [encodeBytes, ← encode_of_decodeWord h, wordBytes_wordOfBytes]
  · rintro rfl
    exact decode_wordBytes_encode i

/-- Settles O11, word by word. -/
theorem commandWordsDecode : Obligations.CommandWordsDecode := by
  unfold Obligations.CommandWordsDecode
  decide

end Sys2Proof

namespace Sys2Proof.Machine
open DataPort (Within)

/-! ### An illegal word -/

theorem encode_toNat_bounds (i : Instr) : 1 ≤ (encode i).toNat ∧ (encode i).toNat ≤ 5 := by
  cases i <;> decide

/-- A word that is 0 or above 5 is no command's (30_encoding.md R60). -/
theorem writeCmd_of_illegal {w : Word} (illegal : w.toNat = 0 ∨ 5 < w.toNat) (s : State) :
    writeCmd w s = .next s.illegalCommand := by
  unfold writeCmd
  split
  · next i hi =>
    rw [decode_wordBytes] at hi
    have bounds := encode_toNat_bounds i
    rw [← encode_of_decodeWord hi] at bounds
    omega
  · rfl

theorem runHost_cmdWrite (w : Word) (s : State) : runHost (cmdWrite w) s = writeCmd w s := rfl

/-- Settles O14, by `writeCmd_of_illegal`. -/
theorem illegalWordOnlyReports : Obligations.IllegalWordOnlyReports := by
  intro s rest w illegal hp
  rw [step_of_pending hp, runHost_cmdWrite, writeCmd_of_illegal illegal]
  exact ⟨_, rfl, rfl⟩

/-! ### What a command ends with -/

/-- The code each check fails with is one of the command's row (30_encoding.md R62). -/
theorem check_mem_commandEnds {i : Instr} {r : Regs} {e : ErrCode} (h : commandCheck i r = some e) :
    (e, OutCode.ok) ∈ commandEnds i := by
  cases i with
  | encode => obtain rfl | rfl := transformCheck_eq_some h <;> decide
  | decodeRaw => obtain rfl | rfl := transformCheck_eq_some h <;> decide
  | accInit => obtain rfl := initCheck_eq_some h; decide
  | accReset => obtain rfl := resetCheck_eq_some h; decide
  | accAppend => obtain rfl | rfl | rfl := appendCheck_eq_some h <;> decide

/-- ENCODE has no OUTCOME but OK: its only failure is DST_FULL (40_encoder.md R74). -/
theorem execEncode_outcome {s t : State} (h : execEncode s = .next t) : t.regs.status.outcome = .ok := by
  obtain ⟨e, -, rfl⟩ | ⟨-, ⟨n, p, -, rfl⟩ | ⟨u, p, -, rfl⟩⟩ := execEncode_cases h <;> rfl

theorem exec_mem_commandEnds {i : Instr} {s t : State} (h : exec i s = .next t) :
    (t.regs.status.err, t.regs.status.outcome) ∈ commandEnds i := by
  cases exec_end h with
  | refused check => exact check_mem_commandEnds check
  | transformed hi => obtain rfl | rfl := hi <;> simp [commandEnds]
  | failed hi check reason =>
    obtain ⟨rfl, rfl⟩ | ⟨rfl, rfl⟩ := reason
    · obtain rfl | rfl := hi <;> simp [commandEnds]
    · obtain rfl | rfl := hi
      · cases execEncode_outcome h
      · simp [commandEnds]
  | bound => simp [commandEnds]
  | emptied => simp [commandEnds]
  | appended check rem_le outcome =>
    obtain rfl | ⟨-, rfl | rfl | rfl⟩ := outcome <;> simp [commandEnds]

/-- Settles O18, by `exec_mem_commandEnds`. -/
theorem everyEndIsOfTheTable : Obligations.EveryEndIsOfTheTable := by
  intro w s t h
  cases hw : decode (wordBytes w) with
  | instr i =>
    rw [writeCmd, hw] at h
    exact exec_mem_commandEnds h
  | rejected e =>
    rw [writeCmd, hw] at h
    cases h
    rfl

/-! ### The register frame of a command -/

theorem Regs.read_finish (r : Regs) (e : ErrCode) (o : OutCode) {n : RegName} (hn : n ≠ .status) :
    (r.finish e o).read n = r.read n := by
  cases n with
  | status => exact absurd rfl hn
  | _ => rfl

theorem Regs.read_setResLen (r : Regs) (k : Nat) {n : RegName} (hn : n ≠ .resLen) :
    (r.setResLen k).read n = r.read n := by
  cases n with
  | resLen => exact absurd rfl hn
  | _ => rfl

theorem Regs.read_setRem (r : Regs) (a : Word) (k : Nat) {n : RegName} (hAddr : n ≠ .remAddr) (hLen : n ≠ .remLen) :
    (r.setRem a k).read n = r.read n := by
  cases n with
  | remAddr => exact absurd rfl hAddr
  | remLen => exact absurd rfl hLen
  | _ => rfl

theorem Regs.read_setIdx (r : Regs) (k : Nat) {n : RegName} (hn : n ≠ .accIdx) : (r.setIdx k).read n = r.read n := by
  cases n with
  | accIdx => exact absurd rfl hn
  | _ => rfl

theorem Regs.read_bindBuffer (r : Regs) (b c : Word) {n : RegName} (hn : n ∉ commandWrites .accInit) :
    (r.bindBuffer b c).read n = r.read n := by
  cases n with
  | status | accBase | accCap | accIdx => simp [commandWrites] at hn
  | _ => rfl

theorem status_mem_commandWrites (i : Instr) : RegName.status ∈ commandWrites i := by
  cases i <;> decide

theorem resLen_mem_commandWrites {i : Instr} (hi : i = .encode ∨ i = .decodeRaw) :
    RegName.resLen ∈ commandWrites i := by
  obtain rfl | rfl := hi <;> decide

/-- However a command ends, a register outside its writes column reads as before (30_encoding.md R61). -/
theorem CommandEnd.read {i : Instr} {s t : State} (h : CommandEnd s i t) {n : RegName} (hn : n ∉ commandWrites i) :
    t.regs.read n = s.regs.read n := by
  have unwritten {m : RegName} (hm : m ∈ commandWrites i) : n ≠ m := (ne_of_mem_of_not_mem hm hn).symm
  have notStatus : n ≠ .status := unwritten (status_mem_commandWrites i)
  cases h with
  | refused => exact Regs.read_finish _ _ _ notStatus
  | transformed hi | failed hi =>
    rw [Regs.read_finish _ _ _ notStatus, Regs.read_setResLen _ _ (unwritten (resLen_mem_commandWrites hi))]
  | bound => rw [Regs.read_finish _ _ _ notStatus, Regs.read_bindBuffer _ _ _ hn]
  | emptied => rw [Regs.read_finish _ _ _ notStatus, Regs.read_setIdx _ _ (unwritten (by decide))]
  | appended =>
    rw [State.endAppend_regs, Regs.read_finish _ _ _ notStatus,
      Regs.read_setRem _ _ _ (unwritten (by decide)) (unwritten (by decide)),
      Regs.read_setResLen _ _ (unwritten (by decide)), Regs.read_setIdx _ _ (unwritten (by decide))]

/-- From `p` to `q`, the platform is the same and another agent is in the command's regions or not as before. -/
structure DataPort.SameBus (p q : DataPort) : Prop where
  platform : q.platform = p.platform
  raced : q.raced = p.raced

namespace DataPort.SameBus
variable {R : Nat → Prop} {p q r : DataPort}

theorem of_within (h : Within R p q) : SameBus p q := ⟨h.platform, h.raced⟩

theorem unspecified (a n : Nat) : SameBus p (p.unspecified a n) := ⟨rfl, rfl⟩

theorem trans (h : SameBus p q) (k : SameBus q r) : SameBus p r :=
  ⟨k.platform.trans h.platform, k.raced.trans h.raced⟩

end DataPort.SameBus

theorem State.endAppend_sameBus {s : State} {p q : DataPort} (h : p.SameBus q) (idx res ra rl : Nat) (o : OutCode) :
    p.SameBus (s.endAppend q idx res ra rl o).port :=
  ⟨by simp [h.platform], by simp [h.raced]⟩

theorem appendDecode_sameBus {s t : State} {m ra rl : Nat} {p : DataPort} (h : appendDecode s m ra rl p = .next t) :
    p.SameBus t.port := by
  obtain ⟨o, q, hdec, rfl⟩ | ⟨o, q, hdec, rfl⟩ := appendDecode_cases h
  all_goals
    obtain ⟨hq, -⟩ := decodeInPlace_within hdec
    exact State.endAppend_sameBus ((DataPort.SameBus.of_within hq).trans (.unspecified ..)) ..

/-- `DataPort.Within` asks for the canonical form, which ACC_APPEND keeps only where the working buffer lies in
data memory; the platform and the race it keeps in any state. -/
theorem execAccAppend_sameBus {s t : State} (h : execAccAppend s = .next t) : s.port.SameBus t.port := by
  obtain ⟨e, -, rfl⟩ | ⟨-, ⟨-, rfl⟩ | ⟨-, ⟨p, scan, h⟩ | ⟨d, p, scan, h⟩⟩⟩ := execAccAppend_cases h
  · exact ⟨rfl, rfl⟩
  · exact State.endAppend_sameBus ⟨rfl, rfl⟩ ..
  all_goals have scanned := DataPort.SameBus.of_within (findDelimiter_within (R := fun _ => False) _ _ _ scan)
  · obtain ⟨-, u, q, copy, rfl⟩ | ⟨-, rfl⟩ := appendWhole_cases h
    · exact State.endAppend_sameBus (scanned.trans (.of_within (copyChunk_within _ _ _ _ copy))) ..
    · exact State.endAppend_sameBus scanned ..
  · obtain ⟨-, u, q, copy, h⟩ | ⟨-, rfl⟩ := appendDelimited_cases h
    · exact (scanned.trans (.of_within (copyChunk_within _ _ _ _ copy))).trans (appendDecode_sameBus h)
    · exact State.endAppend_sameBus scanned ..

theorem State.OnlyBlockChanged.of_sameBus {s t : State} (port : s.port.SameBus t.port)
    (pending : t.pending = s.pending) (seen : t.seen = s.seen) : s.OnlyBlockChanged t := by
  obtain ⟨platform, raced⟩ := port
  unfold State.OnlyBlockChanged
  dsimp only
  rw [← platform, ← raced, ← pending, ← seen]

theorem exec_onlyBlockChanged {i : Instr} {s t : State} (h : exec i s = .next t) : s.OnlyBlockChanged t := by
  cases exec_end h with
  | refused | bound | emptied => exact .of_sameBus ⟨rfl, rfl⟩ rfl rfl
  | transformed _ _ within | failed _ _ _ within => exact .of_sameBus (.of_within within) rfl rfl
  | appended => exact .of_sameBus (execAccAppend_sameBus h) rfl rfl

/-- Settles O49: the registers over the ways a command can end, ACC_VALID as part of the binding, and the rest by
`exec_onlyBlockChanged`. -/
theorem commandsWriteOnlyTheirRegisters : Obligations.CommandsWriteOnlyTheirRegisters := by
  intro i s t h
  refine ⟨fun _ hn => (exec_end h).read hn, fun notInit => ?_, exec_onlyBlockChanged h⟩
  obtain ⟨-, -, valid⟩ := (exec_end h).sameBinding notInit
  exact valid

/-! ### Accesses to the register window -/

/-- Settles O9: both kinds of access ask first whether the block defines it. -/
theorem onlyAlignedWordAccessesHaveMeaning : Obligations.OnlyAlignedWordAccessesHaveMeaning := by
  intro s rest width off v unsupported access
  have undefined : accessDefined width off = false := by
    simpa [accessDefined, or_iff_not_imp_left] using unsupported
  obtain hp | hp := access <;> rw [step_of_pending hp]
  · simp [runHost, hostWrite, undefined]
  · simp [runHost, hostRead, undefined]

@[simp] theorem HostVal.resolve_pending (v : HostVal) (s : State) : (v.resolve s).2.pending = s.pending := by
  unfold HostVal.resolve
  split <;> [rfl; split <;> rfl]

/-- A write of a register other than CMD writes the value it stands for (30_encoding.md R57, R63). -/
theorem runHost_write {n : RegName} (notCmd : n ≠ .cmd) (v : HostVal) (s : State) :
    runHost (.write 4 n.offset v) s =
      .next { (v.resolve s).2 with regs := s.regs.write n (v.resolve s).1 } := by
  have written : runHost (.write 4 n.offset v) s = writeOffset n.offset (v.resolve s).1 (v.resolve s).2 := by
    simp [runHost, hostWrite, n.accessDefined_offset]
  rw [written, writeOffset, RegName.ofOffset_offset]
  cases n with
  | cmd => exact absurd rfl notCmd
  | _ => rw [← HostVal.resolve_regs v s]

theorem Regs.write_of_readOnly (r : Regs) {n : RegName}
    (hn : n ∈ [RegName.status, .resLen, .remAddr, .remLen, .accBase, .accCap, .accIdx]) (v : Word) :
    r.write n v = r := by
  cases n with
  | srcAddr | srcLen | dstAddr | dstCap => simp at hn
  | _ => rfl

/-- The registers end at offset 0x2C (10_state.md R22). -/
theorem RegName.ofOffset_reserved {off : BitVec 8} (reserved : 0x30 ≤ off.toNat) : RegName.ofOffset off = none := by
  cases h : RegName.ofOffset off with
  | none => rfl
  | some n =>
    have below : n.offset.toNat < 0x30 := by cases n <;> decide
    rw [RegName.offset_of_ofOffset h] at reserved
    omega

theorem accessDefined_of_aligned {off : BitVec 8} (aligned : off.toNat % 4 = 0) : accessDefined 4 off = true := by
  simp [accessDefined, aligned]

theorem runHost_write_reserved {off : BitVec 8} (reserved : 0x30 ≤ off.toNat) (aligned : off.toNat % 4 = 0)
    (v : HostVal) (s : State) : runHost (.write 4 off v) s = .next (v.resolve s).2 := by
  simp [runHost, hostWrite, accessDefined_of_aligned aligned, writeOffset, RegName.ofOffset_reserved reserved]

theorem Regs.readOffset_eq_zero (r : Regs) {off : BitVec 8} (h : 0x30 ≤ off.toNat ∨ off = RegName.cmd.offset) :
    r.readOffset off = 0 := by
  obtain reserved | rfl := h
  · simp [Regs.readOffset, RegName.ofOffset_reserved reserved]
  · rfl

/-- Settles O8: such a write does no more than resolve its value, and such a read records 0. -/
theorem readOnlyAndReservedOffsets : Obligations.ReadOnlyAndReservedOffsets := by
  refine ⟨fun s rest n v hn hp => ?_, fun s rest off v reserved aligned hp => ?_, fun s rest off zero aligned hp => ?_⟩
  · have notCmd : n ≠ .cmd := by rintro rfl; simp at hn
    rw [step_of_pending hp, runHost_write notCmd, Regs.write_of_readOnly _ hn]
    exact ⟨_, rfl, rfl, by simp, by simp⟩
  · rw [step_of_pending hp, runHost_write_reserved reserved aligned]
    exact ⟨_, rfl, by simp, by simp, by simp⟩
  · rw [step_of_pending hp, runHost, hostRead, if_pos (accessDefined_of_aligned aligned),
      Regs.readOffset_eq_zero _ zero]

/-! ### The pseudo-instruction `resubmit` -/

theorem core_run_succ {s t : State} (h : step s = .next t) (k : Nat) :
    Sys2Proof.core.run (k + 1) s = Sys2Proof.core.run k t := by
  have hcore : Sys2Proof.core.step s = .next t := h
  simp only [Host.Core.run, hcore]

/-- `(NAME)` stands for the value the host last read from NAME, and nothing is drawn (30_encoding.md R63). -/
theorem HostVal.resolve_lastRead {m : RegName} {w : Word} {s : State} (h : lastReadOf m.offset s.seen = some w) :
    (HostVal.lastRead m).resolve s = (w, s) := by
  simp [HostVal.resolve, h]

/-- Settles O10, transaction by transaction: two reads leave the remainder in the host's record, and two writes
take it from there. -/
theorem resubmitLoadsTheRemainder : Obligations.ResubmitLoadsTheRemainder := by
  intro s rest hp
  rw [core_run_succ ((step_of_pending hp).trans (runHost_read .remAddr _)),
    core_run_succ ((step_of_pending rfl).trans (runHost_read .remLen _)),
    core_run_succ ((step_of_pending rfl).trans (runHost_write (by decide) _ _)),
    HostVal.resolve_lastRead (w := s.regs.remAddr) rfl,
    core_run_succ ((step_of_pending rfl).trans (runHost_write (by decide) _ _)),
    HostVal.resolve_lastRead (w := s.regs.remLen) rfl]
  exact ⟨_, rfl, rfl, rfl, rfl⟩

end Sys2Proof.Machine
end

section
/-! The function `Stuff` (40_encoder.md R77 to R83). A payload is cut into blocks once (`block_induction`): a last
block, a block of 254 bytes with payload left, or a shorter block ended by a zero. Each function has an equation
per kind of block, and each rule is an induction over the blocks. -/

namespace Sys2Proof.Cobs

/-! ### Fuel above the length changes nothing -/

theorem length_drop_lt {P : List Byte} {k : Nat} (hk : 0 < k) (rest : P.drop k ≠ []) :
    (P.drop k).length < P.length := by
  have := List.length_pos_of_ne_nil rest
  rw [List.length_drop] at this ⊢
  omega

theorem length_drop_drop_lt {P : List Byte} {k : Nat} (rest : P.drop k ≠ []) :
    ((P.drop k).drop 1).length < P.length := by
  have := List.length_pos_of_ne_nil rest
  simp only [List.length_drop] at this ⊢
  omega

theorem stuffFuel_congr {f g : Nat} {P : List Byte} (hf : P.length < f) (hg : P.length < g) :
    stuffFuel f P = stuffFuel g P := by
  induction f generalizing g P with
  | zero => omega
  | succ f ih =>
    obtain ⟨g, rfl⟩ := Nat.exists_eq_add_one_of_ne_zero (Nat.ne_of_gt (Nat.zero_lt_of_lt hg))
    unfold stuffFuel
    dsimp only
    split_ifs with full last last
    · rfl
    · have := length_drop_lt (by omega) last
      rw [ih (g := g) (by omega) (by omega)]
    · rfl
    · have := length_drop_drop_lt last
      rw [ih (g := g) (by omega) (by omega)]

theorem chainedFuel_congr {f g : Nat} {P : List Byte} (hf : P.length < f) (hg : P.length < g) :
    chainedFuel f P = chainedFuel g P := by
  induction f generalizing g P with
  | zero => omega
  | succ f ih =>
    obtain ⟨g, rfl⟩ := Nat.exists_eq_add_one_of_ne_zero (Nat.ne_of_gt (Nat.zero_lt_of_lt hg))
    unfold chainedFuel
    dsimp only
    split_ifs with last full
    · rfl
    · have := length_drop_lt (by omega) last
      rw [ih (g := g) (by omega) (by omega)]
    · have := length_drop_drop_lt last
      rw [ih (g := g) (by omega) (by omega)]

theorem blocksFuel_congr {f g : Nat} {B : List Byte} {prev : Option Byte} (hf : B.length < f) (hg : B.length < g) :
    blocksFuel f B prev = blocksFuel g B prev := by
  induction f generalizing g B prev with
  | zero => omega
  | succ f ih =>
    obtain ⟨g, rfl⟩ := Nat.exists_eq_add_one_of_ne_zero (Nat.ne_of_gt (Nat.zero_lt_of_lt hg))
    cases B with
    | nil => rfl
    | cons c T =>
      rw [List.length_cons] at hf hg
      have rest : (T.drop (c.toNat - 1)).length ≤ T.length := by simp
      unfold blocksFuel
      dsimp only
      rw [ih (g := g) (by omega) (by omega)]

theorem stuffFuel_eq_stuff {f : Nat} {P : List Byte} (hf : P.length < f) : stuffFuel f P = stuff P :=
  stuffFuel_congr hf (Nat.lt_succ_self _)

theorem chainedFuel_eq_chainedBlocks {f : Nat} {P : List Byte} (hf : P.length < f) :
    chainedFuel f P = chainedBlocks P :=
  chainedFuel_congr hf (Nat.lt_succ_self _)

theorem blocksFuel_eq_blocks {f : Nat} {B : List Byte} {prev : Option Byte} (hf : B.length < f) :
    blocksFuel f B prev = blocks B prev :=
  blocksFuel_congr hf (Nat.lt_succ_self _)

/-! ### The recursions without fuel -/

/-- Settles O39: one round of `stuffFuel`, whose fuel is enough for what it leaves. -/
theorem stuffIsTheRecursion : Obligations.StuffIsTheRecursion := by
  intro P
  dsimp only
  conv_lhs => rw [stuff, stuffFuel]
  split_ifs with full last last
  · simp
  · rw [stuffFuel_eq_stuff (length_drop_lt (by omega) last)]
    simp
  · simp
  · rw [stuffFuel_eq_stuff (length_drop_drop_lt last)]
    simp

/-- `B` of 40_encoder.md R80, block by block. -/
theorem chainedBlocks_eq (P : List Byte) : chainedBlocks P =
    if P.drop (blockData P).length = [] then 0
    else if (blockData P).length = 254 then 1 + chainedBlocks (P.drop (blockData P).length)
    else chainedBlocks ((P.drop (blockData P).length).drop 1) := by
  conv_lhs => rw [chainedBlocks, chainedFuel]
  split_ifs with last full
  · rfl
  · rw [← chainedFuel_eq_chainedBlocks (length_drop_lt (by omega) last)]
  · rw [← chainedFuel_eq_chainedBlocks (length_drop_drop_lt last)]

/-- The zero that stands before a block, unless it is the first or follows a block of code 255
(41_decoder.md R95). -/
def implicitZero (prev : Option Byte) : List Byte := if prev ≠ none ∧ prev ≠ some 0xFF then [0x00] else []

/-- A block that is all there, with its `D.length` data bytes (41_decoder.md R95). -/
theorem blocks_cons_append {c : Byte} {D R : List Byte} (prev : Option Byte) (hc : c.toNat = D.length + 1) :
    blocks (c :: (D ++ R)) prev =
      if R = [] ∨ R.head? = some 0x00 then (.ok, implicitZero prev ++ D)
      else ((blocks R (some c)).1, implicitZero prev ++ D ++ (blocks R (some c)).2) := by
  have owed : c.toNat - 1 = D.length := by omega
  rw [← blocksFuel_eq_blocks (f := (D ++ R).length + 1) (B := R) (by rw [List.length_append]; omega)]
  conv_lhs => rw [blocks, List.length_cons, blocksFuel]
  simp only [owed, List.length_append, List.take_left, List.drop_left]
  rw [if_neg (by omega)]
  rfl

/-! ### The blocks of a payload -/

theorem blockData_append {D : List Byte} (zeroFree : (0x00 : Byte) ∉ D) (R : List Byte) :
    blockData (D ++ R) = (D ++ R.takeWhile fun b => b != 0x00).take 254 := by
  rw [blockData, List.takeWhile_append_of_pos]
  intro b hb
  simpa using ne_of_mem_of_not_mem hb zeroFree

theorem blockData_last {D : List Byte} (zeroFree : (0x00 : Byte) ∉ D) (hD : D.length ≤ 254) : blockData D = D := by
  simpa [List.take_of_length_le hD] using blockData_append zeroFree []

theorem blockData_full {D : List Byte} (zeroFree : (0x00 : Byte) ∉ D) (hD : D.length = 254) (R : List Byte) :
    blockData (D ++ R) = D := by
  rw [blockData_append zeroFree, List.take_left' hD]

theorem blockData_zero {D : List Byte} (zeroFree : (0x00 : Byte) ∉ D) (hD : D.length < 254) (R : List Byte) :
    blockData (D ++ 0x00 :: R) = D := by
  simp [blockData_append zeroFree, List.take_of_length_le hD.le]

/-- A payload is its last block, or starts with a block of 254 bytes, or with a shorter one before a zero. -/
theorem exists_firstBlock (P : List Byte) :
    ((0x00 : Byte) ∉ P ∧ P.length ≤ 254) ∨
      (∃ D R, P = D ++ R ∧ (0x00 : Byte) ∉ D ∧ D.length = 254 ∧ R ≠ []) ∨
      (∃ D R, P = D ++ 0x00 :: R ∧ (0x00 : Byte) ∉ D ∧ D.length < 254) := by
  by_cases zero : (0x00 : Byte) ∈ P.take 254
  · obtain ⟨D, R, split, zeroFree⟩ := List.eq_append_cons_of_mem zero
    have short : D.length < 254 := by
      have := congrArg List.length split
      simp only [List.length_take, List.length_append, List.length_cons] at this
      omega
    refine .inr (.inr ⟨D, R ++ P.drop 254, ?_, zeroFree, short⟩)
    conv_lhs => rw [← List.take_append_drop 254 P, split]
    simp
  · obtain hlen | hlen := Nat.lt_or_ge 254 P.length
    · exact .inr (.inl ⟨P.take 254, P.drop 254, (List.take_append_drop 254 P).symm, zero,
        List.length_take_of_le hlen.le, by simpa using hlen⟩)
    · exact .inl ⟨List.take_of_length_le hlen ▸ zero, hlen⟩

/-- Induction over the blocks of a payload. -/
theorem block_induction {motive : List Byte → Prop}
    (last : ∀ D, (0x00 : Byte) ∉ D → D.length ≤ 254 → motive D)
    (full : ∀ D R, (0x00 : Byte) ∉ D → D.length = 254 → R ≠ [] → motive R → motive (D ++ R))
    (zero : ∀ D R, (0x00 : Byte) ∉ D → D.length < 254 → motive R → motive (D ++ 0x00 :: R)) (P : List Byte) :
    motive P := by
  induction hn : P.length using Nat.strong_induction_on generalizing P with
  | _ n ih =>
    obtain ⟨zeroFree, hP⟩ | ⟨D, R, rfl, zeroFree, hD, hR⟩ | ⟨D, R, rfl, zeroFree, hD⟩ := exists_firstBlock P
    · exact last P zeroFree hP
    · exact full D R zeroFree hD hR (ih _ (by simp at hn; omega) R rfl)
    · exact zero D R zeroFree hD (ih _ (by simp at hn; omega) R rfl)

/-- A block's code byte counts its data bytes and itself (40_encoder.md R77). -/
theorem toNat_code {k : Nat} (hk : k ≤ 254) : (BitVec.ofNat 8 (k + 1)).toNat = k + 1 :=
  Nat.mod_eq_of_lt (by omega)

theorem code_ne_zero {k : Nat} (hk : k ≤ 254) : BitVec.ofNat 8 (k + 1) ≠ 0x00 := fun h => by
  have := congrArg BitVec.toNat h
  rw [toNat_code hk] at this
  cases this

theorem code_ne_chainCode {k : Nat} (hk : k < 254) : BitVec.ofNat 8 (k + 1) ≠ 0xFF := fun h => by
  have := congrArg BitVec.toNat h
  rw [toNat_code hk.le] at this
  exact absurd (Nat.succ.inj this) hk.ne

section Blocks
variable {D : List Byte} (zeroFree : (0x00 : Byte) ∉ D)
include zeroFree

theorem stuff_last (hD : D.length ≤ 254) : stuff D = BitVec.ofNat 8 (D.length + 1) :: D := by
  have eq := stuffIsTheRecursion D
  rw [blockData_last zeroFree hD] at eq
  rw [eq, List.drop_length, if_pos rfl, if_pos rfl]
  split_ifs with full
  · rw [full]
    rfl
  · rfl

theorem stuff_full (hD : D.length = 254) {R : List Byte} (hR : R ≠ []) : stuff (D ++ R) = 0xFF :: (D ++ stuff R) := by
  have eq := stuffIsTheRecursion (D ++ R)
  rw [blockData_full zeroFree hD] at eq
  rw [eq, List.drop_left, if_pos hD, if_neg hR]

theorem stuff_zero (hD : D.length < 254) (R : List Byte) :
    stuff (D ++ 0x00 :: R) = BitVec.ofNat 8 (D.length + 1) :: (D ++ stuff R) := by
  have eq := stuffIsTheRecursion (D ++ 0x00 :: R)
  rw [blockData_zero zeroFree hD] at eq
  rw [eq, List.drop_left, if_neg hD.ne, if_neg (List.cons_ne_nil _ _), List.drop_one, List.tail_cons]

theorem chainedBlocks_last (hD : D.length ≤ 254) : chainedBlocks D = 0 := by
  rw [chainedBlocks_eq, blockData_last zeroFree hD, List.drop_length, if_pos rfl]

theorem chainedBlocks_full (hD : D.length = 254) {R : List Byte} (hR : R ≠ []) :
    chainedBlocks (D ++ R) = 1 + chainedBlocks R := by
  rw [chainedBlocks_eq, blockData_full zeroFree hD, List.drop_left, if_neg hR, if_pos hD]

theorem chainedBlocks_zero (hD : D.length < 254) (R : List Byte) :
    chainedBlocks (D ++ 0x00 :: R) = chainedBlocks R := by
  rw [chainedBlocks_eq, blockData_zero zeroFree hD, List.drop_left, if_neg (List.cons_ne_nil _ _), if_neg hD.ne,
    List.drop_one, List.tail_cons]

end Blocks

/-! ### The length of `Stuff(P)` -/

theorem length_stuff (P : List Byte) : (stuff P).length = P.length + 1 + chainedBlocks P := by
  induction P using block_induction with
  | last D zeroFree hD => simp [stuff_last zeroFree hD, chainedBlocks_last zeroFree hD]
  | full D R zeroFree hD hR ih =>
    simp only [stuff_full zeroFree hD hR, chainedBlocks_full zeroFree hD hR, List.length_cons, List.length_append, ih]
    omega
  | zero D R zeroFree hD ih =>
    simp only [stuff_zero zeroFree hD, chainedBlocks_zero zeroFree hD, List.length_cons, List.length_append, ih]
    omega

@[simp] theorem length_encodeOut (P : List Byte) : (encodeOut P).length = (stuff P).length + 1 := by
  simp [encodeOut]

/-- Every chained block holds 254 payload bytes and has payload after it. -/
theorem chainedBlocks_le (P : List Byte) : 254 * chainedBlocks P ≤ P.length - 1 := by
  induction P using block_induction with
  | last D zeroFree hD => simp [chainedBlocks_last zeroFree hD]
  | full D R zeroFree hD hR ih =>
    have := List.length_pos_of_ne_nil hR
    rw [chainedBlocks_full zeroFree hD hR, List.length_append]
    omega
  | zero D R zeroFree hD ih =>
    rw [chainedBlocks_zero zeroFree hD, List.length_append, List.length_cons]
    omega

/-- Without a zero, every block but the last is chained. -/
theorem length_le_of_zeroFree (P : List Byte) (zeroFree : (0x00 : Byte) ∉ P) :
    P.length ≤ 254 * (chainedBlocks P + 1) := by
  induction P using block_induction with
  | last D _ hD => omega
  | full D R hzero hD hR ih =>
    have := ih fun h => zeroFree (List.mem_append_right D h)
    rw [chainedBlocks_full hzero hD hR, List.length_append]
    omega
  | zero D R => simp at zeroFree

/-- Settles O41, from the number of chained blocks and its two bounds. -/
theorem stuffedLength : Obligations.StuffedLength := by
  refine ⟨rfl, fun P => ⟨length_stuff P, fun nonempty => ?_, fun nonempty zeroFree => ?_⟩⟩
  · have := chainedBlocks_le P
    rw [length_stuff]
    omega
  · have := chainedBlocks_le P
    have := length_le_of_zeroFree P zeroFree
    rw [length_stuff]
    omega

/-- Settles O42: a full block, then the last block `x`, or a zero and the empty last block. -/
theorem stuffAtTheBlockBoundary : Obligations.StuffAtTheBlockBoundary := by
  refine ⟨rfl, fun D x hD zeroFree hx => ⟨?_, ?_, ?_⟩⟩
  · rw [stuff_last zeroFree hD.le, hD]
    rfl
  · rw [stuff_full zeroFree hD (List.cons_ne_nil _ _), stuff_last (by simpa using hx.symm) (by simp)]
    rfl
  · rw [stuff_full zeroFree hD (List.cons_ne_nil _ _)]
    rfl

/-! ### `Stuff(P)` holds no zero -/

theorem zero_notMem_stuff (P : List Byte) : (0x00 : Byte) ∉ stuff P := by
  induction P using block_induction with
  | last D zeroFree hD =>
    rw [stuff_last zeroFree hD]
    exact List.not_mem_cons_of_ne_of_not_mem (code_ne_zero hD).symm zeroFree
  | full D R zeroFree hD hR ih =>
    rw [stuff_full zeroFree hD hR]
    exact List.not_mem_cons_of_ne_of_not_mem (by decide) fun h => (List.mem_append.mp h).elim zeroFree ih
  | zero D R zeroFree hD ih =>
    rw [stuff_zero zeroFree hD]
    exact List.not_mem_cons_of_ne_of_not_mem (code_ne_zero hD.le).symm
      fun h => (List.mem_append.mp h).elim zeroFree ih

/-- Settles O40: the delimiter search passes over `Stuff(P)` and stops at the sentinel. -/
theorem stuffedBytesAreZeroFree : Obligations.StuffedBytesAreZeroFree := by
  intro P
  have passed : (stuff P).findIdx? (fun b => b == 0x00) = none := by
    rw [List.findIdx?_eq_none_iff]
    intro b hb
    simpa using ne_of_mem_of_not_mem hb (zero_notMem_stuff P)
  refine ⟨zero_notMem_stuff P, ?_, length_encodeOut P⟩
  rw [delimiterOffset, encodeOut, List.findIdx?_append, passed]
  simp [List.findIdx?_cons]

/-- `Stuff(P)` starts with a code byte, which is not zero. -/
theorem exists_stuff_eq_cons (P : List Byte) : ∃ c T, c ≠ 0x00 ∧ stuff P = c :: T := by
  obtain ⟨c, T, h⟩ := List.exists_cons_of_length_pos (l := stuff P) (by rw [length_stuff]; omega)
  exact ⟨c, T, fun zero => zero_notMem_stuff P (by simp [h, zero]), h⟩

/-! ### `Encode(P)`, block by block -/

section Blocks
variable {D : List Byte} (zeroFree : (0x00 : Byte) ∉ D)
include zeroFree

theorem encodeOut_last (hD : D.length ≤ 254) : encodeOut D = BitVec.ofNat 8 (D.length + 1) :: (D ++ [0x00]) := by
  rw [encodeOut, stuff_last zeroFree hD, List.cons_append]

theorem encodeOut_full (hD : D.length = 254) {R : List Byte} (hR : R ≠ []) :
    encodeOut (D ++ R) = 0xFF :: (D ++ encodeOut R) := by
  rw [encodeOut, stuff_full zeroFree hD hR, List.cons_append, List.append_assoc, encodeOut]

theorem encodeOut_zero (hD : D.length < 254) (R : List Byte) :
    encodeOut (D ++ 0x00 :: R) = BitVec.ofNat 8 (D.length + 1) :: (D ++ encodeOut R) := by
  rw [encodeOut, stuff_zero zeroFree hD, List.cons_append, List.append_assoc, encodeOut]

end Blocks

/-! ### Decoding inverts encoding -/

theorem implicitZero_chainCode : implicitZero (some 0xFF) = [] := rfl
theorem implicitZero_code {k : Nat} (hk : k < 254) : implicitZero (some (BitVec.ofNat 8 (k + 1))) = [0x00] :=
  if_pos ⟨nofun, fun h => code_ne_chainCode hk (Option.some.inj h)⟩

/-- The decoder's blocks of `Stuff(P)`, at the end of the input or before a sentinel, give `P` behind the zero
their first block implies (40_encoder.md R83). -/
theorem blocks_stuff (P : List Byte) (prev : Option Byte) {T : List Byte} (hT : T = [] ∨ T.head? = some 0x00) :
    blocks (stuff P ++ T) prev = (.ok, implicitZero prev ++ P) := by
  have goesOn (R : List Byte) : ¬ (stuff R ++ T = [] ∨ (stuff R ++ T).head? = some 0x00) := by
    obtain ⟨c, U, hc, h⟩ := exists_stuff_eq_cons R
    rw [h]
    rintro (empty | zero)
    · cases empty
    · exact hc (Option.some.inj zero)
  induction P using block_induction generalizing prev with
  | last D zeroFree hD =>
    rw [stuff_last zeroFree hD, List.cons_append, blocks_cons_append prev (toNat_code hD), if_pos hT]
  | full D R zeroFree hD hR ih =>
    rw [stuff_full zeroFree hD hR, List.cons_append, List.append_assoc,
      blocks_cons_append prev (by rw [hD]; rfl), if_neg (goesOn R), ih, implicitZero_chainCode]
    simp
  | zero D R zeroFree hD ih =>
    rw [stuff_zero zeroFree hD, List.cons_append, List.append_assoc,
      blocks_cons_append prev (toNat_code hD.le), if_neg (goesOn R), ih, implicitZero_code hD]
    simp

theorem decodeRaw_stuff_append (P : List Byte) {T : List Byte} (hT : T = [] ∨ T.head? = some 0x00) :
    decodeRaw (stuff P ++ T) = (.ok, P) := by
  have decoded := blocks_stuff P none hT
  obtain ⟨c, U, hc, h⟩ := exists_stuff_eq_cons P
  rw [h, List.cons_append] at decoded ⊢
  rw [decodeRaw, if_neg hc, decoded]
  rfl

/-- Settles O46: `Stuff(P)` at the end of the input, and before the sentinel. -/
theorem decodeInvertsEncode : Obligations.DecodeInvertsEncode := fun P =>
  ⟨by simpa using decodeRaw_stuff_append P (.inl rfl), decodeRaw_stuff_append P (.inr rfl)⟩

end Sys2Proof.Cobs
end

section
/-! ENCODE (40_encoder.md R66 to R76). Between two payload bytes the unit owes a code byte at `cp` and has put the
data `D` of the open block behind it, so what it still writes from `cp` on is `Stuff` of `D` and the bytes left,
and the sentinel. `EncodesAt` says so with the capacity, and `encRest_encodes` shows it payload byte by payload
byte; the command's two ends follow. -/

namespace Sys2Proof.Machine

/-! ### Sequences of bytes in data memory -/

theorem DataPort.byteAt_eq_of_bytesAt_eq {p q : DataPort} {a n : Nat} (h : p.bytesAt a n = q.bytesAt a n) {b : Nat}
    (low : a ≤ b) (high : b < a + n) : p.byteAt b = q.byteAt b := by
  obtain ⟨k, rfl⟩ := Nat.exists_eq_add_of_le low
  have hk : k < n := by omega
  rw [← p.getElem_bytesAt a n k (by simpa using hk), ← q.getElem_bytesAt a n k (by simpa using hk)]
  simp only [h]

/-- Memories that agree outside a range agree once the same bytes are put there. -/
theorem DataPort.byteAt_putBytes_congr {p q : DataPort} {a : Nat} {bs : List Byte}
    (outside : ∀ b, b < a ∨ a + bs.length ≤ b → p.byteAt b = q.byteAt b) (b : Nat) :
    (p.putBytes a bs).byteAt b = (q.putBytes a bs).byteAt b := by
  by_cases hb : b < a ∨ a + bs.length ≤ b
  · rw [p.byteAt_putBytes_outside a bs hb, q.byteAt_putBytes_outside a bs hb, outside b hb]
  · exact byteAt_eq_of_bytesAt_eq (by rw [bytesAt_putBytes, bytesAt_putBytes]) (by omega) (by omega)

theorem DataPort.putBytes_cons (p : DataPort) (a : Nat) (v : Byte) (bs : List Byte) :
    p.putBytes a (v :: bs) = (p.putByte a v).putBytes (a + 1) bs := rfl

theorem DataPort.putBytes_append (p : DataPort) (a : Nat) (bs cs : List Byte) :
    p.putBytes a (bs ++ cs) = (p.putBytes a bs).putBytes (a + bs.length) cs := by
  induction bs generalizing p a with
  | nil => rfl
  | cons v bs ih =>
    rw [List.cons_append, putBytes_cons, ih, putBytes_cons, List.length_cons, Nat.add_right_comm a, Nat.add_assoc a]

/-- Putting bytes where memory holds them changes nothing. -/
theorem DataPort.byteAt_putBytes_of_held {p : DataPort} {a : Nat} {bs : List Byte}
    (held : p.bytesAt a bs.length = bs) (b : Nat) : (p.putBytes a bs).byteAt b = p.byteAt b := by
  by_cases hb : b < a ∨ a + bs.length ≤ b
  · exact p.byteAt_putBytes_outside a bs hb
  · exact byteAt_eq_of_bytesAt_eq (by rw [bytesAt_putBytes, held]) (by omega) (by omega)

theorem DataPort.bytesAt_putByte_outside {p : DataPort} {a b n : Nat} (v : Byte) (h : b < a ∨ a + n ≤ b) :
    (p.putByte b v).bytesAt a n = p.bytesAt a n :=
  bytesAt_ext fun _ _ => p.byteAt_putByte_ne v (by omega)

/-- A byte put behind a sequence lengthens it. -/
theorem DataPort.bytesAt_putByte_end {p : DataPort} {a : Nat} {D : List Byte} (held : p.bytesAt a D.length = D)
    (v : Byte) : (p.putByte (a + D.length) v).bytesAt a (D.length + 1) = D ++ [v] := by
  rw [bytesAt_add, bytesAt_putByte_outside v (.inr (Nat.le_refl _)), held, bytesAt_succ, byteAt_putByte_self,
    bytesAt_zero]

/-! ### A transform's regions -/

/-- The regions of a transform that can run to its end (`State.TransformReady`), as the unit sees them. -/
structure RegionsReady (src dst : Region) (p : DataPort) : Prop where
  src_wf : src.wellFormed = true
  dst_wf : dst.wellFormed = true
  apart : src.overlaps dst = false
  src_answers : p.AdmitsRange src.base.toNat src.len.toNat
  dst_answers : p.AdmitsRange dst.base.toNat dst.len.toNat
  quiet : p.raced = false

theorem State.TransformReady.regionsReady {s : State} (ready : s.TransformReady) :
    RegionsReady s.regs.srcRegion s.regs.dstRegion s.port := by
  obtain ⟨src_wf, dst_wf, apart, -, src_answers, dst_answers, quiet⟩ := ready
  exact ⟨src_wf, dst_wf, apart, src_answers, dst_answers, quiet⟩

namespace RegionsReady
variable {src dst : Region} {p : DataPort} (ready : RegionsReady src dst p)
include ready

theorem putByte (a : Nat) (v : Byte) : RegionsReady src dst (p.putByte a v) :=
  ⟨ready.src_wf, ready.dst_wf, ready.apart, ready.src_answers, ready.dst_answers, ready.quiet⟩

theorem memRead {φ : Type} {i : Nat} (hi : i < src.len.toNat) :
    (Machine.memRead (src.base.toNat + i) p : Run φ Byte) = .ok (p.byteAt (src.base.toNat + i)) p := by
  have := src.wellFormed_iff.mp ready.src_wf
  exact memRead_quiet (by omega) (ready.src_answers i hi) ready.quiet

theorem outByte {k : Nat} (hk : k < dst.len.toNat) (v : Byte) :
    Machine.outByte dst k v p = .ok () (p.putByte (dst.base.toNat + k) v) := by
  have := dst.wellFormed_iff.mp ready.dst_wf
  exact outByte_admitted hk (by omega) (ready.dst_answers k hk)

/-- Writes to the destination leave the source as it is. -/
theorem source_kept {i n k : Nat} (hi : i + n ≤ src.len.toNat) (hk : k < dst.len.toNat) (v : Byte) :
    (p.putByte (dst.base.toNat + k) v).bytesAt (src.base.toNat + i) n = p.bytesAt (src.base.toNat + i) n := by
  refine DataPort.bytesAt_ext fun j hj => p.byteAt_putByte_ne v fun same => ?_
  have inSource := (src.contains_iff (src.base.toNat + i + j)).mpr ⟨by omega, by omega⟩
  have inDest := (dst.contains_iff (src.base.toNat + i + j)).mpr ⟨by omega, by omega⟩
  simp [Region.disjoint_of_not_overlaps ready.apart inSource] at inDest

end RegionsReady

/-! ### What is still to be written -/

/-- A piece of ENCODE, run on `p`, puts `out` at offset `cp` of the destination as the last of its bytes and
changes nothing else, if the capacity holds it; else it ends at a failed destination check (40_encoder.md R74,
R75). -/
def EncodesAt (dst : Region) (cp : Nat) (out : List Byte) (p : DataPort) (x : Run Unit Nat) : Prop :=
  if cp + out.length ≤ dst.len.toNat then
    ∃ q, x = .ok (cp + out.length) q ∧ q.draws = p.draws ∧
      ∀ b, q.byteAt b = (p.putBytes (dst.base.toNat + cp) out).byteAt b
  else ∃ q, x = .full () q

namespace EncodesAt
variable {src dst : Region} {cp : Nat} {out : List Byte} {p : DataPort}

theorem completes {x : Run Unit Nat} (h : EncodesAt dst cp out p x) (fits : cp + out.length ≤ dst.len.toNat) :
    ∃ q, x = .ok (cp + out.length) q ∧ q.draws = p.draws ∧
      ∀ b, q.byteAt b = (p.putBytes (dst.base.toNat + cp) out).byteAt b := (if_pos fits).mp h

theorem fails {x : Run Unit Nat} (h : EncodesAt dst cp out p x) (short : dst.len.toNat < cp + out.length) :
    ∃ q, x = .full () q := (if_neg (Nat.not_le_of_lt short)).mp h

/-- A checked write of a byte among those still to be written. -/
theorem bind_outByte (ready : RegionsReady src dst p) {k : Nat} {v : Byte} {f : Unit → DataPort → Run Unit Nat}
    (hk : k < cp + out.length)
    (next : k < dst.len.toNat → EncodesAt dst cp out p (f () (p.putByte (dst.base.toNat + k) v))) :
    EncodesAt dst cp out p ((outByte dst k v p).bind f) := by
  by_cases fits : k < dst.len.toNat
  · rw [ready.outByte fits]
    exact next fits
  · rw [outByte_of_ge (Nat.le_of_not_lt fits), EncodesAt, if_neg (by omega)]
    exact ⟨p, rfl⟩

/-- A byte written early, where it will be written over, does not matter. -/
theorem of_putByte {x : Run Unit Nat} {k : Nat} {v : Byte} (low : cp ≤ k) (high : k < cp + out.length)
    (h : EncodesAt dst cp out (p.putByte (dst.base.toNat + k) v) x) : EncodesAt dst cp out p x := by
  unfold EncodesAt at h ⊢
  split_ifs at h ⊢
  · obtain ⟨q, run, draws, bytes⟩ := h
    refine ⟨q, run, draws, fun b => (bytes b).trans (DataPort.byteAt_putBytes_congr (fun b hb => ?_) b)⟩
    exact p.byteAt_putByte_ne v (by omega)
  · exact h

/-- A block is closed by its code byte, its data being there (40_encoder.md R71). -/
theorem close_block (ready : RegionsReady src dst p) {c : Byte} {D : List Byte}
    {f : Unit → DataPort → Run Unit Nat} (held : p.bytesAt (dst.base.toNat + cp + 1) D.length = D)
    (next : cp < dst.len.toNat → EncodesAt dst (cp + 1 + D.length) out (p.putByte (dst.base.toNat + cp) c)
      (f () (p.putByte (dst.base.toNat + cp) c))) :
    EncodesAt dst cp (c :: (D ++ out)) p ((outByte dst cp c p).bind f) := by
  refine bind_outByte ready (by simp) fun fits => ?_
  have total : cp + (c :: (D ++ out)).length = cp + 1 + D.length + out.length := by
    simp only [List.length_cons, List.length_append]
    omega
  have next := next fits
  unfold EncodesAt at next ⊢
  rw [total]
  split_ifs at next ⊢
  · obtain ⟨q, run, draws, bytes⟩ := next
    refine ⟨q, run, draws, fun b => (bytes b).trans ?_⟩
    rw [DataPort.putBytes_cons, DataPort.putBytes_append, Nat.add_assoc cp 1, ← Nat.add_assoc _ cp,
      ← Nat.add_assoc _ 1]
    refine DataPort.byteAt_putBytes_congr (fun b _ => (DataPort.byteAt_putBytes_of_held ?_ b).symm) b
    rw [DataPort.bytesAt_putByte_outside c (.inl (Nat.lt_succ_self _)), held]
  · exact next

/-- The sentinel (40_encoder.md R73). -/
theorem sentinel (ready : RegionsReady src dst p) :
    EncodesAt dst cp [0x00] p ((outByte dst cp Config.delimiter p).bind fun _ p => .ok (cp + 1) p) := by
  refine bind_outByte ready (Nat.lt_succ_self _) fun fits => ?_
  exact (if_pos fits).mpr ⟨_, rfl, rfl, fun _ => rfl⟩

end EncodesAt

/-! ### The encoder unit -/

theorem Run.bind_assoc {φ α β γ : Type} (x : Run φ α) (f : α → DataPort → Run φ β) (g : β → DataPort → Run φ γ) :
    (x.bind f).bind g = x.bind fun a p => (f a p).bind g := by
  cases x <;> rfl

/-- What the unit does past the payload: the final code and the sentinel (40_encoder.md R72, R73). -/
def encEnd (dst : Region) (r : EncRegs) (p : DataPort) : Run Unit Nat :=
  (encFinalCode dst r p).bind fun _ p => (outByte dst r.o Config.delimiter p).bind fun _ p => .ok (r.o + 1) p

/-- What the unit does from any payload byte on. -/
def encRest (src dst : Region) (left i : Nat) (r : EncRegs) (p : DataPort) : Run Unit Nat :=
  (encLoop src dst left i r p).bind (encEnd dst)

theorem runEncoder_eq_encRest (src dst : Region) (p : DataPort) :
    runEncoder src dst p = encRest src dst src.len.toNat 0 EncRegs.start p := rfl

theorem encRest_zero (src dst : Region) (i : Nat) (r : EncRegs) (p : DataPort) :
    encRest src dst 0 i r p = encEnd dst r p := rfl

theorem encRest_succ {src dst : Region} {left i : Nat} {r : EncRegs} {p : DataPort} {b : Byte}
    (read : (memRead (src.base.toNat + i) p : Run Unit Byte) = .ok b p) :
    encRest src dst (left + 1) i r p = (encCopy dst b r p).bind fun r p =>
      (encClose dst b (decide (0 < left)) r p).bind (encRest src dst left (i + 1)) := by
  simp only [encRest, encLoop, read, Run.bind_ok, Run.bind_assoc]
  rfl

theorem encEnd_of_owed {dst : Region} {r : EncRegs} (owed : r.cp < r.o) (p : DataPort) :
    encEnd dst r p = (outByte dst r.cp r.code p).bind fun _ p =>
      (outByte dst r.o Config.delimiter p).bind fun _ p => .ok (r.o + 1) p := by
  rw [encEnd, encFinalCode, if_pos owed]

theorem encEnd_of_not_owed (dst : Region) (c : Byte) (o : Nat) (p : DataPort) :
    encEnd dst { code := c, cp := o, o := o } p =
      (outByte dst o Config.delimiter p).bind fun _ p => .ok (o + 1) p := by
  rw [encEnd, encFinalCode, if_neg (Nat.lt_irrefl o), Run.bind_ok]

theorem encCopy_zero (dst : Region) (r : EncRegs) (p : DataPort) : encCopy dst 0x00 r p = .ok r p := rfl

theorem encCopy_of_ne {b : Byte} (hb : b ≠ 0x00) (dst : Region) (r : EncRegs) (p : DataPort) :
    encCopy dst b r p = (outByte dst r.o b p).bind fun _ p =>
      .ok { code := r.code + 1, cp := r.cp, o := r.o + 1 } p := if_pos hb

theorem encClose_zero (dst : Region) (more : Bool) (r : EncRegs) (p : DataPort) :
    encClose dst 0x00 more r p = (outByte dst r.cp r.code p).bind fun _ p =>
      .ok { code := 1, cp := r.o, o := r.o + 1 } p := by
  simp [encClose]

theorem encClose_full {b : Byte} (hb : b ≠ 0x00) (dst : Region) (more : Bool) (cp o : Nat) (p : DataPort) :
    encClose dst b more { code := 0xFF, cp := cp, o := o } p = (outByte dst cp 0xFF p).bind fun _ p =>
      .ok { code := 1, cp := o, o := if more then o + 1 else o } p := by
  rw [encClose, if_pos (.inr rfl)]
  simp only [hb, false_or]

theorem encClose_open {b : Byte} (hb : b ≠ 0x00) {r : EncRegs} (hr : r.code ≠ 0xFF) (dst : Region) (more : Bool)
    (p : DataPort) : encClose dst b more r p = .ok r p := if_neg (not_or.mpr ⟨hb, hr⟩)

/-- The unit's registers with the data `D` in the open block, its code byte owed at `cp`. -/
def EncRegs.opened (cp : Nat) (D : List Byte) : EncRegs :=
  { code := BitVec.ofNat 8 (D.length + 1), cp := cp, o := cp + 1 + D.length }

theorem EncRegs.opened_snoc (cp : Nat) (D : List Byte) (b : Byte) :
    EncRegs.opened cp (D ++ [b]) =
      { code := (opened cp D).code + 1, cp := (opened cp D).cp, o := (opened cp D).o + 1 } := by
  simp only [opened, List.length_append, List.length_singleton, BitVec.ofNat_add]
  rfl

/-- The data `D` stands behind the code byte owed at `cp`. -/
structure BlockOpen (src dst : Region) (cp : Nat) (D : List Byte) (p : DataPort) : Prop where
  ready : RegionsReady src dst p
  zeroFree : (0x00 : Byte) ∉ D
  held : p.bytesAt (dst.base.toNat + cp + 1) D.length = D

namespace BlockOpen
variable {src dst : Region} {cp : Nat} {D : List Byte} {p : DataPort}

theorem start (ready : RegionsReady src dst p) (cp : Nat) : BlockOpen src dst cp [] p :=
  ⟨ready, List.not_mem_nil, rfl⟩

theorem snoc (h : BlockOpen src dst cp D p) {b : Byte} (hb : b ≠ 0x00) :
    BlockOpen src dst cp (D ++ [b]) (p.putByte (dst.base.toNat + (cp + 1 + D.length)) b) := by
  refine ⟨h.ready.putByte _ b, fun zero => ?_, ?_⟩
  · obtain zero | zero := List.mem_append.mp zero
    · exact h.zeroFree zero
    · exact hb (List.mem_singleton.mp zero).symm
  · rw [← Nat.add_assoc _ (cp + 1), ← Nat.add_assoc _ cp, List.length_append]
    exact DataPort.bytesAt_putByte_end h.held b

end BlockOpen

/-- From payload byte `i` on, with `left` bytes to go and the data `D` in an open block, the unit writes `Stuff`
of both from the owed code byte on, and the sentinel (40_encoder.md R77, R78). -/
def RestEncodes (src dst : Region) (left i : Nat) : Prop :=
  ∀ (cp : Nat) (D : List Byte) (p : DataPort), BlockOpen src dst cp D p → D.length < 254 →
    EncodesAt dst cp (Cobs.encodeOut (D ++ p.bytesAt (src.base.toNat + i) left)) p
      (encRest src dst left i (.opened cp D) p)

namespace RestEncodes
variable {src dst : Region} {left i cp : Nat} {D : List Byte} {p : DataPort}

/-- The payload is over: the open block is the last. -/
theorem zero : RestEncodes src dst 0 i := by
  intro cp D p block hD
  rw [DataPort.bytesAt_zero, List.append_nil, Cobs.encodeOut_last block.zeroFree hD.le, encRest_zero,
    encEnd_of_owed (by simp only [EncRegs.opened]; omega)]
  exact .close_block block.ready block.held fun _ => .sentinel (block.ready.putByte _ _)

/-- A code byte is written and the next block opened. -/
theorem next_block (rest : RestEncodes src dst left i) (inSource : i + left ≤ src.len.toNat)
    (ready : RegionsReady src dst p) {k : Nat} (hk : k < dst.len.toNat) (c : Byte) :
    EncodesAt dst cp (Cobs.encodeOut (p.bytesAt (src.base.toNat + i) left)) (p.putByte (dst.base.toNat + k) c)
      (encRest src dst left i (.opened cp []) (p.putByte (dst.base.toNat + k) c)) := by
  rw [← ready.source_kept inSource hk c]
  exact rest cp [] _ (.start (ready.putByte _ c) cp) (by decide)

/-- A block of 254 data bytes is closed, and the next opened only if payload is left (40_encoder.md R71). -/
theorem close_full (rest : RestEncodes src dst left i) (inSource : i + left ≤ src.len.toNat)
    (block : BlockOpen src dst cp D p) (hD : D.length = 254) {b : Byte} (hb : b ≠ 0x00) :
    EncodesAt dst cp (Cobs.encodeOut (D ++ p.bytesAt (src.base.toNat + i) left)) p
      ((encClose dst b (decide (0 < left)) (.opened cp D) p).bind (encRest src dst left i)) := by
  have code : BitVec.ofNat 8 (D.length + 1) = 0xFF := by
    rw [hD]
    rfl
  rw [EncRegs.opened, code, encClose_full hb, Run.bind_assoc]
  cases left with
  | zero =>
    rw [DataPort.bytesAt_zero, List.append_nil, Cobs.encodeOut_last block.zeroFree hD.le, code]
    refine .close_block block.ready block.held fun _ => ?_
    rw [Run.bind_ok, encRest_zero]
    exact encEnd_of_not_owed dst 1 _ _ ▸ .sentinel (block.ready.putByte _ _)
  | succ left =>
    have payload : p.bytesAt (src.base.toNat + i) (left + 1) ≠ [] := List.cons_ne_nil _ _
    rw [Cobs.encodeOut_full block.zeroFree hD payload]
    exact .close_block block.ready block.held fun fits => rest.next_block inSource block.ready fits _

theorem succ (rest : RestEncodes src dst left (i + 1)) (inSource : i + 1 + left ≤ src.len.toNat) :
    RestEncodes src dst (left + 1) i := by
  intro cp D p block hD
  have ready := block.ready
  rw [DataPort.bytesAt_succ, encRest_succ (ready.memRead (by omega)), Nat.add_assoc _ i]
  generalize p.byteAt (src.base.toNat + i) = b
  by_cases hb : b = 0x00
  · rw [hb, Cobs.encodeOut_zero block.zeroFree hD, encCopy_zero, Run.bind_ok, encClose_zero, Run.bind_assoc]
    exact .close_block ready block.held fun fits => rest.next_block inSource ready fits _
  · have inOutput : cp + 1 + D.length <
        cp + (Cobs.encodeOut (D ++ b :: p.bytesAt (src.base.toNat + (i + 1)) left)).length := by
      rw [Cobs.length_encodeOut, Cobs.length_stuff, List.length_append, List.length_cons]
      omega
    rw [encCopy_of_ne hb, Run.bind_assoc]
    refine .bind_outByte ready inOutput fun fits => .of_putByte (v := b) (by omega) inOutput ?_
    rw [List.append_cons, Run.bind_ok, ← EncRegs.opened_snoc, ← ready.source_kept inSource fits b]
    have block := block.snoc hb
    obtain hlt | hfull := Nat.lt_or_eq_of_le (Nat.succ_le_of_lt hD)
    · have short : (D ++ [b]).length < 254 := by simpa using hlt
      rw [encClose_open hb (Cobs.code_ne_chainCode short), Run.bind_ok]
      exact rest cp _ _ block short
    · exact rest.close_full inSource block (by simpa using hfull) hb

end RestEncodes

theorem restEncodes {src dst : Region} {left i : Nat} (inSource : i + left ≤ src.len.toNat) :
    RestEncodes src dst left i := by
  induction left generalizing i with
  | zero => exact .zero
  | succ left ih => exact (ih (by omega)).succ (by omega)

/-- The encoder unit writes `Encode` of its source at the start of its destination, if the capacity holds it. -/
theorem runEncoder_encodes {src dst : Region} {p : DataPort} (ready : RegionsReady src dst p) :
    EncodesAt dst 0 (Cobs.encodeOut (p.bytesAt src.base.toNat src.len.toNat)) p (runEncoder src dst p) :=
  restEncodes (Nat.zero_add _).le 0 [] p (.start ready 0) (by decide)

/-! ### The command -/

theorem exec_encode_of_ok {s : State} (check : transformCheck s.regs = none)
    (plain : s.port.platform.namesDevice (accessRegions .encode s.regs) = false) {n : Nat} {q : DataPort}
    (run : runEncoder s.regs.srcRegion s.regs.dstRegion s.port = .ok n q) :
    exec .encode s = .next { s with port := q, regs := (s.regs.setResLen n).finish .none .ok } := by
  simp only [exec, execEncode, check, plain, run]
  rfl

theorem exec_encode_of_full {s : State} (check : transformCheck s.regs = none)
    (plain : s.port.platform.namesDevice (accessRegions .encode s.regs) = false) {u : Unit} {q : DataPort}
    (run : runEncoder s.regs.srcRegion s.regs.dstRegion s.port = .full u q) :
    exec .encode s = .next { s with port := q.unspecifiedRegion s.regs.dstRegion
                                    regs := (s.regs.setResLen 0).finish .dstFull .ok } := by
  simp only [exec, execEncode, check, plain, run]
  rfl

theorem State.TransformReady.check {s : State} (ready : s.TransformReady) : transformCheck s.regs = none := by
  obtain ⟨src_wf, dst_wf, apart, -⟩ := ready
  exact transformCheck_eq_none.mpr ⟨src_wf, dst_wf, apart⟩

theorem State.TransformReady.encodes {s : State} (ready : s.TransformReady) :
    EncodesAt s.regs.dstRegion 0 (Cobs.encodeOut s.sourceBytes) s.port
      (runEncoder s.regs.srcRegion s.regs.dstRegion s.port) :=
  runEncoder_encodes ready.regionsReady

theorem State.TransformReady.plain {s : State} (ready : s.TransformReady) :
    s.port.platform.namesDevice [s.regs.srcRegion, s.regs.dstRegion] = false := by
  obtain ⟨-, -, -, plain, -⟩ := ready
  exact plain

/-- Settles O20: the unit completes, by `State.TransformReady.encodes`. -/
theorem encodeWritesEncodedPayload : Obligations.EncodeWritesEncodedPayload := by
  intro s ready fits
  obtain ⟨q, run, draws, bytes⟩ := ready.encodes.completes ((Nat.zero_add _).le.trans fits)
  rw [Nat.zero_add] at run
  have h := exec_encode_of_ok ready.check ready.plain run
  refine ⟨_, h, exec_onlyBlockChanged h, draws, rfl, toNat_ofNat_of_le fits, ?_, fun b hb => ?_⟩
  · exact (DataPort.bytesAt_ext fun k _ => bytes _).trans (DataPort.bytesAt_putBytes ..)
  · exact (bytes b).trans (DataPort.byteAt_putBytes_outside _ _ _ hb)

/-- Settles O21: the unit ends at a failed check, by `State.TransformReady.encodes`, and the command writes in its
destination only. -/
theorem encodeDestinationFull : Obligations.EncodeDestinationFull := by
  intro s ready short
  obtain ⟨q, run⟩ := ready.encodes.fails (short.trans_eq (Nat.zero_add _).symm)
  have h := exec_encode_of_full ready.check ready.plain run
  refine ⟨_, h, exec_onlyBlockChanged h, rfl, fun b hb => ?_⟩
  have outside := (s.regs.dstRegion.not_contains_iff b).mpr hb
  exact (q.byteAt_unspecifiedRegion_outside _ outside).trans
    ((runEncoder_within.2 _ run).byteAt b (by simp [outside]))

/-- A transform that fails its check only reports it. -/
theorem exec_of_transformCheck {s : State} {i : Instr} {e : ErrCode} (hi : i = .encode ∨ i = .decodeRaw)
    (check : transformCheck s.regs = some e) : exec i s = .next (s.raise e) := by
  obtain rfl | rfl := hi
  · simp only [exec, execEncode, check]
  · simp only [exec, execDecodeRaw, check]

/-- Settles O16: what the check says, region by region. -/
theorem transformChecksInOrder : Obligations.TransformChecksInOrder := by
  intro s i hi
  refine ⟨fun illFormed => exec_of_transformCheck hi ?_, fun src_wf dst_wf overlap => exec_of_transformCheck hi ?_⟩
  · obtain wf | wf := illFormed <;> simp [transformCheck, wf]
  · simp [transformCheck, src_wf, dst_wf, overlap]

end Sys2Proof.Machine
end

section
/-! The function `DecodeRaw` (41_decoder.md R95 to R97). `decodeScan` gives it byte by byte, as the decoder unit reads
its input, and `blocks_eq_decodeScan` shows that the two agree; what holds of every input is then an induction over
its bytes. -/

namespace Sys2Proof.Cobs

/-- The bytes `out`, then what the decoder still emits. -/
def emit (out : List Byte) (r : DecStatus × List Byte) : DecStatus × List Byte := (r.1, out ++ r.2)

@[simp] theorem emit_nil (r : DecStatus × List Byte) : emit [] r = r := rfl
@[simp] theorem emit_end (out : List Byte) (st : DecStatus) : emit out (st, []) = (st, out) := by simp [emit]
@[simp] theorem emit_output (out : List Byte) (r : DecStatus × List Byte) : (emit out r).2 = out ++ r.2 := rfl
theorem emit_append (out more : List Byte) (r : DecStatus × List Byte) :
    emit (out ++ more) r = emit out (emit more r) := by
  simp [emit]

/-! ### The recursion without fuel -/

/-- One round of `Blocks`, its implicit zero in front (41_decoder.md R95): the fuel is enough for what the round
leaves. -/
theorem blocks_cons (c : Byte) (T : List Byte) (prev : Option Byte) : blocks (c :: T) prev =
    if T.length < c.toNat - 1 then emit (implicitZero prev) (.malformed, T)
    else if T.drop (c.toNat - 1) = [] ∨ (T.drop (c.toNat - 1)).head? = some 0x00 then
      emit (implicitZero prev) (.ok, T.take (c.toNat - 1))
    else emit (implicitZero prev) (emit (T.take (c.toNat - 1)) (blocks (T.drop (c.toNat - 1)) (some c))) := by
  rw [← blocksFuel_eq_blocks (f := T.length + 1) (B := T.drop (c.toNat - 1)) (by rw [List.length_drop]; omega)]
  conv_lhs => rw [blocks, List.length_cons, blocksFuel]
  simp only [List.append_assoc]
  rfl

/-- Settles O43, with `blocks_cons` for the recursion. -/
theorem decodeRawIsTheRecursion : Obligations.DecodeRawIsTheRecursion :=
  ⟨rfl, fun _ => rfl, fun _ _ hc => if_neg hc, fun c T prev _ => blocks_cons c T prev⟩

/-! ### `DecodeRaw`, byte by byte -/

/-- What the decoder still emits with `block` data bytes owed by the block of code `code` (41_decoder.md R90 to
R92). -/
def decodeScan (code block : Byte) : List Byte → DecStatus × List Byte
  | [] => (if block ≠ 0 then .malformed else .ok, [])
  | b :: B =>
    if block ≠ 0 then emit [b] (decodeScan code (block - 1) B)
    else if b = 0x00 then (.ok, [])
    else emit (implicitZero (some code)) (decodeScan b (b - 1) B)

theorem decodeScan_nil_owed (code : Byte) {block : Byte} (owed : block ≠ 0) :
    decodeScan code block [] = (.malformed, []) := by
  rw [decodeScan, if_pos owed]

theorem decodeScan_data (code : Byte) {block : Byte} (owed : block ≠ 0) (b : Byte) (B : List Byte) :
    decodeScan code block (b :: B) = emit [b] (decodeScan code (block - 1) B) := if_pos owed

theorem decodeScan_code (code : Byte) {b : Byte} (hb : b ≠ 0x00) (B : List Byte) :
    decodeScan code 0 (b :: B) = emit (implicitZero (some code)) (decodeScan b (b - 1) B) := if_neg hb

/-- The scan stops at the end of a block, before the end of the input or a zero (41_decoder.md R91, R92). -/
theorem decodeScan_stop (code : Byte) {B : List Byte} (stop : B = [] ∨ B.head? = some 0x00) :
    decodeScan code 0 B = (.ok, []) := by
  cases B with
  | nil => rfl
  | cons b B =>
    have zero : b = 0x00 := by simpa using stop
    rw [zero]
    rfl

theorem toNat_sub_one {b : Byte} (hb : b ≠ 0) : (b - 1).toNat = b.toNat - 1 := by
  bv_omega

/-- The data bytes a block owes are copied, or the input is too short for them (41_decoder.md R90, R92). -/
theorem decodeScan_block (code block : Byte) (B : List Byte) : decodeScan code block B =
    if B.length < block.toNat then (.malformed, B)
    else emit (B.take block.toNat) (decodeScan code 0 (B.drop block.toNat)) := by
  induction B generalizing block with
  | nil =>
    by_cases owed : block = 0
    · rw [owed]
      rfl
    · have : 0 < block.toNat := by bv_omega
      rw [decodeScan_nil_owed code owed, List.length_nil, if_pos this]
  | cons b B ih =>
    by_cases owed : block = 0
    · rw [owed]
      rfl
    · obtain ⟨k, hk⟩ : ∃ k, block.toNat = k + 1 := Nat.exists_eq_add_one_of_ne_zero (by bv_omega)
      rw [decodeScan_data code owed, ih, toNat_sub_one owed, hk, List.length_cons, Nat.add_sub_cancel,
        List.take_succ_cons, List.drop_succ_cons]
      simp only [Nat.add_lt_add_iff_right]
      split_ifs
      · rfl
      · rw [← emit_append, List.singleton_append]

/-- `Blocks` is the scan behind its first code byte. -/
theorem blocks_eq_decodeScan {c : Byte} (hc : c ≠ 0x00) (T : List Byte) (prev : Option Byte) :
    blocks (c :: T) prev = emit (implicitZero prev) (decodeScan c (c - 1) T) := by
  induction hn : T.length using Nat.strong_induction_on generalizing c T prev with
  | _ n ih =>
    rw [blocks_cons, decodeScan_block, toNat_sub_one hc]
    split_ifs with truncated stop
    · rfl
    · rw [decodeScan_stop c stop, emit_end]
    · cases hR : T.drop (c.toNat - 1) with
      | nil => exact absurd (.inl hR) stop
      | cons b R =>
        have hb : b ≠ 0x00 := fun zero => stop (.inr (by rw [hR, zero]; rfl))
        have shorter : R.length < n := by
          have := congrArg List.length hR
          rw [List.length_drop, List.length_cons] at this
          omega
        rw [ih _ shorter hb R (some c) rfl, decodeScan_code c hb]

/-- `DecodeRaw` is the scan from the decoder's start, past the check for a leading zero (41_decoder.md R88, R89). -/
theorem decodeRaw_eq_decodeScan (B : List Byte) :
    decodeRaw B = if B.head? = some 0x00 then (.malformed, []) else decodeScan 0xFF 0 B := by
  cases B with
  | nil => rfl
  | cons b B =>
    by_cases hb : b = 0x00
    · rw [hb]
      rfl
    · rw [decodeRaw, if_neg hb, if_neg (by simpa using hb), blocks_eq_decodeScan hb, decodeScan_code _ hb]
      rfl

theorem decodeRaw_cons {b : Byte} (hb : b ≠ 0x00) (B : List Byte) : decodeRaw (b :: B) = decodeScan b (b - 1) B := by
  rw [decodeRaw, if_neg hb, blocks_eq_decodeScan hb]
  rfl

/-! ### The length of the output -/

theorem length_implicitZero_le (prev : Option Byte) : (implicitZero prev).length ≤ 1 := by
  unfold implicitZero
  split_ifs <;> simp

/-- Each byte read yields at most one (41_decoder.md R97). -/
theorem length_decodeScan_le (code block : Byte) (B : List Byte) : (decodeScan code block B).2.length ≤ B.length := by
  induction B generalizing code block with
  | nil => exact Nat.le_refl 0
  | cons b B ih =>
    unfold decodeScan
    split_ifs
    · have := ih code (block - 1)
      rw [emit_output, List.length_append, List.length_singleton, List.length_cons]
      omega
    · exact Nat.zero_le _
    · have := ih b (b - 1)
      have := length_implicitZero_le (some code)
      rw [emit_output, List.length_append, List.length_cons]
      omega

/-- Settles O45: the first byte yields none, and each later one at most one. -/
theorem decodedLengthBound : Obligations.DecodedLengthBound := by
  refine ⟨rfl, fun B nonempty => ?_⟩
  obtain ⟨b, T, rfl⟩ := List.exists_cons_of_ne_nil nonempty
  by_cases hb : b = 0x00
  · rw [hb]
    exact Nat.zero_le _
  · rw [decodeRaw_cons hb]
    exact length_decodeScan_le b (b - 1) T

/-! ### Empty outputs -/

/-- Behind its first code byte the scan emits nothing, with status OK, only where that byte owes no data and the
scan stops at once: past another code byte it would emit the implicit zero. -/
theorem decodeScan_eq_ok_nil {c : Byte} {T : List Byte} (h : decodeScan c (c - 1) T = (.ok, [])) :
    c = 0x01 ∧ (T = [] ∨ T.head? = some 0x00) := by
  by_cases one : c = 0x01
  · refine ⟨one, ?_⟩
    subst one
    cases T with
    | nil => exact .inl rfl
    | cons b T =>
      refine .inr (congrArg some ?_)
      by_contra hb
      rw [show (0x01 - 1 : Byte) = 0 from rfl, decodeScan_code _ hb] at h
      cases congrArg Prod.snd h
  · have owed : c - 1 ≠ 0 := by bv_omega
    cases T with
    | nil =>
      rw [decodeScan_nil_owed c owed] at h
      cases h
    | cons b T =>
      rw [decodeScan_data c owed] at h
      cases congrArg Prod.snd h

/-- Settles O44, by `decodeScan_eq_ok_nil` behind the first byte. -/
theorem emptyOutputInputs : Obligations.EmptyOutputInputs := by
  intro B
  refine ⟨fun h => ?_, ?_⟩
  · cases B with
    | nil => exact .inl rfl
    | cons b T =>
      have hb : b ≠ 0x00 := fun zero => by
        rw [zero] at h
        cases h
      rw [decodeRaw_cons hb] at h
      obtain ⟨rfl, rfl | stop⟩ := decodeScan_eq_ok_nil h
      · exact .inr (.inl rfl)
      · obtain ⟨T, rfl⟩ := List.head?_eq_some_iff.mp stop
        exact .inr (.inr ⟨T, rfl⟩)
  · rintro (rfl | rfl | ⟨T, rfl⟩) <;> rfl

end Sys2Proof.Cobs
end

section
/-! DECODE_RAW (41_decoder.md R85 to R94). `DecoderBus` says what the decoder unit needs of the bytes it reads and
writes, and `runDecoder_decodes` shows, input byte by input byte, that over such a bus it computes `DecodeRaw`; the
three ends of the command follow. -/

namespace Sys2Proof.Machine

/-! ### What is still to be emitted -/

/-- A piece of the decoder unit, run on `p`, puts the output `res.2` at offset `o` of its destination as the last of
its bytes, changes nothing else and ends with the status `res.1`, if the capacity holds the output; else it ends at
a failed destination check (41_decoder.md R93, R94). -/
def DecodesAt {φ : Type} (dst cap o : Nat) (res : Cobs.DecStatus × List Byte) (p : DataPort)
    (x : Run φ (Cobs.DecStatus × Nat)) : Prop :=
  if o + res.2.length ≤ cap then x = .ok (res.1, o + res.2.length) (p.putBytes (dst + o) res.2)
  else ∃ e q, x = .full e q

/-- The two primitives of the decoder unit, as it needs them for an input of `len` bytes at `src` and a destination
of `cap` bytes at `dst`: in a good state they read and write those bytes, and a byte written at or before the offset
of a byte already read leaves the rest of the input as it is (41_decoder.md R98). -/
structure DecoderBus {φ : Type} (src len dst cap : Nat) (inp : Nat → DataPort → Run φ Byte)
    (out : Nat → Byte → DataPort → Run φ Unit) (Good : DataPort → Prop) : Prop where
  read : ∀ {i} {p : DataPort}, Good p → i < len → inp i p = .ok (p.byteAt (src + i)) p
  write : ∀ {k v} {p : DataPort}, Good p → k < cap → out k v p = .ok () (p.putByte (dst + k) v)
  full : ∀ {k v p}, k < len → cap ≤ k → ∃ e q, out k v p = .full e q
  good : ∀ {a v} {p : DataPort}, Good p → Good (p.putByte a v)
  ahead : ∀ {i n k v} {p : DataPort}, Good p → k < i → k < cap → i + n ≤ len →
    (p.putByte (dst + k) v).bytesAt (src + i) n = p.bytesAt (src + i) n

namespace DecodesAt
variable {φ : Type} {src len dst cap o : Nat} {inp : Nat → DataPort → Run φ Byte}
  {out : Nat → Byte → DataPort → Run φ Unit} {Good : DataPort → Prop} {res : Cobs.DecStatus × List Byte}
  {p : DataPort}

theorem completes {x : Run φ (Cobs.DecStatus × Nat)} (h : DecodesAt dst cap o res p x)
    (fits : o + res.2.length ≤ cap) : x = .ok (res.1, o + res.2.length) (p.putBytes (dst + o) res.2) :=
  (if_pos fits).mp h

theorem fails {x : Run φ (Cobs.DecStatus × Nat)} (h : DecodesAt dst cap o res p x)
    (short : cap < o + res.2.length) : ∃ e q, x = .full e q :=
  (if_neg (Nat.not_le_of_lt short)).mp h

/-- Nothing is left to emit. -/
theorem ended (room : o ≤ cap) (st : Cobs.DecStatus) :
    DecodesAt dst cap o (st, []) p (.ok (st, o) p : Run φ (Cobs.DecStatus × Nat)) := (if_pos room).mpr rfl

/-- A checked write of the next output byte. -/
theorem bind_out (bus : DecoderBus src len dst cap inp out Good) (good : Good p) (inInput : o < len) {v : Byte}
    {f : Unit → DataPort → Run φ (Cobs.DecStatus × Nat)}
    (next : o < cap → DecodesAt dst cap (o + 1) res (p.putByte (dst + o) v) (f () (p.putByte (dst + o) v))) :
    DecodesAt dst cap o (Cobs.emit [v] res) p ((out o v p).bind f) := by
  have total : o + (Cobs.emit [v] res).2.length = o + 1 + res.2.length := by
    rw [Cobs.emit_output, List.length_append, List.length_singleton, Nat.add_assoc]
  by_cases room : o < cap
  · rw [bus.write good room, Run.bind_ok, DecodesAt, total]
    exact next room
  · obtain ⟨e, q, run⟩ := bus.full (v := v) (p := p) inInput (Nat.le_of_not_lt room)
    rw [DecodesAt, if_neg (by omega), run]
    exact ⟨e, q, rfl⟩

end DecodesAt

/-! ### The decoder unit -/

theorem decImplicitZero_zero {φ : Type} (out : Nat → Byte → DataPort → Run φ Unit) (r : DecRegs) (p : DataPort) :
    decImplicitZero out 0x00 r p = .ok r.o p := rfl

/-- Behind a block of code 255 no implicit zero is written (41_decoder.md R91). -/
theorem decImplicitZero_chained {φ : Type} (out : Nat → Byte → DataPort → Run φ Unit) (b : Byte) {r : DecRegs}
    (chained : r.code = 0xFF) (p : DataPort) : decImplicitZero out b r p = .ok r.o p :=
  if_neg fun h => h.2 chained

theorem decImplicitZero_written {φ : Type} (out : Nat → Byte → DataPort → Run φ Unit) {b : Byte} (hb : b ≠ 0x00)
    {r : DecRegs} (closed : r.code ≠ 0xFF) (p : DataPort) :
    decImplicitZero out b r p = (out r.o 0x00 p).bind fun _ p => .ok (r.o + 1) p := if_pos ⟨hb, closed⟩

section Unit
variable {φ : Type} {src len dst cap : Nat} {inp : Nat → DataPort → Run φ Byte}
  {out : Nat → Byte → DataPort → Run φ Unit} {Good : DataPort → Prop}

/-- From input byte `i` on, with `left` bytes to go, the unit emits what the scan of those bytes gives, the output
being no longer than the input read (41_decoder.md R90 to R92, R98). -/
theorem decLoop_decodes (bus : DecoderBus src len dst cap inp out Good) {left i o : Nat} (inInput : i + left ≤ len)
    (behind : o ≤ i) (room : o ≤ cap) {p : DataPort} (good : Good p) (code block : Byte) :
    DecodesAt dst cap o (Cobs.decodeScan code block (p.bytesAt (src + i) left)) p
      (decLoop inp out left i { code := code, block := block, o := o } p) := by
  induction left generalizing i o p code block with
  | zero => exact .ended room _
  | succ left ih =>
    rw [DataPort.bytesAt_succ, decLoop, bus.read good (by omega), Run.bind_ok, Nat.add_assoc src i]
    generalize p.byteAt (src + i) = b
    have unread (fits : o < cap) (v : Byte) :
        (p.putByte (dst + o) v).bytesAt (src + (i + 1)) left = p.bytesAt (src + (i + 1)) left :=
      bus.ahead good (Nat.lt_succ_of_le behind) fits (by omega)
    by_cases owed : block = 0
    · rw [owed, if_neg (not_not.mpr rfl)]
      by_cases hb : b = 0x00
      · rw [hb, decImplicitZero_zero, Run.bind_ok]
        exact .ended room _
      rw [Cobs.decodeScan_code _ hb]
      by_cases chained : code = 0xFF
      · rw [decImplicitZero_chained out b chained, Run.bind_ok, if_neg hb, chained, Cobs.implicitZero_chainCode,
          Cobs.emit_nil]
        exact ih (by omega) (Nat.le_succ_of_le behind) room good b (b - 1)
      · have zero : Cobs.implicitZero (some code) = [0x00] := if_pos ⟨nofun, by simpa using chained⟩
        rw [decImplicitZero_written out hb chained, zero, Run.bind_assoc]
        refine .bind_out bus good (by omega) fun fits => ?_
        rw [Run.bind_ok, if_neg hb, ← unread fits 0x00]
        exact ih (by omega) (Nat.succ_le_succ behind) fits (bus.good good) b (b - 1)
    · rw [Cobs.decodeScan_data _ owed, if_pos owed]
      refine .bind_out bus good (by omega) fun fits => ?_
      rw [← unread fits b]
      exact ih (by omega) (Nat.succ_le_succ behind) fits (bus.good good) code (block - 1)

/-- The decoder unit computes `DecodeRaw` of its input (41_decoder.md R95). -/
theorem runDecoder_decodes (bus : DecoderBus src len dst cap inp out Good) {p : DataPort} (good : Good p) :
    DecodesAt dst cap 0 (Cobs.decodeRaw (p.bytesAt src len)) p (runDecoder len inp out p) := by
  have scan := decLoop_decodes bus (Nat.zero_add len).le (Nat.le_refl 0) (Nat.zero_le cap) good 0xFF 0
  rw [runDecoder, decLeadingZero, Cobs.decodeRaw_eq_decodeScan]
  by_cases nonempty : 0 < len
  · rw [if_pos nonempty, bus.read good nonempty, Run.bind_ok, Run.bind_ok]
    have head : (p.bytesAt src len).head? = some (p.byteAt src) := by
      obtain ⟨n, rfl⟩ := Nat.exists_eq_add_one_of_ne_zero nonempty.ne'
      rfl
    rw [head]
    by_cases zero : p.byteAt src = 0x00
    · simp only [zero, decide_true, if_true, Nat.add_zero]
      exact .ended (Nat.zero_le _) _
    · simpa only [zero, decide_false, Bool.false_eq_true, if_false, Nat.add_zero, Option.some.injEq,
        DecRegs.start] using scan
  · obtain rfl : len = 0 := Nat.eq_zero_of_not_pos nonempty
    exact scan

end Unit

/-! ### The command -/

/-- The primitives of DECODE_RAW, over regions that can run to the end (41_decoder.md R85, R93). -/
theorem decoderBus_decodeRaw (src dst : Region) :
    DecoderBus src.base.toNat src.len.toNat dst.base.toNat dst.len.toNat
      (fun k => memRead (src.base.toNat + k)) (outByte dst) (RegionsReady src dst) where
  read good hi := good.memRead hi
  write good hk := good.outByte hk _
  full _ hk := ⟨(), _, outByte_of_ge hk⟩
  good good := good.putByte _ _
  ahead good _ hk hi := good.source_kept hi hk _

theorem State.TransformReady.decodes {s : State} (ready : s.TransformReady) :
    DecodesAt s.regs.dstAddr.toNat s.regs.dstCap.toNat 0 (Cobs.decodeRaw s.sourceBytes) s.port
      (runDecodeRaw s.regs.srcRegion s.regs.dstRegion s.port) :=
  runDecoder_decodes (decoderBus_decodeRaw s.regs.srcRegion s.regs.dstRegion) ready.regionsReady

theorem exec_decodeRaw_of_ok {s : State} (ready : s.TransformReady) {n : Nat} {q : DataPort}
    (run : runDecodeRaw s.regs.srcRegion s.regs.dstRegion s.port = .ok (.ok, n) q) :
    exec .decodeRaw s = .next { s with port := q, regs := (s.regs.setResLen n).finish .none .ok } := by
  simp only [exec, execDecodeRaw, ready.check, accessRegions, ready.plain, run]
  rfl

theorem exec_decodeRaw_of_malformed {s : State} (ready : s.TransformReady) {n : Nat} {q : DataPort}
    (run : runDecodeRaw s.regs.srcRegion s.regs.dstRegion s.port = .ok (.malformed, n) q) :
    exec .decodeRaw s = .next { s with port := q.unspecifiedRegion s.regs.dstRegion
                                       regs := (s.regs.setResLen 0).finish .none .malformedEncoding } := by
  simp only [exec, execDecodeRaw, ready.check, accessRegions, ready.plain, run]
  rfl

theorem exec_decodeRaw_of_full {s : State} (ready : s.TransformReady) {u : Unit} {q : DataPort}
    (run : runDecodeRaw s.regs.srcRegion s.regs.dstRegion s.port = .full u q) :
    exec .decodeRaw s = .next { s with port := q.unspecifiedRegion s.regs.dstRegion
                                       regs := (s.regs.setResLen 0).finish .dstFull .ok } := by
  simp only [exec, execDecodeRaw, ready.check, accessRegions, ready.plain, run]
  rfl

/-- However it ends, DECODE_RAW writes in its destination region only. -/
theorem exec_decodeRaw_sameOutside {s t : State} (ready : s.TransformReady) (h : exec .decodeRaw s = .next t) :
    s.SameOutside t s.regs.dstAddr.toNat s.regs.dstCap.toNat := by
  have footprint : writeFootprint .decodeRaw s.regs = some s.regs.dstRegion := by
    have check : commandCheck .decodeRaw s.regs = none := ready.check
    rw [writeFootprint, check]
  obtain ⟨frame, -⟩ := commandsWriteOnlyTheirFootprint _ _ _ h
  refine fun b outside => frame b fun g hg => ?_
  obtain rfl := Option.some.inj (footprint.symm.trans hg)
  exact (s.regs.dstRegion.not_contains_iff b).mpr outside

/-- Settles O22: the unit completes, by `State.TransformReady.decodes`, with either status. -/
theorem decodeRawGivesDecodedPayload : Obligations.DecodeRawGivesDecodedPayload := by
  intro s st out ready decoded fits
  have run := ready.decodes.completes (by rw [decoded, Nat.zero_add]; exact fits)
  rw [decoded, Nat.zero_add, Nat.add_zero] at run
  cases st with
  | ok =>
    have h := exec_decodeRaw_of_ok ready run
    exact ⟨_, h, exec_onlyBlockChanged h, fun _ => ⟨rfl, toNat_ofNat_of_le fits, DataPort.bytesAt_putBytes ..,
      fun _ outside => DataPort.byteAt_putBytes_outside _ _ _ outside⟩, nofun⟩
  | malformed =>
    have h := exec_decodeRaw_of_malformed ready run
    exact ⟨_, h, exec_onlyBlockChanged h, nofun, fun _ => ⟨rfl, exec_decodeRaw_sameOutside ready h⟩⟩

/-- Settles O23: the unit ends at a failed check, by `State.TransformReady.decodes`. -/
theorem decodeRawDestinationFull : Obligations.DecodeRawDestinationFull := by
  intro s ready short
  obtain ⟨u, q, run⟩ := ready.decodes.fails (short.trans_eq (Nat.zero_add _).symm)
  have h := exec_decodeRaw_of_full ready run
  exact ⟨_, h, exec_onlyBlockChanged h, rfl, exec_decodeRaw_sameOutside ready h⟩

end Sys2Proof.Machine
end

section
/-! The function `Append` (42_accumulator.md R118 to R120): an equation per row of R118; without a delimiter a chunk
is consumed or overflows, and chunks that fit are appended one after the other. -/

namespace Sys2Proof.Cobs

/-! ### The rows of `Append` -/

theorem delimiterOffset_eq_none {c : List Byte} (zeroFree : (0x00 : Byte) ∉ c) : delimiterOffset c = none := by
  rw [delimiterOffset, List.findIdx?_eq_none_iff]
  intro b hb
  simpa using ne_of_mem_of_not_mem hb zeroFree

theorem delimiterOffset_append_zero {c : List Byte} (zeroFree : (0x00 : Byte) ∉ c) :
    delimiterOffset (c ++ [0x00]) = some c.length := by
  have passed := delimiterOffset_eq_none zeroFree
  rw [delimiterOffset] at passed ⊢
  rw [List.findIdx?_append, passed]
  simp [List.findIdx?_cons]

theorem delimiterOffset_cons (b : Byte) (c : List Byte) :
    delimiterOffset (b :: c) = if b = 0x00 then some 0 else (delimiterOffset c).map (· + 1) := by
  simp only [delimiterOffset, List.findIdx?_cons, beq_iff_eq]

theorem delimiterOffset_lt {c : List Byte} {d : Nat} (h : delimiterOffset c = some d) : d < c.length := by
  obtain ⟨inChunk, -⟩ := List.findIdx?_eq_some_iff_getElem.mp h
  exact inChunk

section Rows
variable {W c : List Byte} {cap d : Nat}

theorem appendStep_nil (W : List Byte) (cap : Nat) :
    appendStep W cap [] = { buffered := W, outcome := .consumed, frame := [], remainder := [] } := rfl

theorem appendStep_consumed (whole : delimiterOffset c = none) (fits : W.length + c.length < cap) :
    appendStep W cap c = { buffered := W ++ c, outcome := .consumed, frame := [], remainder := [] } := by
  by_cases empty : c = []
  · rw [empty, appendStep_nil, List.append_nil]
  · simp only [appendStep, if_neg empty, whole, if_pos fits]

theorem appendStep_overflow (nonempty : c ≠ []) (whole : delimiterOffset c = none)
    (short : cap ≤ W.length + c.length) :
    appendStep W cap c = { buffered := [], outcome := .overflow, frame := [], remainder := c } := by
  simp only [appendStep, if_neg nonempty, whole, if_neg (Nat.not_lt_of_le short)]

section Delimited
variable (delimiter : delimiterOffset c = some d)
include delimiter

theorem ne_nil_of_delimiterOffset : c ≠ [] :=
  List.ne_nil_of_length_pos (Nat.zero_lt_of_lt (delimiterOffset_lt delimiter))

theorem appendStep_delimited_overflow (short : cap ≤ W.length + d) :
    appendStep W cap c = { buffered := [], outcome := .overflow, frame := [], remainder := c.drop (d + 1) } := by
  simp only [appendStep, if_neg (ne_nil_of_delimiterOffset delimiter), delimiter,
    if_neg (Nat.not_lt_of_le short)]

theorem appendStep_frameReady (fits : W.length + d < cap) {out : List Byte}
    (decoded : decodeRaw (W ++ c.take d) = (.ok, out)) :
    appendStep W cap c = { buffered := [], outcome := .frameReady, frame := out, remainder := c.drop (d + 1) } := by
  simp only [appendStep, if_neg (ne_nil_of_delimiterOffset delimiter), delimiter, if_pos fits, decoded]

theorem appendStep_decodeFailed (fits : W.length + d < cap)
    (malformed : (decodeRaw (W ++ c.take d)).1 = .malformed) :
    appendStep W cap c = { buffered := [], outcome := .decodeFailed, frame := [], remainder := c.drop (d + 1) } := by
  simp only [appendStep, if_neg (ne_nil_of_delimiterOffset delimiter), delimiter, if_pos fits, malformed]

end Delimited
end Rows

/-! ### Chunks of a frame -/

theorem appendAll_cons (cap : Nat) (W c : List Byte) (cs : List (List Byte)) :
    appendAll cap W (c :: cs) = appendStep W cap c :: appendAll cap (appendStep W cap c).buffered cs := rfl

/-- Zero-free chunks overflow nowhere exactly if all their bytes fit behind the buffered ones; with no byte to append
nothing overflows, whatever the capacity (42_accumulator.md R104, R119). -/
theorem appendAll_no_overflow_iff {cap : Nat} {W : List Byte} {cs : List (List Byte)}
    (zeroFree : (0x00 : Byte) ∉ cs.flatten) : (∀ r ∈ appendAll cap W cs, r.outcome ≠ .overflow) ↔
      (cs.flatten = [] ∨ W.length + cs.flatten.length < cap) := by
  induction cs generalizing W with
  | nil => exact iff_of_true (fun _ h => nomatch h) (.inl rfl)
  | cons c cs ih =>
    rw [List.flatten_cons, List.mem_append, not_or] at zeroFree
    obtain ⟨chunk, later⟩ := zeroFree
    have whole := delimiterOffset_eq_none chunk
    rw [appendAll_cons, List.forall_mem_cons, List.flatten_cons, List.append_eq_nil_iff, List.length_append]
    by_cases empty : c = []
    · simp [empty, appendStep_nil, ih later]
    · have := List.length_pos_of_ne_nil empty
      by_cases fits : W.length + c.length < cap
      · rw [appendStep_consumed whole fits, ih later, List.length_append, Nat.add_assoc]
        exact (and_iff_right nofun).trans
          ⟨fun h => .inr (h.elim (fun done => by rw [done]; exact fits) id), Or.imp_left And.right⟩
      · rw [appendStep_overflow empty whole (Nat.le_of_not_lt fits)]
        refine iff_of_false (fun h => h.1 rfl) ?_
        simp only [empty, false_and, false_or]
        omega

/-- Settles O47: a frame has at least one byte to append. -/
theorem frameFitsExactly : Obligations.FrameFitsExactly := by
  intro P cap cs split
  rw [appendAll_no_overflow_iff (split ▸ zero_notMem_stuff P), split]
  have nonempty : stuff P ≠ [] := List.ne_nil_of_length_pos (by rw [length_stuff]; omega)
  simp [nonempty]

/-- Zero-free chunks that fit are each consumed, and what comes after them is appended behind all their bytes. -/
theorem appendAll_append_of_fits {cap : Nat} {W : List Byte} {cs : List (List Byte)}
    (zeroFree : (0x00 : Byte) ∉ cs.flatten) (fits : W.length + cs.flatten.length < cap) (later : List (List Byte)) :
    appendAll cap W (cs ++ later) = appendAll cap W cs ++ appendAll cap (W ++ cs.flatten) later ∧
      ∀ r ∈ appendAll cap W cs, r.outcome = .consumed ∧ r.frame = [] ∧ r.remainder = [] := by
  induction cs generalizing W with
  | nil => exact ⟨by simp [appendAll], fun _ h => nomatch h⟩
  | cons c cs ih =>
    rw [List.flatten_cons, List.mem_append, not_or] at zeroFree
    rw [List.flatten_cons, List.length_append] at fits
    obtain ⟨chunk, rest⟩ := zeroFree
    have step := appendStep_consumed (delimiterOffset_eq_none chunk) (W := W) (cap := cap) (c := c) (by omega)
    obtain ⟨runs, consumed⟩ := ih rest (W := W ++ c) (by rw [List.length_append]; omega)
    rw [List.cons_append, appendAll_cons, appendAll_cons, step, runs, List.flatten_cons, List.append_assoc]
    exact ⟨rfl, List.forall_mem_cons.mpr ⟨⟨rfl, rfl, rfl⟩, consumed⟩⟩

/-- The chunk that holds the sentinel delivers the frame (42_accumulator.md R120). -/
theorem appendStep_stuff {W c P : List Byte} {cap : Nat} (buffered : W ++ c = stuff P)
    (fits : (stuff P).length < cap) : appendStep W cap (c ++ [0x00]) =
      { buffered := [], outcome := .frameReady, frame := P, remainder := [] } := by
  have zeroFree : (0x00 : Byte) ∉ c := fun zero =>
    zero_notMem_stuff P (buffered ▸ List.mem_append_right W zero)
  have decoded : decodeRaw (W ++ (c ++ [0x00]).take c.length) = (.ok, P) := by
    obtain ⟨decoded, -⟩ := decodeInvertsEncode P
    rw [List.take_left, buffered, decoded]
  rw [appendStep_frameReady (delimiterOffset_append_zero zeroFree)
    (by rwa [← List.length_append, buffered]) decoded]
  simp

/-- Settles O48: the chunks before the last are zero-free and fit, and the last is the rest of `Stuff(P)` and the
sentinel. -/
theorem chunkingInvariance : Obligations.ChunkingInvariance := by
  intro P cap cs last room split nonempty
  obtain ⟨c, b, rfl⟩ := List.eq_nil_or_concat' last |>.resolve_left nonempty
  rw [encodeOut, ← List.append_assoc] at split
  obtain ⟨stuffed, sentinel⟩ := List.append_inj' split rfl
  obtain rfl : b = 0x00 := List.singleton_inj.mp sentinel
  have zeroFree : (0x00 : Byte) ∉ cs.flatten := fun zero =>
    zero_notMem_stuff P (stuffed ▸ List.mem_append_left c zero)
  have earlierFit : ([] : List Byte).length + cs.flatten.length < cap := by
    have := congrArg List.length stuffed
    rw [List.length_append] at this
    rw [List.length_nil]
    omega
  obtain ⟨runs, consumed⟩ := appendAll_append_of_fits zeroFree earlierFit [c ++ [0x00]]
  rw [runs, appendAll_cons, List.nil_append, appendStep_stuff stuffed room]
  exact ⟨rfl, consumed⟩

/-! ### The length of a frame -/

/-- A buffered block is no shorter than the frame it decodes to (41_decoder.md R97). -/
theorem length_decodeRaw_le (B : List Byte) : (decodeRaw B).2.length ≤ B.length := by
  obtain ⟨-, bound⟩ := decodedLengthBound
  by_cases empty : B = []
  · rw [empty]
    exact Nat.le_refl 0
  · exact (bound B empty).trans (Nat.sub_le _ _)

end Sys2Proof.Cobs
end

section
/-! ACC_INIT, ACC_RESET and ACC_APPEND (42_accumulator.md R100 to R122). Of a ready ACC_APPEND the delimiter scan, the
copy and the decoding in place each complete with a result that is given as an equation; together they give one
equation per row of R118 (`State.AppendReady.exec_consumed` and the four after it), from which the rules and the
agreement with `Append` are read off. -/

namespace Sys2Proof.Machine

/-! ### ACC_INIT, ACC_RESET and the checks of ACC_APPEND -/

theorem exec_accInit_bound {s : State} (check : initCheck s.regs = none) : exec .accInit s =
    .next { s with regs := (s.regs.bindBuffer s.regs.dstAddr s.regs.dstCap).finish .none .ok } := by
  simp only [exec, execAccInit, check]

theorem exec_accInit_refused {s : State} {e : ErrCode} (check : initCheck s.regs = some e) :
    exec .accInit s = .next (s.raise e) := by
  simp only [exec, execAccInit, check]

/-- Settles O25: the check is that the buffer lies in data memory. -/
theorem accInitBindsTheBuffer : Obligations.AccInitBindsTheBuffer := by
  refine fun s => ⟨fun inMemory => ?_, fun past => ?_⟩
  · exact exec_accInit_bound (initCheck_eq_none.mpr ((Region.wellFormed_iff _).mpr inMemory))
  · have illFormed : ¬ s.regs.dstRegion.wellFormed = true := fun wf =>
      Nat.not_le_of_lt past ((Region.wellFormed_iff _).mp wf)
    exact exec_accInit_refused (if_neg illFormed)

theorem exec_accReset_emptied {s : State} (check : resetCheck s.regs = none) : exec .accReset s =
    .next { s with regs := (s.regs.setIdx 0).finish .none .ok } := by
  simp only [exec, execAccReset, check]

theorem exec_accReset_refused {s : State} {e : ErrCode} (check : resetCheck s.regs = some e) :
    exec .accReset s = .next (s.raise e) := by
  simp only [exec, execAccReset, check]

/-- Settles O26: the check is ACC_VALID. -/
theorem accResetEmptiesTheAccumulator : Obligations.AccResetEmptiesTheAccumulator :=
  fun _ => ⟨fun valid => exec_accReset_emptied (resetCheck_eq_none.mpr valid),
    fun invalid => exec_accReset_refused (if_neg (by simp [invalid]))⟩

theorem exec_accAppend_refused {s : State} {e : ErrCode} (check : appendCheck s.regs = some e) :
    exec .accAppend s = .next (s.raise e) := by
  simp only [exec, execAccAppend, check]

/-- Settles O17: what the check says, condition by condition. -/
theorem appendChecksInOrder : Obligations.AppendChecksInOrder := by
  refine fun s => ⟨fun invalid => exec_accAppend_refused ?_, fun valid illFormed => exec_accAppend_refused ?_,
    fun valid wf overlap => exec_accAppend_refused ?_⟩
  · simp [appendCheck, invalid]
  · simp [appendCheck, valid, illFormed]
  · simp [appendCheck, valid, wf, overlap]

/-! ### An empty chunk -/

/-- An empty chunk is well-formed and shares no byte with the working buffer. -/
theorem appendCheck_of_empty {r : Regs} (valid : r.status.accValid = true) (empty : r.srcLen.toNat = 0) :
    appendCheck r = none := by
  have none_in (a : Nat) : r.srcRegion.contains a = false := by
    refine (Region.not_contains_iff _ a).mpr ?_
    have : r.srcRegion.len.toNat = 0 := empty
    omega
  refine appendCheck_eq_none.mpr ⟨valid, (Region.wellFormed_iff _).mpr ?_, ?_⟩
  · have base : r.srcRegion.base.toNat < 2 ^ 32 := r.srcAddr.isLt
    have : r.srcRegion.len.toNat = 0 := empty
    rw [this]
    exact base.le
  · rw [← Bool.not_eq_true, Region.overlaps_iff]
    rintro ⟨a, inChunk, -⟩
    simp [none_in a] at inChunk

theorem exec_accAppend_empty {s : State} (valid : s.regs.status.accValid = true) (empty : s.regs.srcLen.toNat = 0) :
    exec .accAppend s =
      .next (s.endAppend s.port s.regs.accIdx.toNat 0 s.regs.srcAddr.toNat 0 .consumed) := by
  simp only [exec, execAccAppend, appendCheck_of_empty valid empty]
  exact if_pos empty

/-- Where a remainder starts inside the address space, ACC_APPEND's end draws nothing. -/
theorem State.endAppend_of_word (s : State) (p : DataPort) (idx res : Nat) (ra : Word) (rl : Nat) (o : OutCode) :
    s.endAppend p idx res ra.toNat rl o =
      { s with port := p, regs := (((s.regs.setIdx idx).setResLen res).setRem ra rl).finish .none o } := by
  rw [State.endAppend, remAddrOf_of_lt ra.isLt, BitVec.ofNat_toNat, BitVec.setWidth_eq]

/-- Settles O27: such a chunk passes the checks that follow ACC_VALID. -/
theorem appendOfEmptyChunk : Obligations.AppendOfEmptyChunk := by
  intro s valid empty
  rw [exec_accAppend_empty valid (by rw [empty]; rfl), State.endAppend_of_word, Regs.setIdx, BitVec.ofNat_toNat,
    BitVec.setWidth_eq]
  rfl

/-! ### Sequences of bytes in data memory -/

theorem DataPort.bytesAt_putBytes_outside {p : DataPort} {a b n : Nat} {bs : List Byte}
    (h : a + n ≤ b ∨ b + bs.length ≤ a) : (p.putBytes b bs).bytesAt a n = p.bytesAt a n :=
  bytesAt_ext fun _ _ => p.byteAt_putBytes_outside b bs (by omega)

/-- Bytes put behind a sequence lengthen it. -/
theorem DataPort.bytesAt_putBytes_end (p : DataPort) (a n : Nat) (bs : List Byte) :
    (p.putBytes (a + n) bs).bytesAt a (n + bs.length) = p.bytesAt a n ++ bs := by
  rw [bytesAt_add, bytesAt_putBytes_outside (.inl (Nat.le_refl _)), bytesAt_putBytes]

theorem DataPort.bytesAt_take (p : DataPort) (a : Nat) {k n : Nat} (h : k ≤ n) :
    (p.bytesAt a n).take k = p.bytesAt a k := by
  obtain ⟨m, rfl⟩ := Nat.exists_eq_add_of_le h
  rw [bytesAt_add, List.take_left' (length_bytesAt ..)]

theorem DataPort.bytesAt_drop (p : DataPort) (a : Nat) {k n : Nat} (h : k ≤ n) :
    (p.bytesAt a n).drop k = p.bytesAt (a + k) (n - k) := by
  obtain ⟨m, rfl⟩ := Nat.exists_eq_add_of_le h
  rw [bytesAt_add, List.drop_left' (length_bytesAt ..), Nat.add_sub_cancel_left]

@[simp] theorem State.length_sourceBytes (s : State) : s.sourceBytes.length = s.regs.srcLen.toNat :=
  DataPort.length_bytesAt ..

@[simp] theorem State.length_bufferedBytes (s : State) : s.bufferedBytes.length = s.regs.accIdx.toNat :=
  DataPort.length_bytesAt ..

/-! ### The scan, the copy and the decoding complete -/

namespace RegionsReady
variable {src dst : Region} {p : DataPort} (ready : RegionsReady src dst p)
include ready

theorem memRead_dst {φ : Type} {k : Nat} (hk : k < dst.len.toNat) :
    (Machine.memRead (dst.base.toNat + k) p : Run φ Byte) = .ok (p.byteAt (dst.base.toNat + k)) p := by
  have := dst.wellFormed_iff.mp ready.dst_wf
  exact memRead_quiet (by omega) (ready.dst_answers k hk) ready.quiet

theorem memWrite_dst {φ : Type} {k : Nat} (hk : k < dst.len.toNat) (v : Byte) :
    (Machine.memWrite (dst.base.toNat + k) v p : Run φ Unit) = .ok () (p.putByte (dst.base.toNat + k) v) := by
  have := dst.wellFormed_iff.mp ready.dst_wf
  exact memWrite_admitted (by omega) (ready.dst_answers k hk)

theorem putBytes (a : Nat) (bs : List Byte) : RegionsReady src dst (p.putBytes a bs) :=
  ⟨ready.src_wf, ready.dst_wf, ready.apart, ready.src_answers, ready.dst_answers, ready.quiet⟩

/-- The scan finds the first delimiter of the bytes it is given (42_accumulator.md R105). -/
theorem findDelimiter {left k : Nat} (inSource : k + left ≤ src.len.toNat) : Machine.findDelimiter src left k p =
    .ok ((Cobs.delimiterOffset (p.bytesAt (src.base.toNat + k) left)).map (k + ·)) p := by
  induction left generalizing k with
  | zero => rfl
  | succ left ih =>
    rw [Machine.findDelimiter, ready.memRead (by omega), Run.bind_ok, DataPort.bytesAt_succ, Cobs.delimiterOffset_cons,
      Nat.add_assoc]
    generalize p.byteAt (src.base.toNat + k) = b
    by_cases zero : b = 0x00
    · rw [zero]
      rfl
    · have passed : b ≠ Config.delimiter := zero
      rw [if_neg passed, if_neg zero, ih (by omega), Option.map_map]
      congr 2
      funext j
      exact Nat.add_right_comm k 1 j

/-- The copy puts the bytes it is given at its target (42_accumulator.md R107). -/
theorem copyChunk {left k n : Nat} (inSource : k + left ≤ src.len.toNat) (fits : n + k + left ≤ dst.len.toNat) :
    Machine.copyChunk src (dst.base.toNat + n) left k p =
      .ok () (p.putBytes (dst.base.toNat + n + k) (p.bytesAt (src.base.toNat + k) left)) := by
  induction left generalizing k p with
  | zero => rfl
  | succ left ih =>
    have target : dst.base.toNat + n + k = dst.base.toNat + (n + k) := Nat.add_assoc ..
    rw [Machine.copyChunk, ready.memRead (by omega), Run.bind_ok, target, ready.memWrite_dst (by omega), Run.bind_ok,
      ih (ready.putByte _ _) (by omega) (by omega), DataPort.bytesAt_succ, DataPort.putBytes_cons,
      ready.source_kept (i := k + 1) (by omega) (by omega), ← target]
    rfl

end RegionsReady

/-- The primitives of ACC_APPEND's decoding, the input and the output being the first `m` bytes of the working buffer:
an output byte never reaches input that is still to be read (42_accumulator.md R111; 41_decoder.md R98). -/
theorem decoderBus_inPlace (src : Region) {buf : Region} {m : Nat} (hm : m ≤ buf.len.toNat) :
    DecoderBus (φ := Empty) buf.base.toNat m buf.base.toNat m (fun k => memRead (buf.base.toNat + k))
      (fun k v => memWrite (buf.base.toNat + k) v) (RegionsReady src buf) where
  read good hi := good.memRead_dst (Nat.lt_of_lt_of_le hi hm)
  write good hk := good.memWrite_dst (Nat.lt_of_lt_of_le hk hm) _
  full hk hm := absurd hk (Nat.not_lt_of_le hm)
  good good := good.putByte _ _
  ahead _ hk _ _ := DataPort.bytesAt_putByte_outside _ (.inl (Nat.add_lt_add_left hk _))

/-- The decoder unit, run in place, computes `DecodeRaw` of the buffered block and never lacks room for its output
(42_accumulator.md R111). -/
theorem RegionsReady.decodeInPlace {src buf : Region} {p : DataPort} (ready : RegionsReady src buf p) {m : Nat}
    (hm : m ≤ buf.len.toNat) {res : Cobs.DecStatus × List Byte}
    (decoded : Cobs.decodeRaw (p.bytesAt buf.base.toNat m) = res) : Machine.decodeInPlace buf.base.toNat m p =
      .ok (res.1, res.2.length) (p.putBytes buf.base.toNat res.2) := by
  have room : 0 + res.2.length ≤ m := by
    have := Cobs.length_decodeRaw_le (p.bytesAt buf.base.toNat m)
    rwa [decoded, DataPort.length_bytesAt, ← Nat.zero_add res.2.length] at this
  have run := (runDecoder_decodes (decoderBus_inPlace src hm) ready).completes (decoded ▸ room)
  rwa [decoded, Nat.zero_add, Nat.add_zero] at run

/-! ### A ready ACC_APPEND, row by row -/

theorem Regs.srcRegion_base (r : Regs) : r.srcRegion.base = r.srcAddr := rfl

theorem Regs.srcRegion_len (r : Regs) : r.srcRegion.len = r.srcLen := rfl

/-- The buffered block `W ++ c[0, d)` (42_accumulator.md R111). -/
def State.block (s : State) (d : Nat) : List Byte := s.bufferedBytes ++ s.sourceBytes.take d

/-- The data port once `d` chunk bytes are copied behind the buffered ones (42_accumulator.md R107). -/
def State.blockPort (s : State) (d : Nat) : DataPort :=
  s.port.putBytes (s.regs.accBase.toNat + s.regs.accIdx.toNat) (s.sourceBytes.take d)

/-- The data port once the buffered block is decoded in place and its bytes from offset `o` on are unspecified
(42_accumulator.md R111 to R113). -/
def State.decodedPort (s : State) (d o : Nat) : DataPort :=
  ((s.blockPort d).putBytes s.regs.accBase.toNat (Cobs.decodeRaw (s.block d)).2).unspecified
    (s.regs.accBase.toNat + o) (s.regs.accIdx.toNat + d - o)

section Ports
variable {s : State} {d : Nat} (inChunk : d ≤ s.regs.srcLen.toNat)
include inChunk

theorem State.length_take_sourceBytes : (s.sourceBytes.take d).length = d :=
  List.length_take_of_le (by rwa [s.length_sourceBytes])

theorem State.length_block : (s.block d).length = s.regs.accIdx.toNat + d := by
  rw [State.block, List.length_append, s.length_bufferedBytes, State.length_take_sourceBytes inChunk]

theorem State.bytesAt_blockPort :
    (s.blockPort d).bytesAt s.regs.accBase.toNat (s.regs.accIdx.toNat + d) = s.block d := by
  have held := s.port.bytesAt_putBytes_end s.regs.accBase.toNat s.regs.accIdx.toNat (s.sourceBytes.take d)
  rwa [State.length_take_sourceBytes inChunk] at held

theorem State.byteAt_blockPort_outside {b : Nat} (outside : b < s.regs.accBase.toNat + s.regs.accIdx.toNat ∨
    s.regs.accBase.toNat + s.regs.accIdx.toNat + d ≤ b) : (s.blockPort d).byteAt b = s.port.byteAt b :=
  DataPort.byteAt_putBytes_outside _ _ _ (by rwa [State.length_take_sourceBytes inChunk])

theorem State.length_decoded_le : (Cobs.decodeRaw (s.block d)).2.length ≤ s.regs.accIdx.toNat + d :=
  State.length_block inChunk ▸ Cobs.length_decodeRaw_le (s.block d)

theorem State.byteAt_decodedPort_outside {o b : Nat} (ho : o ≤ s.regs.accIdx.toNat + d)
    (outside : b < s.regs.accBase.toNat ∨ s.regs.accBase.toNat + (s.regs.accIdx.toNat + d) ≤ b) :
    (s.decodedPort d o).byteAt b = s.port.byteAt b := by
  have := State.length_decoded_le inChunk
  rw [State.decodedPort, DataPort.byteAt_unspecified_outside _ _ _ (by omega),
    DataPort.byteAt_putBytes_outside _ _ _ (by omega), State.byteAt_blockPort_outside inChunk (by omega)]

end Ports

theorem State.bytesAt_decodedPort {s : State} {d : Nat} {st : Cobs.DecStatus} {out : List Byte}
    (decoded : Cobs.decodeRaw (s.block d) = (st, out)) :
    (s.decodedPort d out.length).bytesAt s.regs.accBase.toNat out.length = out := by
  have kept : (s.decodedPort d out.length).bytesAt s.regs.accBase.toNat out.length =
      ((s.blockPort d).putBytes s.regs.accBase.toNat (Cobs.decodeRaw (s.block d)).2).bytesAt
        s.regs.accBase.toNat out.length :=
    DataPort.bytesAt_ext fun _ _ => DataPort.byteAt_unspecified_outside _ _ _ (.inl (by omega))
  rw [kept, decoded, DataPort.bytesAt_putBytes]

theorem State.delimiter_lt {s : State} {d : Nat} (delimiter : Cobs.delimiterOffset s.sourceBytes = some d) :
    d < s.regs.srcLen.toNat :=
  s.length_sourceBytes ▸ Cobs.delimiterOffset_lt delimiter

namespace State.AppendReady
variable {s : State} (ready : s.AppendReady)
include ready

theorem regionsReady : RegionsReady s.regs.srcRegion s.regs.bufRegion s.port := by
  obtain ⟨-, src_wf, apart, buf_wf, -, src_answers, buf_answers, quiet⟩ := ready
  exact ⟨src_wf, buf_wf, apart, src_answers, buf_answers, quiet⟩

theorem valid : s.regs.status.accValid = true := ready.1

theorem check : appendCheck s.regs = none := by
  obtain ⟨valid, src_wf, apart, -⟩ := ready
  exact appendCheck_eq_none.mpr ⟨valid, src_wf, apart⟩

/-- No device stands in the way of a ready command. -/
theorem plain (nonempty : s.regs.srcLen.toNat ≠ 0) :
    s.port.platform.namesDevice (accessRegions .accAppend s.regs) = false := by
  obtain ⟨-, -, -, -, plain, -⟩ := ready
  rwa [accessRegions, if_neg nonempty]

theorem scan : findDelimiter s.regs.srcRegion s.regs.srcRegion.len.toNat 0 s.port =
    .ok (Cobs.delimiterOffset s.sourceBytes) s.port := by
  rw [ready.regionsReady.findDelimiter (Nat.zero_add _).le]
  simp only [Nat.zero_add, Option.map_id']
  rfl

theorem copy {d : Nat} (inChunk : d ≤ s.regs.srcLen.toNat)
    (fits : s.regs.accIdx.toNat + d < s.regs.accCap.toNat) :
    copyChunk s.regs.srcRegion (s.regs.accBase.toNat + s.regs.accIdx.toNat) d 0 s.port =
      .ok () (s.blockPort d) := by
  have copied := ready.regionsReady.copyChunk (n := s.regs.accIdx.toNat) (left := d) (k := 0)
    ((Nat.zero_add d).le.trans inChunk) fits.le
  rw [State.blockPort, State.sourceBytes, DataPort.bytesAt_take _ _ inChunk]
  exact copied

theorem decode {d : Nat} (inChunk : d ≤ s.regs.srcLen.toNat) (fits : s.regs.accIdx.toNat + d < s.regs.accCap.toNat)
    {res : Cobs.DecStatus × List Byte} (decoded : Cobs.decodeRaw (s.block d) = res) :
    decodeInPlace s.regs.accBase.toNat (s.regs.accIdx.toNat + d) (s.blockPort d) =
      .ok (res.1, res.2.length) ((s.blockPort d).putBytes s.regs.accBase.toNat res.2) :=
  (ready.regionsReady.putBytes _ _).decodeInPlace fits.le ((State.bytesAt_blockPort inChunk).symm ▸ decoded)

/-- A chunk without a delimiter is appended whole or overflows. -/
theorem exec_whole (nonempty : 0 < s.regs.srcLen.toNat) (whole : Cobs.delimiterOffset s.sourceBytes = none) :
    exec .accAppend s = appendWhole s s.port := by
  have chunk : ¬ s.regs.srcRegion.len.toNat = 0 := nonempty.ne'
  have scan := ready.scan
  rw [whole] at scan
  simp only [exec, execAccAppend, ready.check, ready.plain nonempty.ne', if_neg chunk, scan]
  rfl

theorem exec_delimited {d : Nat} (delimiter : Cobs.delimiterOffset s.sourceBytes = some d) :
    exec .accAppend s = appendDelimited s d s.port := by
  have chunk : ¬ s.regs.srcRegion.len.toNat = 0 := (Nat.zero_lt_of_lt (State.delimiter_lt delimiter)).ne'
  have scan := ready.scan
  rw [delimiter] at scan
  simp only [exec, execAccAppend, ready.check, ready.plain chunk, if_neg chunk, scan]
  rfl

theorem exec_consumed (nonempty : 0 < s.regs.srcLen.toNat) (whole : Cobs.delimiterOffset s.sourceBytes = none)
    (fits : s.regs.accIdx.toNat + s.regs.srcLen.toNat < s.regs.accCap.toNat) : exec .accAppend s =
      .next (s.endAppend (s.blockPort s.regs.srcLen.toNat) (s.regs.accIdx.toNat + s.regs.srcLen.toNat) 0
        (s.regs.srcAddr.toNat + s.regs.srcLen.toNat) 0 .consumed) := by
  simp only [ready.exec_whole nonempty whole, appendWhole, Regs.srcRegion_base, Regs.srcRegion_len, if_pos fits,
    ready.copy (Nat.le_refl _) fits]

theorem exec_overflow (nonempty : 0 < s.regs.srcLen.toNat) (whole : Cobs.delimiterOffset s.sourceBytes = none)
    (short : s.regs.accCap.toNat ≤ s.regs.accIdx.toNat + s.regs.srcLen.toNat) : exec .accAppend s =
      .next (s.endAppend s.port 0 0 s.regs.srcAddr.toNat s.regs.srcLen.toNat .overflow) := by
  rw [ready.exec_whole nonempty whole]
  exact if_neg (Nat.not_lt_of_le short)

section Delimited
variable {d : Nat} (delimiter : Cobs.delimiterOffset s.sourceBytes = some d)
include delimiter

theorem exec_delimited_overflow (short : s.regs.accCap.toNat ≤ s.regs.accIdx.toNat + d) : exec .accAppend s =
    .next (s.endAppend s.port 0 0 (s.regs.srcAddr.toNat + d + 1) (s.regs.srcLen.toNat - d - 1) .overflow) := by
  rw [ready.exec_delimited delimiter]
  exact if_neg (Nat.not_lt_of_le short)

theorem exec_decode (fits : s.regs.accIdx.toNat + d < s.regs.accCap.toNat) : exec .accAppend s =
    appendDecode s (s.regs.accIdx.toNat + d) (s.regs.srcAddr.toNat + d + 1) (s.regs.srcLen.toNat - d - 1)
      (s.blockPort d) := by
  simp only [ready.exec_delimited delimiter, appendDelimited, Regs.srcRegion_base, Regs.srcRegion_len, if_pos fits,
    ready.copy (State.delimiter_lt delimiter).le fits]

theorem exec_frameReady (fits : s.regs.accIdx.toNat + d < s.regs.accCap.toNat) {out : List Byte}
    (decoded : Cobs.decodeRaw (s.block d) = (.ok, out)) : exec .accAppend s =
      .next (s.endAppend (s.decodedPort d out.length) 0 out.length (s.regs.srcAddr.toNat + d + 1)
        (s.regs.srcLen.toNat - d - 1) .frameReady) := by
  simp only [ready.exec_decode delimiter fits, appendDecode, State.decodedPort,
    ready.decode (State.delimiter_lt delimiter).le fits decoded, decoded]

theorem exec_decodeFailed (fits : s.regs.accIdx.toNat + d < s.regs.accCap.toNat)
    (malformed : (Cobs.decodeRaw (s.block d)).1 = .malformed) : exec .accAppend s =
      .next (s.endAppend (s.decodedPort d 0) 0 0 (s.regs.srcAddr.toNat + d + 1)
        (s.regs.srcLen.toNat - d - 1) .decodeFailed) := by
  simp only [ready.exec_decode delimiter fits, appendDecode, State.decodedPort,
    ready.decode (State.delimiter_lt delimiter).le fits rfl, malformed]
  rfl

end Delimited
end State.AppendReady

/-! ### What each row leaves -/

theorem ofNat_toNat_add (v w : Word) : BitVec.ofNat 32 (v.toNat + w.toNat) = v + w := by
  rw [BitVec.ofNat_add, BitVec.ofNat_toNat, BitVec.ofNat_toNat, BitVec.setWidth_eq, BitVec.setWidth_eq]

/-- The bytes past a delimiter are as many as REM_LEN says. -/
theorem toNat_ofNat_remainder {w : Word} {d : Nat} (hd : d < w.toNat) :
    (BitVec.ofNat 32 (w.toNat - d - 1)).toNat + d + 1 = w.toNat := by
  rw [toNat_ofNat_of_le (by omega : w.toNat - d - 1 ≤ w.toNat)]
  omega

/-- The whole chunk lies behind the buffered bytes. -/
theorem State.blockPort_whole (s : State) : s.blockPort s.regs.srcLen.toNat =
    s.port.putBytes (s.regs.accBase.toNat + s.regs.accIdx.toNat) s.sourceBytes := by
  rw [State.blockPort, List.take_of_length_le s.length_sourceBytes.le]

/-- Settles O28, by `State.AppendReady.exec_consumed`. -/
theorem appendConsumesFittingChunk : Obligations.AppendConsumesFittingChunk := by
  intro s ready nonempty whole fits
  have run := ready.exec_consumed nonempty whole fits
  refine ⟨_, run, exec_onlyBlockChanged run, ?_, toNat_ofNat_of_lt (Nat.lt_trans fits s.regs.accCap.isLt),
    fun held => toNat_remAddrOf held _, ?_, fun b outside => ?_⟩
  · rw [← ofNat_toNat_add]
    rfl
  · have copied := s.port.bytesAt_putBytes (s.regs.accBase.toNat + s.regs.accIdx.toNat) s.sourceBytes
    rw [s.length_sourceBytes, ← s.blockPort_whole] at copied
    exact (DataPort.bytesAt_ext fun _ _ => DataPort.byteAt_remAddrOf ..).trans copied
  · exact (DataPort.byteAt_remAddrOf ..).trans (State.byteAt_blockPort_outside (Nat.le_refl _) outside)

/-- Settles O29: the chunk's own address is one a register holds. -/
theorem appendOverflowsWithoutDelimiter : Obligations.AppendOverflowsWithoutDelimiter := by
  intro s ready nonempty whole short
  rw [ready.exec_overflow nonempty whole short, State.endAppend_of_word, Regs.setRem, BitVec.ofNat_toNat,
    BitVec.setWidth_eq]
  rfl

/-- Settles O30: an overflow copies nothing. -/
theorem appendOverflowsAtDelimiter : Obligations.AppendOverflowsAtDelimiter := by
  intro s d ready delimiter short
  have run := ready.exec_delimited_overflow delimiter short
  exact ⟨_, run, exec_onlyBlockChanged run, remAddrOf_mem .., rfl, fun held => toNat_remAddrOf held _,
    toNat_ofNat_remainder (State.delimiter_lt delimiter)⟩

/-- Settles O31: the frame is what the decoder put at the start of the block. -/
theorem appendDeliversFrame : Obligations.AppendDeliversFrame := by
  intro s d out ready delimiter fits decoded
  have inChunk := (State.delimiter_lt delimiter).le
  have frameFits : out.length ≤ s.regs.accIdx.toNat + d := by
    have := State.length_decoded_le inChunk
    rwa [State.block, decoded] at this
  have run := ready.exec_frameReady delimiter fits decoded
  refine ⟨_, run, exec_onlyBlockChanged run, rfl, toNat_ofNat_of_le (frameFits.trans fits.le),
    fun held => toNat_remAddrOf held _, toNat_ofNat_remainder (State.delimiter_lt delimiter), ?_, fun b outside => ?_⟩
  · exact (DataPort.bytesAt_ext fun _ _ => DataPort.byteAt_remAddrOf ..).trans (State.bytesAt_decodedPort decoded)
  · exact (DataPort.byteAt_remAddrOf ..).trans (State.byteAt_decodedPort_outside inChunk frameFits outside)

/-- Settles O32: what the decoder wrote, and all that becomes unspecified, lies in the block. -/
theorem appendReportsDecodeFailure : Obligations.AppendReportsDecodeFailure := by
  intro s d ready delimiter fits malformed
  have inChunk := (State.delimiter_lt delimiter).le
  have run := ready.exec_decodeFailed delimiter fits malformed
  refine ⟨_, run, exec_onlyBlockChanged run, rfl, fun held => toNat_remAddrOf held _,
    toNat_ofNat_remainder (State.delimiter_lt delimiter), fun b outside => ?_⟩
  exact (DataPort.byteAt_remAddrOf ..).trans (State.byteAt_decodedPort_outside inChunk (Nat.zero_le _) outside)

/-- Settles O35: the delimiter closes the empty block, which decodes to the empty frame. -/
theorem bareDelimiterGivesEmptyFrame : Obligations.BareDelimiterGivesEmptyFrame := by
  intro s ready empty room nonempty zero
  have delimiter : Cobs.delimiterOffset s.sourceBytes = some 0 := by
    obtain ⟨n, hn⟩ := Nat.exists_eq_add_one_of_ne_zero nonempty.ne'
    rw [State.sourceBytes, hn, DataPort.bytesAt_succ, Cobs.delimiterOffset_cons, if_pos zero]
  have cursor : s.regs.accIdx.toNat = 0 := by
    rw [empty]
    rfl
  have decoded : Cobs.decodeRaw (s.bufferedBytes ++ s.sourceBytes.take 0) = (.ok, []) := by
    rw [State.bufferedBytes, cursor]
    rfl
  obtain ⟨t, run, -, regs, -, -, -, -, outside⟩ :=
    appendDeliversFrame s 0 [] ready delimiter (by rw [cursor]; exact room) decoded
  refine ⟨t, run, ?_, ?_, ?_, ?_, fun b => outside b (by omega)⟩ <;> rw [regs]
  rfl

/-- Settles O37: the state after the overflow is ready for the same chunk and overflows to itself. -/
theorem oversizedChunkOverflowsForEver : Obligations.OversizedChunkOverflowsForEver := by
  intro s ready nonempty whole oversized
  have short (idx : Nat) : s.regs.accCap.toNat ≤ idx + s.regs.srcLen.toNat := oversized.trans (Nat.le_add_left _ _)
  exact ⟨_, appendOverflowsWithoutDelimiter s ready nonempty whole (short _), rfl, rfl, rfl,
    appendOverflowsWithoutDelimiter _ ready nonempty whole (short _)⟩

/-! ### Agreement with `Append` -/

/-- `t` follows `s` with what `r` says: the outcome, the buffered bytes, the frame and the remainder, the binding being
as before (42_accumulator.md R118). -/
def State.Follows (s t : State) (r : Cobs.Appended) : Prop :=
  t.regs.status = { err := .none, outcome := r.outcome, accValid := true } ∧
    t.regs.accBase = s.regs.accBase ∧ t.regs.accCap = s.regs.accCap ∧ t.bufferedBytes = r.buffered ∧
    t.port.bytesAt s.regs.accBase.toNat t.regs.resLen.toNat = r.frame ∧
    t.regs.remLen.toNat ≤ s.regs.srcLen.toNat ∧
    t.regs.RemAddrIs (s.regs.srcAddr.toNat + (s.regs.srcLen.toNat - t.regs.remLen.toNat)) ∧
    t.port.bytesAt (s.regs.srcAddr.toNat + (s.regs.srcLen.toNat - t.regs.remLen.toNat)) t.regs.remLen.toNat
      = r.remainder

/-- ACC_APPEND leaves the chunk as it is: it writes in the working buffer only. -/
theorem State.AppendReady.source_kept {s t : State} (ready : s.AppendReady) (run : exec .accAppend s = .next t)
    {k n : Nat} (inChunk : k + n ≤ s.regs.srcLen.toNat) :
    t.port.bytesAt (s.regs.srcAddr.toNat + k) n = s.port.bytesAt (s.regs.srcAddr.toNat + k) n := by
  refine DataPort.bytesAt_ext fun j hj => (execAccAppend_frame run).byteAt _ ?_
  have inSource : s.regs.srcRegion.contains (s.regs.srcAddr.toNat + (k + j)) = true := Region.contains_add
    (g := s.regs.srcRegion) (Nat.lt_of_lt_of_le (Nat.add_lt_add_left hj k) inChunk)
  rw [Nat.add_assoc, Region.disjoint_of_not_overlaps ready.regionsReady.apart inSource]
  exact Bool.false_ne_true

/-- The tail of the chunk that is `n` bytes long. -/
theorem State.drop_sourceBytes (s : State) {n : Nat} (hn : n ≤ s.regs.srcLen.toNat) :
    s.sourceBytes.drop (s.regs.srcLen.toNat - n) =
      s.port.bytesAt (s.regs.srcAddr.toNat + (s.regs.srcLen.toNat - n)) n := by
  rw [State.sourceBytes, DataPort.bytesAt_drop _ _ (Nat.sub_le _ _), Nat.sub_sub_self hn]

/-- An end of ACC_APPEND follows the state with what its cursor, its result length and its remainder delimit. -/
theorem State.AppendReady.follows {s : State} (ready : s.AppendReady) {q : DataPort} {idx res ra rl : Nat}
    {o : OutCode} (run : exec .accAppend s = .next (s.endAppend q idx res ra rl o)) (cursor : idx < 2 ^ 32)
    (result : res < 2 ^ 32) (tail : rl ≤ s.regs.srcLen.toNat) :
    s.Follows (s.endAppend q idx res ra rl o)
      { buffered := q.bytesAt s.regs.accBase.toNat idx, outcome := o, frame := q.bytesAt s.regs.accBase.toNat res,
        remainder := s.sourceBytes.drop (s.regs.srcLen.toNat - rl) } := by
  obtain ⟨-, remainder⟩ := remainderRule _ _ _ run
  obtain ⟨inChunk, address⟩ := remainder rfl rfl
  have resLen : (s.endAppend q idx res ra rl o).regs.resLen.toNat = res := toNat_ofNat_of_lt result
  have remLen : (s.endAppend q idx res ra rl o).regs.remLen.toNat = rl := toNat_ofNat_of_le tail
  refine ⟨?_, rfl, rfl, bufferedBytes_endAppend cursor, ?_, inChunk, address, ?_⟩
  · rw [← ready.valid]
    rfl
  · rw [resLen]
    exact DataPort.bytesAt_ext fun _ _ => DataPort.byteAt_remAddrOf ..
  · rw [remLen, ready.source_kept run (Nat.sub_add_cancel tail).le, s.drop_sourceBytes tail]

/-- What `Append` gives of the buffered bytes, the capacity and the chunk (42_accumulator.md R118). -/
def State.appended (s : State) : Cobs.Appended :=
  Cobs.appendStep s.bufferedBytes s.regs.accCap.toNat s.sourceBytes

theorem State.AppendReady.computes_empty {s : State} (ready : s.AppendReady) (empty : s.regs.srcLen.toNat = 0) :
    ∃ t, exec .accAppend s = .next t ∧ s.Follows t s.appended := by
  have run := exec_accAppend_empty ready.valid empty
  have follows := ready.follows run s.regs.accIdx.isLt (by decide) (Nat.zero_le _)
  have noChunk : s.sourceBytes = [] := List.length_eq_zero_iff.mp (s.length_sourceBytes.trans empty)
  rw [noChunk, List.drop_nil] at follows
  rw [State.appended, noChunk, Cobs.appendStep_nil]
  exact ⟨_, run, follows⟩

theorem State.AppendReady.computes_whole {s : State} (ready : s.AppendReady) (nonempty : 0 < s.regs.srcLen.toNat)
    (whole : Cobs.delimiterOffset s.sourceBytes = none) :
    ∃ t, exec .accAppend s = .next t ∧ s.Follows t s.appended := by
  obtain fits | short := Nat.lt_or_ge (s.regs.accIdx.toNat + s.regs.srcLen.toNat) s.regs.accCap.toNat
  · have run := ready.exec_consumed nonempty whole fits
    have follows := ready.follows run (Nat.lt_trans fits s.regs.accCap.isLt) (by decide) (Nat.zero_le _)
    rw [State.bytesAt_blockPort (Nat.le_refl _), State.block, List.take_of_length_le s.length_sourceBytes.le,
      Nat.sub_zero, List.drop_of_length_le s.length_sourceBytes.le] at follows
    rw [State.appended, Cobs.appendStep_consumed whole (by simpa using fits)]
    exact ⟨_, run, follows⟩
  · have run := ready.exec_overflow nonempty whole short
    have follows := ready.follows run (by decide) (by decide) (Nat.le_refl _)
    have chunk : s.sourceBytes ≠ [] := List.ne_nil_of_length_pos (s.length_sourceBytes.symm ▸ nonempty)
    rw [Nat.sub_self, List.drop_zero] at follows
    rw [State.appended, Cobs.appendStep_overflow chunk whole (by simpa using short)]
    exact ⟨_, run, follows⟩

section Delimited
variable {s : State} (ready : s.AppendReady) {d : Nat} (delimiter : Cobs.delimiterOffset s.sourceBytes = some d)
include ready delimiter

/-- With a delimiter the remainder is the bytes after it (42_accumulator.md R115). -/
theorem State.AppendReady.follows_delimited {q : DataPort} {res : Nat} {o : OutCode}
    (run : exec .accAppend s = .next (s.endAppend q 0 res (s.regs.srcAddr.toNat + d + 1)
      (s.regs.srcLen.toNat - d - 1) o)) (result : res < 2 ^ 32) :
    s.Follows (s.endAppend q 0 res (s.regs.srcAddr.toNat + d + 1) (s.regs.srcLen.toNat - d - 1) o)
      { buffered := [], outcome := o, frame := q.bytesAt s.regs.accBase.toNat res,
        remainder := s.sourceBytes.drop (d + 1) } := by
  have inChunk := State.delimiter_lt delimiter
  have follows := ready.follows run (by decide) result (by omega)
  rwa [show s.regs.srcLen.toNat - (s.regs.srcLen.toNat - d - 1) = d + 1 by omega] at follows

theorem State.AppendReady.computes_decoded (fits : s.regs.accIdx.toNat + d < s.regs.accCap.toNat) :
    ∃ t, exec .accAppend s = .next t ∧ s.Follows t s.appended := by
  cases decoded : Cobs.decodeRaw (s.block d) with | mk st out =>
  cases st with
  | ok =>
    have run := ready.exec_frameReady delimiter fits decoded
    have frameFits := State.length_decoded_le (State.delimiter_lt delimiter).le
    rw [decoded] at frameFits
    have follows := ready.follows_delimited delimiter run
      (Nat.lt_of_le_of_lt frameFits (Nat.lt_trans fits s.regs.accCap.isLt))
    rw [State.bytesAt_decodedPort decoded] at follows
    rw [State.appended, Cobs.appendStep_frameReady delimiter (by simpa using fits) decoded]
    exact ⟨_, run, follows⟩
  | malformed =>
    have malformed := congrArg Prod.fst decoded
    have run := ready.exec_decodeFailed delimiter fits malformed
    rw [State.appended, Cobs.appendStep_decodeFailed delimiter (by simpa using fits) malformed]
    exact ⟨_, run, ready.follows_delimited delimiter run (by decide)⟩

theorem State.AppendReady.computes_delimited : ∃ t, exec .accAppend s = .next t ∧ s.Follows t s.appended := by
  obtain fits | short := Nat.lt_or_ge (s.regs.accIdx.toNat + d) s.regs.accCap.toNat
  · exact ready.computes_decoded delimiter fits
  · have run := ready.exec_delimited_overflow delimiter short
    rw [State.appended, Cobs.appendStep_delimited_overflow delimiter (by simpa using short)]
    exact ⟨_, run, ready.follows_delimited delimiter run (by decide)⟩

end Delimited

/-- Settles O33, row by row of R118: each row's end delimits what the same row of `Append` gives. -/
theorem appendComputesAppendFunction : Obligations.AppendComputesAppendFunction := by
  intro s ready
  obtain empty | nonempty := Nat.eq_zero_or_pos s.regs.srcLen.toNat
  · exact ready.computes_empty empty
  · cases delimiter : Cobs.delimiterOffset s.sourceBytes with
    | none => exact ready.computes_whole nonempty delimiter
    | some d => exact ready.computes_delimited delimiter

end Sys2Proof.Machine
end

section
/-! The shared errors and the idle block (60_exceptions.md R125, R144). -/

namespace Sys2Proof.Machine

/-- Of the ways a command can end, only a failed check reports a refusal, and then it is all that the command does
(60_exceptions.md R125). -/
theorem CommandEnd.eq_raise_of_refused {s t : State} {i : Instr} (h : CommandEnd s i t)
    (refused : t.regs.status.err ∈ refusalCodes) : t = s.raise t.regs.status.err := by
  cases h with
  | refused check => rfl
  | failed hi check reason => obtain ⟨rfl, -⟩ | ⟨rfl, -⟩ := reason <;> simp [refusalCodes] at refused
  | transformed | bound | emptied | appended => simp [refusalCodes] at refused

/-- Settles O15: a command by `CommandEnd.eq_raise_of_refused`, any other word by what ILLEGAL_CMD does. -/
theorem refusedCommandWritesOnlyStatus : Obligations.RefusedCommandWritesOnlyStatus := by
  intro w s t h refused
  cases hw : decode (wordBytes w) with
  | instr i =>
    rw [writeCmd, hw] at h
    exact (exec_end h).eq_raise_of_refused refused
  | rejected e =>
    rw [writeCmd, hw] at h
    cases h
    rfl

/-- Settles O3, by `step_of_idle`. -/
theorem idleBlockHoldsItsState : Obligations.IdleBlockHoldsItsState := fun _ => step_of_idle

end Sys2Proof.Machine
end

section
/-! Hardware reset between and during commands (70_reset_and_hazards.md R145, R147). -/

namespace Sys2Proof.Machine

/-- Reset during a command that may run, or that its checks refuse, frees the write footprint and clears the
registers (70_reset_and_hazards.md R147). -/
theorem writeCmdReset_encode {i : Instr} {s : State}
    (plain : commandCheck i s.regs = none → s.port.platform.namesDevice (accessRegions i s.regs) = false) :
    writeCmdReset (encode i) s = .next (s.clobberFootprint (writeFootprint i s.regs)).hardReset := by
  rw [writeCmdReset, decode_wordBytes_encode]
  refine if_neg fun device => ?_
  rw [Bool.and_eq_true, Option.isNone_iff_eq_none] at device
  obtain ⟨passes, names⟩ := device
  exact Bool.false_ne_true ((plain passes).symm.trans names)

/-- Settles O2: the step is `State.hardReset`, whose registers read 0 as those of the reset state do. -/
theorem hardwareResetClearsRegistersOnly : Obligations.HardwareResetClearsRegistersOnly := by
  intro s rest hp
  obtain ⟨readsZero, -⟩ := resetRegistersReadZero
  exact ⟨_, step_of_pending hp, readsZero, rfl, rfl, rfl, rfl⟩

/-- The same of the step: the write of CMD is taken off the host's list. -/
theorem step_cmdReset_encode {i : Instr} {s : State} {rest : List HostOp}
    (hp : s.pending = .cmdReset (.lit (encode i)) :: rest)
    (plain : commandCheck i s.regs = none → s.port.platform.namesDevice (accessRegions i s.regs) = false) :
    step s = .next (({ s with pending := rest }.clobberFootprint (writeFootprint i s.regs)).hardReset) :=
  (step_of_pending hp).trans (writeCmdReset_encode (s := { s with pending := rest }) plain)

/-- Settles O58: the step frees the write footprint (`step_cmdReset_encode`) and leaves every other byte and the
host's records alone. -/
theorem resetDuringCommandAbandonsIt : Obligations.ResetDuringCommandAbandonsIt := by
  intro s i rest hp plain
  refine ⟨_, step_cmdReset_encode hp plain, rfl, fun b outside => State.byteAt_clobberFootprint_outside outside,
    fun g hg k hk => ?_, by simp, by simp⟩
  rw [State.hardReset_port, hg]
  exact State.byteAt_clobberFootprint_inside hk

end Sys2Proof.Machine
end

section
/-! Where the free values stand after a failed transform and around a delivered or undecodable frame
(93_implementation_defined.md U5 to U8, log 4): a command that runs alone draws none before its end. -/

namespace Sys2Proof.Machine

/-! ### Without a race no piece of a command draws a free value -/

/-- No other agent is in the command's regions, and `n` free values have been drawn. -/
def DataPort.QuietAt (n : Nat) (p : DataPort) : Prop := p.raced = false ∧ p.draws = n

/-- A piece of a command that completes, or fails a destination check, on a port with `P`. -/
def Run.EndsIn {φ α : Type} (P : DataPort → Prop) : Run φ α → Prop
  | .ok _ p => P p
  | .full _ p => P p
  | .stop _ => True

/-- A piece of a command that draws no free value unless another agent is in the command's regions. -/
def DrawsNothing {φ α : Type} (f : DataPort → Run φ α) : Prop :=
  ∀ n p, p.QuietAt n → (f p).EndsIn (·.QuietAt n)

namespace DrawsNothing
variable {φ α β : Type}

theorem quietAt_of_ok {f : DataPort → Run φ α} (hf : DrawsNothing f) {n : Nat} {p q : DataPort} {a : α}
    (quiet : p.QuietAt n) (h : f p = .ok a q) : q.QuietAt n := by
  have ends := hf n p quiet
  rwa [h] at ends

theorem quietAt_of_full {f : DataPort → Run φ α} (hf : DrawsNothing f) {n : Nat} {p q : DataPort} {x : φ}
    (quiet : p.QuietAt n) (h : f p = .full x q) : q.QuietAt n := by
  have ends := hf n p quiet
  rwa [h] at ends

theorem ok (a : α) : DrawsNothing (Run.ok (φ := φ) a) := fun _ _ quiet => quiet

theorem bind {f : DataPort → Run φ α} {g : α → DataPort → Run φ β} (hf : DrawsNothing f)
    (hg : ∀ a, DrawsNothing (g a)) : DrawsNothing fun p => (f p).bind g := by
  intro n p quiet
  dsimp only
  cases run : f p with
  | ok a q => exact hg a n q (hf.quietAt_of_ok quiet run)
  | full x q => exact hf.quietAt_of_full quiet run
  | stop => trivial

theorem ite {c : Prop} [Decidable c] {f g : DataPort → Run φ α} (hf : DrawsNothing f) (hg : DrawsNothing g) :
    DrawsNothing fun p => if c then f p else g p := by
  split
  · exact hf
  · exact hg

theorem memRead (a : Nat) : DrawsNothing (φ := φ) (memRead a) := by
  intro n p quiet
  cases h : (Machine.memRead a p : Run φ Byte) with
  | ok b q =>
    obtain ⟨-, -, ⟨-, -, rfl⟩ | ⟨raced, -⟩⟩ := memRead_eq_ok h
    · exact quiet
    · exact absurd (quiet.1.symm.trans raced) Bool.false_ne_true
  | full => exact absurd h memRead_ne_full
  | stop => trivial

theorem memWrite (a : Nat) (v : Byte) : DrawsNothing (φ := φ) (memWrite a v) := by
  intro n p quiet
  cases h : (Machine.memWrite a v p : Run φ Unit) with
  | ok u q =>
    obtain ⟨-, -, rfl⟩ := memWrite_eq_ok h
    exact quiet
  | full => exact absurd h memWrite_ne_full
  | stop => trivial

theorem outByte (dst : Region) (k : Nat) (v : Byte) : DrawsNothing (outByte dst k v) :=
  .ite (.memWrite _ v) fun _ _ quiet => quiet

end DrawsNothing

theorem encCopy_drawsNothing (dst : Region) (b : Byte) (r : EncRegs) : DrawsNothing (encCopy dst b r) :=
  .ite (.bind (.outByte dst _ _) fun _ => .ok _) (.ok r)

theorem encClose_drawsNothing (dst : Region) (b : Byte) (more : Bool) (r : EncRegs) :
    DrawsNothing (encClose dst b more r) :=
  .ite (.bind (.outByte dst _ _) fun _ => .ok _) (.ok r)

theorem encLoop_drawsNothing (src dst : Region) (left i : Nat) (r : EncRegs) :
    DrawsNothing (encLoop src dst left i r) := by
  induction left generalizing i r with
  | zero => exact .ok r
  | succ left ih =>
    exact .bind (.memRead _) fun b => .bind (encCopy_drawsNothing dst b r) fun r₁ =>
      .bind (encClose_drawsNothing dst b _ r₁) fun r₂ => ih (i + 1) r₂

theorem runEncoder_drawsNothing (src dst : Region) : DrawsNothing (runEncoder src dst) :=
  .bind (encLoop_drawsNothing src dst _ 0 _) fun _ => .bind (.ite (.outByte dst _ _) (.ok ())) fun _ =>
    .bind (.outByte dst _ _) fun _ => .ok _

section Decoder
variable {φ : Type} {inp : Nat → DataPort → Run φ Byte} {out : Nat → Byte → DataPort → Run φ Unit}

theorem decImplicitZero_drawsNothing (hout : ∀ k v, DrawsNothing (out k v)) (b : Byte) (r : DecRegs) :
    DrawsNothing (decImplicitZero out b r) :=
  .ite (.bind (hout _ _) fun _ => .ok _) (.ok _)

theorem decLoop_drawsNothing (hinp : ∀ k, DrawsNothing (inp k)) (hout : ∀ k v, DrawsNothing (out k v))
    (left i : Nat) (r : DecRegs) : DrawsNothing (decLoop inp out left i r) := by
  induction left generalizing i r with
  | zero => exact .ok _
  | succ left ih =>
    exact .bind (hinp i) fun b => .ite (.bind (hout _ _) fun _ => ih (i + 1) _)
      (.bind (decImplicitZero_drawsNothing hout b r) fun _ => .ite (.ok _) (ih (i + 1) _))

/-- The decoder unit draws nothing where its primitives draw nothing. -/
theorem runDecoder_drawsNothing (hinp : ∀ k, DrawsNothing (inp k)) (hout : ∀ k v, DrawsNothing (out k v)) (m : Nat) :
    DrawsNothing (runDecoder m inp out) :=
  .bind (.ite (.bind (hinp 0) fun _ => .ok _) (.ok _)) fun _ =>
    .ite (.ok _) (decLoop_drawsNothing hinp hout m 0 _)

end Decoder

theorem runDecodeRaw_drawsNothing (src dst : Region) : DrawsNothing (runDecodeRaw src dst) :=
  runDecoder_drawsNothing (fun _ => .memRead _) (.outByte dst) _

theorem decodeInPlace_drawsNothing (base m : Nat) : DrawsNothing (decodeInPlace base m) :=
  runDecoder_drawsNothing (fun _ => .memRead _) (fun _ _ => .memWrite _ _) m

theorem copyChunk_drawsNothing (src : Region) (target left k : Nat) : DrawsNothing (copyChunk src target left k) := by
  induction left generalizing k with
  | zero => exact .ok ()
  | succ left ih => exact .bind (.memRead _) fun b => .bind (.memWrite _ b) fun _ => ih (k + 1)

/-! ### A failed transform -/

/-- How a failed transform leaves the data port: the destination freed, on a port from which no free value has
been drawn since the start. -/
def State.FreesDestination (s t : State) : Prop :=
  ∃ p : DataPort, p.QuietAt s.port.draws ∧ t.port = p.unspecifiedRegion s.regs.dstRegion

theorem State.FreesDestination.byteAt {s t : State} (h : s.FreesDestination t) {k : Nat}
    (hk : k < s.regs.dstCap.toNat) :
    t.port.byteAt (s.regs.dstAddr.toNat + k) = Config.freeByte (s.port.draws + k) := by
  obtain ⟨p, ⟨-, draws⟩, port⟩ := h
  rw [port, ← draws]
  exact p.byteAt_unspecified_inside _ _ hk

/-- The two ways a transform fails past its checks (93_implementation_defined.md U5, U6). -/
def Status.TransformFailed (st : Status) : Prop :=
  st.err = .dstFull ∨ (st.err = .none ∧ st.outcome = .malformedEncoding)

theorem not_transformFailed_of_refused {s : State} {e : ErrCode} (check : transformCheck s.regs = some e) :
    ¬ (s.raise e).regs.status.TransformFailed := by
  obtain rfl | rfl := transformCheck_eq_some check <;> simp [Status.TransformFailed, Regs.finish]

theorem not_transformFailed_of_complete (r : Regs) : ¬ (r.finish .none .ok).status.TransformFailed := by
  simp [Status.TransformFailed, Regs.finish]

theorem execEncode_freesDestination {s t : State} (quiet : s.port.raced = false) (h : execEncode s = .next t)
    (failed : t.regs.status.TransformFailed) : s.FreesDestination t := by
  obtain ⟨e, check, rfl⟩ | ⟨-, ⟨n, p, -, rfl⟩ | ⟨u, p, run, rfl⟩⟩ := execEncode_cases h
  · exact absurd failed (not_transformFailed_of_refused check)
  · exact absurd failed (not_transformFailed_of_complete _)
  · exact ⟨p, (runEncoder_drawsNothing _ _).quietAt_of_full ⟨quiet, rfl⟩ run, rfl⟩

theorem execDecodeRaw_freesDestination {s t : State} (quiet : s.port.raced = false) (h : execDecodeRaw s = .next t)
    (failed : t.regs.status.TransformFailed) : s.FreesDestination t := by
  obtain ⟨e, check, rfl⟩ | ⟨-, ⟨o, p, -, rfl⟩ | ⟨o, p, run, rfl⟩ | ⟨u, p, run, rfl⟩⟩ := execDecodeRaw_cases h
  · exact absurd failed (not_transformFailed_of_refused check)
  · exact absurd failed (not_transformFailed_of_complete _)
  · exact ⟨p, (runDecodeRaw_drawsNothing _ _).quietAt_of_ok ⟨quiet, rfl⟩ run, rfl⟩
  · exact ⟨p, (runDecodeRaw_drawsNothing _ _).quietAt_of_full ⟨quiet, rfl⟩ run, rfl⟩

/-- Settles O24: both units draw nothing, so the destination's first byte is the next draw. -/
theorem failedTransformLeavesFreeBytes : Obligations.FailedTransformLeavesFreeBytes := by
  intro s t i hi quiet h failed k hk
  obtain rfl | rfl := hi
  · exact (execEncode_freesDestination quiet h failed).byteAt hk
  · exact (execDecodeRaw_freesDestination quiet h failed).byteAt hk

/-! ### A decoded block -/

/-- A scan that completes with no other agent in the chunk gives the first delimiter of its bytes and changes
nothing (42_accumulator.md R105). -/
theorem findDelimiter_eq_ok {src : Region} {left k : Nat} {p q : DataPort} {x : Option Nat} (quiet : p.raced = false)
    (h : findDelimiter src left k p = .ok x q) :
    x = (Cobs.delimiterOffset (p.bytesAt (src.base.toNat + k) left)).map (k + ·) ∧ q = p := by
  induction left generalizing k with
  | zero => cases h; exact ⟨rfl, rfl⟩
  | succ left ih =>
    obtain ⟨b, p₁, read, h⟩ := Run.bind_eq_ok.mp h
    obtain ⟨-, -, ⟨-, rfl, rfl⟩ | ⟨raced, -⟩⟩ := memRead_eq_ok read
    · rw [DataPort.bytesAt_succ, Cobs.delimiterOffset_cons]
      split at h
      · next zero =>
        cases h
        rw [if_pos (show _ = (0x00 : Byte) from zero)]
        exact ⟨rfl, rfl⟩
      · next passed =>
        obtain ⟨rfl, rfl⟩ := ih h
        refine ⟨?_, rfl⟩
        rw [if_neg (show ¬ _ = (0x00 : Byte) from passed), Option.map_map, ← Nat.add_assoc]
        exact congrArg (Option.map · _) (funext fun j => Nat.add_right_comm k 1 j)
    · exact absurd (quiet.symm.trans raced) Bool.false_ne_true

/-- Only a chunk with a delimiter, and room for the bytes before it, reaches the decoder: any other end of
ACC_APPEND reports OK, CONSUMED or OVERFLOW. -/
theorem execAccAppend_decodes {s t : State} {d : Nat} (quiet : s.port.raced = false)
    (delimiter : Cobs.delimiterOffset s.sourceBytes = some d) (h : execAccAppend s = .next t)
    (outcome : t.regs.status.outcome = .frameReady ∨ t.regs.status.outcome = .decodeFailed) :
    s.regs.accIdx.toNat + d < s.regs.accCap.toNat ∧ ∃ ra rl p, p.QuietAt s.port.draws ∧
      appendDecode s (s.regs.accIdx.toNat + d) ra rl p = .next t := by
  obtain ⟨e, -, rfl⟩ | ⟨-, ⟨-, rfl⟩ | ⟨-, ⟨p, -, h⟩ | ⟨d', p, scan, h⟩⟩⟩ := execAccAppend_cases h
  · simp [Regs.finish] at outcome
  · simp [Regs.finish] at outcome
  · obtain ⟨-, u, q, -, rfl⟩ | ⟨-, rfl⟩ := appendWhole_cases h <;> simp [Regs.finish] at outcome
  · obtain ⟨found, rfl⟩ := findDelimiter_eq_ok quiet scan
    have first : Cobs.delimiterOffset (s.port.bytesAt (s.regs.srcRegion.base.toNat + 0) s.regs.srcLen.toNat) = some d :=
      delimiter
    rw [first, Option.map_some, Nat.zero_add, Option.some.injEq] at found
    subst found
    obtain ⟨fits, u, q, copy, h⟩ | ⟨-, rfl⟩ := appendDelimited_cases h
    · exact ⟨fits, _, _, q, (copyChunk_drawsNothing _ _ _ _).quietAt_of_ok ⟨quiet, rfl⟩ copy, h⟩
    · simp [Regs.finish] at outcome

theorem byteAt_endAppend_unspecified (s : State) {p : DataPort} {n : Nat} (quiet : p.QuietAt n)
    (idx res ra rl : Nat) (o : OutCode) {a len k : Nat} (hk : k < len) :
    (s.endAppend (p.unspecified a len) idx res ra rl o).port.byteAt (a + k) = Config.freeByte (n + k) := by
  obtain ⟨-, rfl⟩ := quiet
  exact (DataPort.byteAt_remAddrOf ..).trans (p.byteAt_unspecified_inside a len hk)

theorem toNat_resLen_endAppend {s : State} {p : DataPort} {idx res ra rl : Nat} {o : OutCode} (h : res < 2 ^ 32) :
    (s.endAppend p idx res ra rl o).regs.resLen.toNat = res := toNat_ofNat_of_lt h

section Decoded
variable {s t : State} {m ra rl : Nat} {p : DataPort} (quiet : p.QuietAt s.port.draws)
  (h : appendDecode s m ra rl p = .next t)
include quiet h

/-- Past a delivered frame the block holds the next draws (93_implementation_defined.md U7). -/
theorem appendDecode_frees_past_frame (inMemory : m < 2 ^ 32) (ready : t.regs.status.outcome = .frameReady)
    {k : Nat} (hk : t.regs.resLen.toNat + k < m) :
    t.port.byteAt (s.regs.accBase.toNat + t.regs.resLen.toNat + k) = Config.freeByte (s.port.draws + k) := by
  obtain ⟨o, q, run, rfl⟩ | ⟨o, q, run, rfl⟩ := appendDecode_cases h
  · obtain ⟨-, ho⟩ := decodeInPlace_within run
    rw [toNat_resLen_endAppend (by omega)] at hk ⊢
    exact byteAt_endAppend_unspecified s ((decodeInPlace_drawsNothing _ _).quietAt_of_ok quiet run) _ _ _ _ _
      (by omega)
  · simp [Regs.finish] at ready

/-- After a failed decoding the whole block holds the next draws (93_implementation_defined.md U8). -/
theorem appendDecode_frees_block (failed : t.regs.status.outcome = .decodeFailed) {k : Nat} (hk : k < m) :
    t.port.byteAt (s.regs.accBase.toNat + k) = Config.freeByte (s.port.draws + k) := by
  obtain ⟨o, q, run, rfl⟩ | ⟨o, q, run, rfl⟩ := appendDecode_cases h
  · simp [Regs.finish] at failed
  · exact byteAt_endAppend_unspecified s ((decodeInPlace_drawsNothing _ _).quietAt_of_ok quiet run) _ _ _ _ _ hk

end Decoded

/-- Settles O34: scan, copy and decoding draw nothing, so the bytes freed at the end are the next draws. -/
theorem appendLeavesFreeBytes : Obligations.AppendLeavesFreeBytes := by
  intro s t d quiet delimiter h
  refine ⟨fun _ ready k hk => ?_, fun _ failed k hk => ?_⟩
  · obtain ⟨fits, ra, rl, p, hp, decoded⟩ := execAccAppend_decodes quiet delimiter h (.inl ready)
    exact appendDecode_frees_past_frame hp decoded (Nat.lt_trans fits s.regs.accCap.isLt) ready hk
  · obtain ⟨-, ra, rl, p, hp, decoded⟩ := execAccAppend_decodes quiet delimiter h (.inr failed)
    exact appendDecode_frees_block hp decoded failed hk

end Sys2Proof.Machine
end
